-- ==== Sys2Proof/Word.lean ====
section
/-! DEFINITION. The byte, and the characters the wire protocol names (spec 00_scope.md R8). -/

namespace Sys2Proof

/-- A byte is 8 bits (R8). -/
abbrev Byte := BitVec 8

/-- The start marker `':'`, 0x3A (R8, R80). -/
abbrev chColon : Byte := 0x3A#8
/-- The success marker `'='`, 0x3D (R8, R96). -/
abbrev chEquals : Byte := 0x3D#8
/-- The error marker `'!'`, 0x21 (R8, R96). -/
abbrev chBang : Byte := 0x21#8
/-- Carriage return, 0x0D (R8, R80). -/
abbrev chCR : Byte := 0x0D#8
/-- The character `'0'`, 0x30 (R8). -/
abbrev chZero : Byte := 0x30#8

end Sys2Proof
end

