-- ==== Sys2Proof/Syntax.lean ====
section
/-! DEFINITION. The commands of SSC as syntax: one constructor of Instr per row of spec/opcode_table.json. -/

namespace Sys2Proof

/-- The axis a command names, decoded from its axis byte (R12, R91). -/
inductive Axis where
  | ra
  | dec
  | both
  | none
deriving DecidableEq, Repr

/-- Slew type; `unset` is the spec's NONE (R28). -/
inductive SlewType where
  | goto
  | tracking
  | unset
deriving DecidableEq, Repr

/-- Slew speed; `unset` is the spec's NONE (R28). -/
inductive SlewSpeed where
  | fast
  | slow
  | unset
deriving DecidableEq, Repr

/-- Slew direction; `unset` is the spec's NONE (R28). -/
inductive SlewDir where
  | cw
  | ccw
  | unset
deriving DecidableEq, Repr

/-- The 25 command variants, in band1's order (R92). -/
inductive Opcode where
  | setPosition
  | initializationDone
  | setMotionMode
  | setGotoTarget
  | setGotoTargetIncrement
  | setBreakpointIncrement
  | setStepPeriod
  | startMotion
  | stopMotion
  | instantStop
  | setSwitch
  | setAutoguideSpeed
  | setPolarLEDBrightness
  | getCountsPerRev
  | getTimerFreq
  | getGotoTarget
  | getStepPeriod
  | getPosition
  | getStatus
  | getHighSpeedRatio
  | getSiderealPeriod
  | getAxisPosition
  | getVersion
  | getPECPeriod
  | getExtendedStatus
deriving DecidableEq, Repr

/-- A decoded command: its variant, its axis and its payload fields (R37, R92, R124 to R127). Payloads that the
command ignores (M, O, P) are kept, so that no field of a frame is lost in decoding. -/
inductive Instr where
  /-- `E`, R140 -/
  | setPosition (axis : Axis) (position : Nat)
  /-- `F`, R141 -/
  | initializationDone (axis : Axis)
  /-- `G`, R142 -/
  | setMotionMode (axis : Axis) (type : SlewType) (speed : SlewSpeed) (dir : SlewDir)
  /-- `S`, R143 -/
  | setGotoTarget (axis : Axis) (position : Nat)
  /-- `H`, R144 -/
  | setGotoTargetIncrement (axis : Axis) (increment : Nat)
  /-- `M`, R145 -/
  | setBreakpointIncrement (axis : Axis) (increment : Nat)
  /-- `I`, R146 -/
  | setStepPeriod (axis : Axis) (period : Nat)
  /-- `J`, R160 -/
  | startMotion (axis : Axis)
  /-- `K`, R161 -/
  | stopMotion (axis : Axis)
  /-- `L`, R162 -/
  | instantStop (axis : Axis)
  /-- `O`, R147 -/
  | setSwitch (axis : Axis) (digit : Nat)
  /-- `P`, R148 -/
  | setAutoguideSpeed (axis : Axis) (index : Nat)
  /-- `V`, R150 -/
  | setPolarLEDBrightness (axis : Axis) (brightness : Nat)
  /-- `a`, R170 -/
  | getCountsPerRev (axis : Axis)
  /-- `b`, R171 -/
  | getTimerFreq (axis : Axis)
  /-- `h`, R172 -/
  | getGotoTarget (axis : Axis)
  /-- `i`, R173 -/
  | getStepPeriod (axis : Axis)
  /-- `j`, R174 -/
  | getPosition (axis : Axis)
  /-- `f`, R176 -/
  | getStatus (axis : Axis)
  /-- `g`, R177 -/
  | getHighSpeedRatio (axis : Axis)
  /-- `D`, R178 -/
  | getSiderealPeriod (axis : Axis)
  /-- `d`, R175 -/
  | getAxisPosition (axis : Axis)
  /-- `e`, R179 -/
  | getVersion (axis : Axis)
  /-- `s`, R180 -/
  | getPECPeriod (axis : Axis)
  /-- `q`, R181 -/
  | getExtendedStatus (axis : Axis)
deriving DecidableEq, Repr

/-- The variant of a command: the opcode field its object carries (R123). -/
def Instr.opcode : Instr → Opcode
  | .setPosition _ _ => .setPosition
  | .initializationDone _ => .initializationDone
  | .setMotionMode _ _ _ _ => .setMotionMode
  | .setGotoTarget _ _ => .setGotoTarget
  | .setGotoTargetIncrement _ _ => .setGotoTargetIncrement
  | .setBreakpointIncrement _ _ => .setBreakpointIncrement
  | .setStepPeriod _ _ => .setStepPeriod
  | .startMotion _ => .startMotion
  | .stopMotion _ => .stopMotion
  | .instantStop _ => .instantStop
  | .setSwitch _ _ => .setSwitch
  | .setAutoguideSpeed _ _ => .setAutoguideSpeed
  | .setPolarLEDBrightness _ _ => .setPolarLEDBrightness
  | .getCountsPerRev _ => .getCountsPerRev
  | .getTimerFreq _ => .getTimerFreq
  | .getGotoTarget _ => .getGotoTarget
  | .getStepPeriod _ => .getStepPeriod
  | .getPosition _ => .getPosition
  | .getStatus _ => .getStatus
  | .getHighSpeedRatio _ => .getHighSpeedRatio
  | .getSiderealPeriod _ => .getSiderealPeriod
  | .getAxisPosition _ => .getAxisPosition
  | .getVersion _ => .getVersion
  | .getPECPeriod _ => .getPECPeriod
  | .getExtendedStatus _ => .getExtendedStatus

/-- The axis field of a command (R124). -/
def Instr.axis : Instr → Axis
  | .setPosition a _ => a
  | .initializationDone a => a
  | .setMotionMode a _ _ _ => a
  | .setGotoTarget a _ => a
  | .setGotoTargetIncrement a _ => a
  | .setBreakpointIncrement a _ => a
  | .setStepPeriod a _ => a
  | .startMotion a => a
  | .stopMotion a => a
  | .instantStop a => a
  | .setSwitch a _ => a
  | .setAutoguideSpeed a _ => a
  | .setPolarLEDBrightness a _ => a
  | .getCountsPerRev a => a
  | .getTimerFreq a => a
  | .getGotoTarget a => a
  | .getStepPeriod a => a
  | .getPosition a => a
  | .getStatus a => a
  | .getHighSpeedRatio a => a
  | .getSiderealPeriod a => a
  | .getAxisPosition a => a
  | .getVersion a => a
  | .getPECPeriod a => a
  | .getExtendedStatus a => a

end Sys2Proof
end

