-- ==== Sys2Proof/Config.lean ====
section
/-! DEFINITION. The implementation parameters of spec 00_scope.md R7, and the spec's own test configuration TC. -/

namespace Sys2Proof

/-- The arithmetic `FP` of the ramp (R201, D10, log 5): exact rationals, the spec's reference instance, or a binary
floating-point format of the given precision in bits, rounded to nearest with ties to even (PRESUMED, IEEE 754;
its exponent is unbounded). -/
inductive FpFormat where
  | exact
  | binary (precision : Nat)
deriving DecidableEq, Repr

/-- The levels of the three microstep mode-select pins of one axis (R5, R31). -/
structure MsPins where
  ms0 : Bool
  ms1 : Bool
  ms2 : Bool
deriving DecidableEq, Repr

/-- The parameter `USTEP_PATTERN` at the six microstep counts it is keyed by (R7, R250). -/
structure UstepTable where
  p1 : MsPins
  p2 : MsPins
  p4 : MsPins
  p8 : MsPins
  p16 : MsPins
  p32 : MsPins
deriving DecidableEq, Repr

/-- The parameter table of R7, one configuration for both axes (D35). `K_FAST` is derived
(`Config.kFast`); `AXIS_INF` and `AXIS_NINF` are fixed by band1 (`axisInf`, `axisNinf`). -/
structure Config where
  /-- `TICK_US` -/
  tickUs : Nat
  /-- `LONG_TICK_MS`; no rule reads it -/
  longTickMs : Nat
  /-- `SERIAL_TIMEOUT_MS` -/
  serialTimeoutMs : Nat
  /-- `RX_BUF_CAP` -/
  rxBufCap : Nat
  /-- `MICROSTEPS_PER_REV`, `REV` -/
  rev : Nat
  /-- `START_POS` -/
  startPos : Nat
  /-- `USTEP_SLOW` -/
  ustepSlow : Nat
  /-- `USTEP_FAST` -/
  ustepFast : Nat
  /-- `HIGH_SPEED_RATIO` -/
  highSpeedRatio : Nat
  /-- `TIMER_FREQ` -/
  timerFreq : Nat
  /-- `SIDEREAL_PERIOD` -/
  siderealPeriod : Nat
  /-- `VERSION[0..3]` -/
  version : Nat × Nat × Nat × Nat
  /-- `EXT_STATUS[0..2]` -/
  extStatus : Nat × Nat × Nat
  /-- `STATUS_INIT_DONE` is 1 -/
  statusInitDone : Bool
  /-- `ACCEL` -/
  accel : Rat
  /-- `MAX_SPEED` -/
  maxSpeed : Rat
  /-- `C0` -/
  c0 : Rat
  /-- `CMIN` -/
  cmin : Rat
  /-- `GEN_POS_INF` -/
  genPosInf : Int
  /-- `GEN_NEG_INF` -/
  genNegInf : Int
  /-- `DIST_INF` -/
  distInf : Int
  /-- `STEP_PERIOD_INIT` -/
  stepPeriodInit : Nat
  /-- `REQ_LEN(op)`, where it is not the default length of R93 -/
  reqLenOverrides : List (Opcode × Nat)
  /-- `DIR_LEVEL_POS` is 1 -/
  dirLevelPos : Bool
  /-- `USTEP_PATTERN` -/
  ustepPattern : UstepTable
  /-- `HEX_LOWERCASE` -/
  hexLowercase : Bool
  /-- `FP` -/
  fp : FpFormat
  /-- `PULSE_US`; timing only -/
  pulseUs : Nat
  /-- `BAUD`; timing only -/
  baud : Nat
deriving DecidableEq, Repr

/-- `K_FAST`, always `USTEP_SLOW / USTEP_FAST` (R7, D18). -/
def Config.kFast (c : Config) : Nat := c.ustepSlow / c.ustepFast

/-- `AXIS_INF`, the axis-level sentinel of clockwise tracking, fixed by band1 (R7, R26). -/
def axisInf : Int := 0xFFFFFF

/-- `AXIS_NINF`, the axis-level sentinel of counter-clockwise tracking, fixed by band1 (R7, R26). -/
def axisNinf : Int := 0

/-- The DRV8825 table, the spec's default for `USTEP_PATTERN` (R250, G5, log 20). -/
def UstepTable.drv8825 : UstepTable where
  p1 := ⟨false, false, false⟩
  p2 := ⟨true, false, false⟩
  p4 := ⟨false, true, false⟩
  p8 := ⟨true, true, false⟩
  p16 := ⟨false, false, true⟩
  p32 := ⟨true, false, true⟩

/-- The test configuration TC of R7: the spec's own choice of numbers, no property of a real mount (N2, log 1).
DESIGN CHOICE (unsafe for a claim about State.reset; no claim about every state rests on it). -/
def Config.tc : Config where
  tickUs := 50
  longTickMs := 100
  serialTimeoutMs := 5000
  rxBufCap := 16
  rev := 0x400000
  startPos := 0x800000
  ustepSlow := 32
  ustepFast := 8
  highSpeedRatio := 4
  timerFreq := 20000
  siderealPeriod := 620
  version := (0, 3, 0, 1)
  extStatus := (0, 0, 0)
  statusInitDone := true
  accel := 20000
  maxSpeed := 1000
  c0 := 6760
  cmin := 1000
  genPosInf := 2147483647
  genNegInf := -2147483647
  distInf := 2147483647
  stepPeriodInit := 0
  reqLenOverrides := []
  dirLevelPos := true
  ustepPattern := .drv8825
  hexLowercase := false
  fp := .exact
  pulseUs := 4
  baud := 9600

end Sys2Proof
end

