-- ==== Sys2Proof/WellFormed.lean ====
section
/-! DEFINITION. Which commands are well formed: every payload in the range its field can carry. -/

namespace Sys2Proof

/-- Ranges of the payload fields: 24 bits for hex6 (R125), 8 bits for the brightness and 4 bits for the single
digits (R126), and slew modes that a mode digit can name (R94, R95: never NONE). -/
def Instr.wf : Instr → Bool
  | .setPosition _ v => decide (v < 0x1000000)
  | .initializationDone _ => true
  | .setMotionMode _ t sp d => decide (t ≠ .unset) && decide (sp ≠ .unset) && decide (d ≠ .unset)
  | .setGotoTarget _ v => decide (v < 0x1000000)
  | .setGotoTargetIncrement _ v => decide (v < 0x1000000)
  | .setBreakpointIncrement _ v => decide (v < 0x1000000)
  | .setStepPeriod _ v => decide (v < 0x1000000)
  | .startMotion _ => true
  | .stopMotion _ => true
  | .instantStop _ => true
  | .setSwitch _ d => decide (d < 16)
  | .setAutoguideSpeed _ d => decide (d < 16)
  | .setPolarLEDBrightness _ b => decide (b < 256)
  | .getCountsPerRev _ => true
  | .getTimerFreq _ => true
  | .getGotoTarget _ => true
  | .getStepPeriod _ => true
  | .getPosition _ => true
  | .getStatus _ => true
  | .getHighSpeedRatio _ => true
  | .getSiderealPeriod _ => true
  | .getAxisPosition _ => true
  | .getVersion _ => true
  | .getPECPeriod _ => true
  | .getExtendedStatus _ => true

end Sys2Proof
end

