-- ==== Sys2Proof/Decode.lean ====
section
/-! DEFINITION. The hex codec, the command factory and parse (frames to commands), and the encoder (commands to
frames): spec 30_encoding.md and 40_framer.md. -/

namespace Sys2Proof

/-! ## The hex codec (R83 to R87) -/

/-- `hexDigitToValue` (R83): digits and upper-case letters, lower-case letters if `HEX_LOWERCASE`, else 0. -/
def hexDigitToValue (lower : Bool) (c : Byte) : Nat :=
  let n := c.toNat
  if 0x30 ≤ n ∧ n ≤ 0x39 then n - 0x30
  else if 0x41 ≤ n ∧ n ≤ 0x46 then n - 0x41 + 10
  else if lower = true ∧ 0x61 ≤ n ∧ n ≤ 0x66 then n - 0x61 + 10
  else 0

/-- `hexdigit` (R84), upper case. -/
def hexdigit (v : Nat) : Byte :=
  if v < 10 then BitVec.ofNat 8 (0x30 + v) else BitVec.ofNat 8 (0x41 + (v - 10))

/-- `decodeHex` (R85): digit pairs, least significant byte first, high nibble first; another length gives 0. -/
def decodeHex (lower : Bool) (s : List Byte) (len : Nat) : Nat :=
  let d := fun i => hexDigitToValue lower (s.getD i 0)
  match len with
  | 1 => d 0
  | 2 => 16 * d 0 + d 1
  | 4 => 16 * d 0 + d 1 + 256 * (16 * d 2 + d 3)
  | 6 => 16 * d 0 + d 1 + 256 * (16 * d 2 + d 3) + 65536 * (16 * d 4 + d 5)
  | _ => 0

/-- The lengths `encodeHex` has a meaning for (R86); U4 asks a model to refuse any other, and here no other can be
written down. -/
inductive HexWidth where
  | w2
  | w4
  | w6
deriving DecidableEq, Repr

/-- The number of digits of a width (R86). -/
def HexWidth.len : HexWidth → Nat
  | .w2 => 2
  | .w4 => 4
  | .w6 => 6

/-- The `k` lowest bytes of `w`, least significant first, each as two digits, high nibble first (R86). -/
def encodeBytes : Nat → Nat → List Byte
  | 0, _ => []
  | k + 1, w => hexdigit (w % 256 / 16) :: hexdigit (w % 256 % 16) :: encodeBytes k (w / 256)

/-- `encodeHex` (R86): the value modulo `16^len`, so a negative value goes out in two's complement. -/
def encodeHex (v : Int) (w : HexWidth) : List Byte :=
  encodeBytes (w.len / 2) (v % 16 ^ w.len).toNat

/-! ## Opcodes and formats (R81, R92, R93) -/

/-- The opcode byte of each variant (R92). -/
def Opcode.byte : Opcode → Byte
  | .setPosition => 0x45#8
  | .initializationDone => 0x46#8
  | .setMotionMode => 0x47#8
  | .setGotoTarget => 0x53#8
  | .setGotoTargetIncrement => 0x48#8
  | .setBreakpointIncrement => 0x4D#8
  | .setStepPeriod => 0x49#8
  | .startMotion => 0x4A#8
  | .stopMotion => 0x4B#8
  | .instantStop => 0x4C#8
  | .setSwitch => 0x4F#8
  | .setAutoguideSpeed => 0x50#8
  | .setPolarLEDBrightness => 0x56#8
  | .getCountsPerRev => 0x61#8
  | .getTimerFreq => 0x62#8
  | .getGotoTarget => 0x68#8
  | .getStepPeriod => 0x69#8
  | .getPosition => 0x6A#8
  | .getStatus => 0x66#8
  | .getHighSpeedRatio => 0x67#8
  | .getSiderealPeriod => 0x44#8
  | .getAxisPosition => 0x64#8
  | .getVersion => 0x65#8
  | .getPECPeriod => 0x73#8
  | .getExtendedStatus => 0x71#8

/-- The closed table of variants, in the order of R92. -/
def opcodeTable : List Opcode :=
  [.setPosition, .initializationDone, .setMotionMode, .setGotoTarget, .setGotoTargetIncrement,
   .setBreakpointIncrement, .setStepPeriod, .startMotion, .stopMotion, .instantStop] ++
  [.setSwitch, .setAutoguideSpeed, .setPolarLEDBrightness, .getCountsPerRev, .getTimerFreq, .getGotoTarget,
   .getStepPeriod, .getPosition, .getStatus, .getHighSpeedRatio] ++
  [.getSiderealPeriod, .getAxisPosition, .getVersion, .getPECPeriod, .getExtendedStatus]

/-- The variant an opcode byte selects, if any (R92). -/
def opcodeOfByte (b : Byte) : Option Opcode :=
  opcodeTable.find? fun op => decide (op.byte = b)

/-- The length column of R92: the default of `REQ_LEN` (R81, R93). -/
def Opcode.defaultLen : Opcode → Nat
  | .setPosition => 9
  | .initializationDone => 3
  | .setMotionMode => 5
  | .setGotoTarget => 9
  | .setGotoTargetIncrement => 9
  | .setBreakpointIncrement => 9
  | .setStepPeriod => 9
  | .startMotion => 3
  | .stopMotion => 3
  | .instantStop => 3
  | .setSwitch => 4
  | .setAutoguideSpeed => 4
  | .setPolarLEDBrightness => 5
  | .getCountsPerRev => 3
  | .getTimerFreq => 3
  | .getGotoTarget => 3
  | .getStepPeriod => 3
  | .getPosition => 3
  | .getStatus => 3
  | .getHighSpeedRatio => 3
  | .getSiderealPeriod => 3
  | .getAxisPosition => 3
  | .getVersion => 3
  | .getPECPeriod => 3
  | .getExtendedStatus => 3

/-- `REQ_LEN(op)` (R93): the configured length, the default where none is configured. -/
def requiredLen (c : Config) (op : Opcode) : Nat :=
  match c.reqLenOverrides.find? fun p => decide (p.1 = op) with
  | some p => p.2
  | none => op.defaultLen

/-! ## The factory and parse (R91, R94, R95, R97, R123 to R127) -/

/-- Why a byte string cut by the framer selects no command (R97, R124). -/
inductive Reject where
  /-- the byte at index 1 is none of the 25, or is absent (R123) -/
  | unknownOpcode
  /-- the length is not `REQ_LEN(op)` (R124) -/
  | badLength
  /-- the byte at index 0 is not `':'` (R124) -/
  | badStart
  /-- the byte at index 1 is not the variant's; never after `identify` (R124) -/
  | badOpcode
  /-- there is no axis byte; implied by the length check under the default lengths (R124) -/
  | noAxis
  /-- the mode digit of `G` is not `'0'..'3'` (R94, R127) -/
  | badModeDigit
deriving DecidableEq, Repr

/-- `parseAxis` (R91). -/
def parseAxis (b : Byte) : Axis :=
  if b = 0x31#8 then .ra
  else if b = 0x32#8 then .dec
  else if b = 0x33#8 then .both
  else .none

/-- The mode digit of `G` as a character (R94). -/
def parseMode (b : Byte) : Option (SlewType × SlewSpeed) :=
  if b = 0x30#8 then some (.goto, .fast)
  else if b = 0x31#8 then some (.tracking, .slow)
  else if b = 0x32#8 then some (.goto, .slow)
  else if b = 0x33#8 then some (.tracking, .fast)
  else none

/-- The direction byte of `G`: the low bit of its hex value (R95, D9). -/
def parseDir (lower : Bool) (b : Byte) : SlewDir :=
  if hexDigitToValue lower b % 2 = 1 then .ccw else .cw

/-- `identify(buf, L)` (R123): only the byte at index 1 is looked at. -/
def identify (buf : List Byte) : Option Opcode :=
  if buf.length < 2 then none else opcodeOfByte (buf.getD 1 0)

/-- The fields of a frame whose common checks have passed (R91, R125 to R127). -/
def parsePayload (lower : Bool) (op : Opcode) (buf : List Byte) : Except Reject Instr :=
  let axis := parseAxis (buf.getD 2 0)
  let hex := fun n => decodeHex lower (buf.drop 3) n
  match op with
  | .setPosition => .ok (.setPosition axis (hex 6))
  | .initializationDone => .ok (.initializationDone axis)
  | .setMotionMode =>
    let dir := parseDir lower (buf.getD 4 0)
    match parseMode (buf.getD 3 0) with
    | some (type, speed) => .ok (.setMotionMode axis type speed dir)
    | none => .error .badModeDigit
  | .setGotoTarget => .ok (.setGotoTarget axis (hex 6))
  | .setGotoTargetIncrement => .ok (.setGotoTargetIncrement axis (hex 6))
  | .setBreakpointIncrement => .ok (.setBreakpointIncrement axis (hex 6))
  | .setStepPeriod => .ok (.setStepPeriod axis (hex 6))
  | .startMotion => .ok (.startMotion axis)
  | .stopMotion => .ok (.stopMotion axis)
  | .instantStop => .ok (.instantStop axis)
  | .setSwitch => .ok (.setSwitch axis (hex 1))
  | .setAutoguideSpeed => .ok (.setAutoguideSpeed axis (hex 1))
  | .setPolarLEDBrightness => .ok (.setPolarLEDBrightness axis (hex 2))
  | .getCountsPerRev => .ok (.getCountsPerRev axis)
  | .getTimerFreq => .ok (.getTimerFreq axis)
  | .getGotoTarget => .ok (.getGotoTarget axis)
  | .getStepPeriod => .ok (.getStepPeriod axis)
  | .getPosition => .ok (.getPosition axis)
  | .getStatus => .ok (.getStatus axis)
  | .getHighSpeedRatio => .ok (.getHighSpeedRatio axis)
  | .getSiderealPeriod => .ok (.getSiderealPeriod axis)
  | .getAxisPosition => .ok (.getAxisPosition axis)
  | .getVersion => .ok (.getVersion axis)
  | .getPECPeriod => .ok (.getPECPeriod axis)
  | .getExtendedStatus => .ok (.getExtendedStatus axis)

/-- `parse(cmd, buf, L)` (R124 to R127): the common checks in the spec's order, then the fields. -/
def parse (c : Config) (op : Opcode) (buf : List Byte) : Except Reject Instr :=
  if buf.length ≠ requiredLen c op then .error .badLength
  else if buf.getD 0 0 ≠ chColon then .error .badStart
  else if buf.getD 1 0 ≠ op.byte then .error .badOpcode
  else if buf.length < 3 then .error .noAxis
  else parsePayload c.hexLowercase op buf

/-- The decoder: the command a frame (without its `\r`) stands for, or why it stands for none (R97, R121). -/
def decode (c : Config) (buf : List Byte) : Except Reject Instr :=
  match identify buf with
  | none => .error .unknownOpcode
  | some op => parse c op buf

/-! ## The encoder (R80, R81, R91, R94, R95), log 15 -/

/-- An axis byte that `parseAxis` reads as the axis; `'0'` for NONE (log 15). -/
def encodeAxis : Axis → Byte
  | .ra => 0x31#8
  | .dec => 0x32#8
  | .both => 0x33#8
  | .none => 0x30#8

/-- The mode digit of a slew type and speed (R94); the ill-formed pairs get a byte that no mode digit is. -/
def encodeMode : SlewType → SlewSpeed → Byte
  | .goto, .fast => 0x30#8
  | .tracking, .slow => 0x31#8
  | .goto, .slow => 0x32#8
  | .tracking, .fast => 0x33#8
  | .goto, .unset => 0x3F#8
  | .tracking, .unset => 0x3F#8
  | .unset, .fast => 0x3F#8
  | .unset, .slow => 0x3F#8
  | .unset, .unset => 0x3F#8

/-- A direction byte (R95): `'1'` for CCW, else `'0'` (log 15). -/
def encodeDir : SlewDir → Byte
  | .cw => 0x30#8
  | .ccw => 0x31#8
  | .unset => 0x30#8

/-- The payload bytes of a command (R81). -/
def encodePayload : Instr → List Byte
  | .setPosition _ v => encodeHex v .w6
  | .initializationDone _ => []
  | .setMotionMode _ t sp d => [encodeMode t sp, encodeDir d]
  | .setGotoTarget _ v => encodeHex v .w6
  | .setGotoTargetIncrement _ v => encodeHex v .w6
  | .setBreakpointIncrement _ v => encodeHex v .w6
  | .setStepPeriod _ v => encodeHex v .w6
  | .startMotion _ => []
  | .stopMotion _ => []
  | .instantStop _ => []
  | .setSwitch _ d => [hexdigit d]
  | .setAutoguideSpeed _ d => [hexdigit d]
  | .setPolarLEDBrightness _ b => encodeHex b .w2
  | .getCountsPerRev _ => []
  | .getTimerFreq _ => []
  | .getGotoTarget _ => []
  | .getStepPeriod _ => []
  | .getPosition _ => []
  | .getStatus _ => []
  | .getHighSpeedRatio _ => []
  | .getSiderealPeriod _ => []
  | .getAxisPosition _ => []
  | .getVersion _ => []
  | .getPECPeriod _ => []
  | .getExtendedStatus _ => []

/-- The frame of a command, without its `\r` (R80): start marker, opcode, axis, payload, and, where `REQ_LEN` is
configured longer than the fields, `'0'` up to that length (log 15). -/
def encode (c : Config) (i : Instr) : List Byte :=
  [chColon, i.opcode.byte, encodeAxis i.axis] ++ encodePayload i ++
    List.replicate (requiredLen c i.opcode - (3 + (encodePayload i).length)) chZero

/-! ## Words of the opcode table (log 10) -/

/-- The frame whose bits are `w`, numbered as spec/opcode_table.json numbers them: its 16-bit word has frame byte 0
in the high half and byte 1 in the low half; byte `k` from 2 on is bits `8k+7..8k`. The frame is as long as the
opcode requires, and every bit above `nbits` is 0. -/
def tableFrame (c : Config) (nbits w : Nat) : List Byte :=
  let v := w % 2 ^ nbits
  let op := BitVec.ofNat 8 v
  let len := max (nbits / 8) (match opcodeOfByte op with
    | some o => requiredLen c o
    | none => 3)
  BitVec.ofNat 8 (v / 2 ^ 8) :: op ::
    (List.range (len - 2)).map fun k => BitVec.ofNat 8 (v / 2 ^ (8 * (k + 2)))

/-- The command the decoder reads from an opcode-table word, under TC. -/
def decodeTableWord (nbits w : Nat) : Option Instr :=
  match decode Config.tc (tableFrame Config.tc nbits w) with
  | .ok i => some i
  | .error _ => none

end Sys2Proof
end

