-- ==== Sys2Proof/Machine/ConfigCheck.lean ====
section
/-! DEFINITION. The constraints on a configuration (spec 00_scope.md R7, U27; log 8). -/

namespace Sys2Proof.Machine

/-- The microstep counts R7 admits. -/
def ustepCounts : List Nat := [1, 2, 4, 8, 16, 32]

/-- The six patterns are distinct (R7: injective; R250). -/
def ustepInjective (t : UstepTable) : Bool :=
  decide [t.p1, t.p2, t.p4, t.p8, t.p16, t.p32].Nodup

/-- Every command has a required length that holds its fields and is below the buffer's capacity (log 8): with the
default lengths this says `RX_BUF_CAP >= 10` (D6, R305). -/
def reqLenFits (c : Config) : Bool :=
  opcodeTable.all fun op => decide (op.defaultLen ≤ requiredLen c op) && decide (requiredLen c op < c.rxBufCap)

/-- `DIST_INF > MAX_SPEED^2 / (2 ACCEL) + 1` (R7), multiplied out over the numerators and denominators so that it
evaluates on integers. -/
def distInfFits (c : Config) : Bool :=
  decide (c.maxSpeed.num * c.maxSpeed.num * c.accel.den <
    (c.distInf - 1) * (2 * c.accel.num * (c.maxSpeed.den * c.maxSpeed.den)))

/-- The precision of a binary format is at least two bits (log 5). -/
def fpFits : FpFormat → Bool
  | .exact => true
  | .binary p => decide (2 ≤ p)

/-- The constraints on the timing and position parameters (R7). -/
def boundsChecks (c : Config) : List Bool :=
  [decide (0 < c.tickUs), decide (0 < c.serialTimeoutMs), decide (10 ≤ c.rxBufCap),
   decide (c.rev % 2 = 0), decide (0 < c.rev), decide (c.rev < 2 ^ 24),
   decide (c.rev / 2 ≤ c.startPos), decide (c.startPos + c.rev / 2 ≤ 2 ^ 24),
   decide (c.ustepSlow ∈ ustepCounts), decide (c.ustepFast ∈ ustepCounts),
   decide (c.ustepSlow % c.ustepFast = 0)]

/-- The constraints on the reported constants (R7). -/
def reportChecks (c : Config) : List Bool :=
  [decide (c.highSpeedRatio < 256), decide (c.timerFreq < 2 ^ 24), decide (c.siderealPeriod < 2 ^ 24),
   decide (c.version.1 < 16), decide (c.version.2.1 < 16), decide (c.version.2.2.1 < 16),
   decide (c.version.2.2.2 < 16), decide (c.extStatus.1 < 16), decide (c.extStatus.2.1 < 16),
   decide (c.extStatus.2.2 < 16), decide (c.stepPeriodInit < 2 ^ 24)]

/-- The constraints on the ramp's constants; `0 < q` and `CMIN <= C0` are said over numerators and denominators (R7,
R200). -/
def rampChecks (c : Config) : List Bool :=
  [decide (0 < c.accel.num), decide (0 < c.maxSpeed.num), decide (0 < c.c0.num), decide (0 < c.cmin.num),
   decide (c.cmin.num * c.c0.den ≤ c.c0.num * c.cmin.den),
   decide (c.genNegInf < 0), decide (0 < c.genPosInf), distInfFits c, fpFits c.fp]

/-- A configuration meets every constraint of R7; R292 requires it before the first event. -/
def configOk (c : Config) : Bool :=
  ((boundsChecks c ++ reportChecks c) ++ (rampChecks c ++ [reqLenFits c, ustepInjective c.ustepPattern])).all id

end Sys2Proof.Machine
end

