-- ==== Sys2Proof/Machine/Pins.lean ====
section
/-! DEFINITION. The microstep mode-select levels (spec 46_axis_motor.md R250). -/

namespace Sys2Proof.Machine

/-- `USTEP_PATTERN(m)`: the configured pattern of the six counts; any other count gives all high (R250). -/
def ustepLevels (t : UstepTable) (m : Nat) : MsPins :=
  if m = 1 then t.p1
  else if m = 2 then t.p2
  else if m = 4 then t.p4
  else if m = 8 then t.p8
  else if m = 16 then t.p16
  else if m = 32 then t.p32
  else ⟨true, true, true⟩

end Sys2Proof.Machine
end

