-- ==== Sys2Proof/Machine/State.lean ====
section
/-! DEFINITION. The state of SSC as plain data (spec 10_state.md), its reset (R39, R290), and the reasons a step can
stop. -/

namespace Sys2Proof.Machine

/-- The direction register of a step generator, +1 or -1 (R34). -/
inductive StepDir where
  | pos
  | neg
deriving DecidableEq, Repr

/-- The registers of one step generator (R32 to R35). Positions are raw steps, unbounded integers (R32, log 9). -/
structure StepGen where
  /-- `g.position` (R32) -/
  position : Int
  /-- `g.target` (R33) -/
  target : Int
  /-- `g.speed`, steps per second, signed (R34) -/
  speed : Rat
  /-- `g.cn`, the inter-step interval in microseconds (R34) -/
  cn : Rat
  /-- `g.n`, the ramp counter (R34) -/
  n : Int
  /-- `g.pps`, fast ticks between step pulses, 0 for no pulses (R34) -/
  pps : Nat
  /-- `g.dir` (R34) -/
  dir : StepDir
deriving DecidableEq, Repr

/-- The registers and output latches of one axis motor and the generator it owns (R25 to R31). -/
structure AxisMotor where
  /-- `ax.position`, the reference position, an unbounded integer (R25, D31) -/
  position : Int
  /-- `ax.target` (R26) -/
  target : Int
  /-- `ax.moving` (R27) -/
  moving : Bool
  /-- `ax.stopping` (R27) -/
  stopping : Bool
  /-- `ax.slew_type` (R28) -/
  slewType : SlewType
  /-- `ax.slew_speed` (R28) -/
  slewSpeed : SlewSpeed
  /-- `ax.slew_dir` (R28) -/
  slewDir : SlewDir
  /-- `ax.step_period`, fast ticks per pulse (R29) -/
  stepPeriod : Nat
  /-- `ax.tick_count` (R30) -/
  tickCount : Nat
  /-- `ax.dir_pin` (R31) -/
  dirPin : Bool
  /-- `ax.ms_pin` (R31) -/
  msPin : MsPins
  /-- `step_pin`, low except during a pulse (R31) -/
  stepPin : Bool
  /-- the model's record of the output: pulses emitted on `step_pin` since reset (R10, log 13) -/
  pulses : Nat
  /-- `ax.g` (R10) -/
  g : StepGen
deriving DecidableEq, Repr

/-- Which of the two axis motors (R6, R280). -/
inductive MotorId where
  | ra
  | dec
deriving DecidableEq, Repr

/-- The five events of R6. -/
inductive Event where
  | rxByte (b : Byte)
  | pollTimeout
  | longTick (a : MotorId)
  | tick (a : MotorId)
  | reset
deriving DecidableEq, Repr

/-- A pending event and the milliseconds that pass before it, so that `now_ms` is monotone (R5, D41, log 2). -/
structure Arrival where
  elapsedMs : Nat
  event : Event
deriving DecidableEq, Repr

/-- The receive buffer's bytes: (index, byte) pairs in the canonical form `Memory.wf` (R20). -/
abbrev Memory := List Host.Cell

/-- What a byte of the buffer that nothing has written reads as. R20 and R39 leave it unspecified, U22 says any value,
and no rule reads it: DESIGN CHOICE (log 7). -/
def unlistedByte : Byte := 0

/-- The canonical form of a memory: indexes strictly rising, and no entry that an unlisted index would read as. -/
abbrev Memory.wf (m : Memory) : Prop := (m.Pairwise fun a b => a.1 < b.1) ∧ ∀ p ∈ m, p.2 ≠ unlistedByte

/-- Everything the spec gives SSC: handler registers, ports, the two axes, and the configuration. -/
structure State where
  /-- the configuration argument of R7; no event writes it (R70, log 1) -/
  cfg : Config
  /-- the input port `now_ms` (R5) -/
  nowMs : Nat
  /-- the environment's pending events, first to happen first (R5, R6, log 2) -/
  inputs : List Arrival
  /-- `h.rx_buf` (R20) -/
  rxBuf : Memory
  /-- `h.rx_len` (R21) -/
  rxLen : Nat
  /-- `h.last_rx_ms` (R22) -/
  lastRxMs : Nat
  /-- `h.led` (R24) -/
  led : Byte
  /-- the LED port, `none` while it is not driven (R5, R24, R150) -/
  ledPort : Option Byte
  /-- the RA motor (R25 to R35) -/
  ra : AxisMotor
  /-- the DEC motor (R25 to R35) -/
  dec : AxisMotor
  /-- the output stream `tx` since reset, oldest byte first (R5, R39, log 14) -/
  tx : List Byte
deriving DecidableEq, Repr

/-- What stops a step with a fault: nothing does. "Nothing in this core is fatal/crashing" (60_exceptions.md), and no
behaviour of 93_implementation_defined.md has the treatment `fault`, so that there is no constructor. -/
inductive Fault : Type where
deriving DecidableEq, Repr

/-- What a step gives no meaning to. -/
inductive Refusal where
  /-- Raised by exec for a command without a meaning; no arm raises it now. Safe. -/
  | notModelled (mnemonic : String)
  /-- Raised by step when the configuration breaks a constraint of R7 (U27: refuse). Safe (log 8). -/
  | badConfig
  /-- Raised by tick when its step would take the generator's position to a sentinel, where the spec gives no behaviour
  (R32, R307; U6: refuse). Safe (log 9). -/
  | positionRange
deriving DecidableEq, Repr

/-- A generator at reset (R39); `cn` is unspecified there and 0 here (log 6). -/
def StepGen.reset : StepGen where
  position := 0
  target := 0
  speed := 0
  cn := 0
  n := 0
  pps := 0
  dir := .pos

/-- An axis motor at reset (R39, R31). -/
def AxisMotor.reset (c : Config) : AxisMotor where
  position := c.startPos
  target := c.startPos
  moving := false
  stopping := false
  slewType := .unset
  slewSpeed := .unset
  slewDir := .unset
  stepPeriod := c.stepPeriodInit
  tickCount := 0
  dirPin := c.dirLevelPos
  msPin := ustepLevels c.ustepPattern c.ustepSlow
  stepPin := false
  pulses := 0
  g := .reset

/-- The registers after a `reset` event at time `now`, with the events still to come (R39, R290). `led` and `cn` are
unspecified there and 0 here (log 6); the buffer's bytes are unspecified there and `unlistedByte` here (log 7). -/
def State.powerOn (c : Config) (now : Nat) (rest : List Arrival) : State where
  cfg := c
  nowMs := now
  inputs := rest
  rxBuf := []
  rxLen := 0
  lastRxMs := now
  led := 0
  ledPort := none
  ra := .reset c
  dec := .reset c
  tx := []

/-- The machine right after reset: under TC, at `now_ms = 0`, with no event pending (R39, log 1, log 2). -/
def State.reset : State := State.powerOn Config.tc 0 []

end Sys2Proof.Machine
end

