-- ==== Sys2Proof/Machine/Flags.lean ====
section
/-! DEFINITION. The flags computed from registers: the status nibbles, useAccel and isRunning (spec 43_get_commands.md
R176, 44_replies.md R193, 46_axis_motor.md R230, 45_step_generator.md R204). -/

namespace Sys2Proof.Machine

/-- Nibble 0 of the status reply: slew mode, direction, speed (R176, R193, D25, log 21). -/
def statusNibble0 (ax : AxisMotor) : Nat :=
  (if ax.slewType = .tracking then 1 else 0) + (if ax.slewDir = .ccw then 2 else 0) +
    (if ax.slewSpeed = .fast then 4 else 0)

/-- Nibble 1 of the status reply: running; blocked is never set (R176, R193). -/
def statusNibble1 (ax : AxisMotor) : Nat := if ax.moving then 1 else 0

/-- Nibble 2 of the status reply: init-done, a constant of the configuration (R176, R193). -/
def statusNibble2 (c : Config) : Nat := if c.statusInitDone then 1 else 0

/-- `useAccel(ax)` (R230). -/
def useAccel (ax : AxisMotor) : Bool := decide (ax.slewType = .goto) || decide (ax.slewSpeed = .fast)

/-- `isRunning(g)` (R204). -/
def isRunning (g : StepGen) : Bool := !(decide (g.speed = 0) && decide (g.position = g.target))

end Sys2Proof.Machine
end

