-- ==== Sys2Proof/Machine/Operands.lean ====
section
/-! DEFINITION. The operand forms: which motor an axis operand selects, and the signs and levels of directions (spec
30_encoding.md R91, 46_axis_motor.md R231, R232, 45_step_generator.md R207). -/

namespace Sys2Proof.Machine

/-- `motor(axis)`: DEC for DEC, RA for RA, BOTH and NONE (R91, R280). -/
def motorOf : Axis → MotorId
  | .dec => .dec
  | .ra => .ra
  | .both => .ra
  | .none => .ra

/-- The registers of a motor. -/
def motor (m : MotorId) (s : State) : AxisMotor :=
  match m with
  | .ra => s.ra
  | .dec => s.dec

/-- Write the registers of a motor. -/
def setMotor (m : MotorId) (ax : AxisMotor) (s : State) : State :=
  match m with
  | .ra => { s with ra := ax }
  | .dec => { s with dec := ax }

/-- The value of a generator direction (R34). -/
def dirValue : StepDir → Int
  | .pos => 1
  | .neg => -1

/-- `sgn(dir)`: CW and NONE give +1, CCW gives -1 (R232, D17, D32, log 19). -/
def slewSign : SlewDir → StepDir
  | .cw => .pos
  | .unset => .pos
  | .ccw => .neg

/-- The level of `dir_pin` for a generator direction (R207). -/
def dirLevel (c : Config) : StepDir → Bool
  | .pos => c.dirLevelPos
  | .neg => !c.dirLevelPos

/-- `ratio(ax)`: reference units per step pulse (R231, D18). -/
def ratio (c : Config) (ax : AxisMotor) : Nat :=
  match ax.slewSpeed with
  | .fast => c.kFast
  | .slow => 1
  | .unset => 1

end Sys2Proof.Machine
end

