-- ==== Sys2Proof/Machine/Replies.lean ====
section
/-! DEFINITION. The reply framer: the seven reply forms and their bytes (spec 44_replies.md, R96, R260). -/

namespace Sys2Proof.Machine

/-- The error codes band1 names (R260, R261): SSC sends only the codes 2 and 4. -/
inductive ErrorCode where
  | unknownCmd
  | commandLength
  | motorNotStopped
  | invalidCharacter
  | notInitialized
  | driverSleeping
  | pecTrainingRunning
  | noValidPecData
deriving DecidableEq, Repr

/-- The number of an error code (R260). -/
def errorNumber : ErrorCode → Nat
  | .unknownCmd => 0
  | .commandLength => 1
  | .motorNotStopped => 2
  | .invalidCharacter => 3
  | .notInitialized => 4
  | .driverSleeping => 5
  | .pecTrainingRunning => 7
  | .noValidPecData => 8

/-- The field widths of a Data reply (R191). -/
inductive DataWidth where
  | two
  | six
deriving DecidableEq, Repr

/-- The hex width of a Data reply (R191). -/
def dataHexWidth : DataWidth → HexWidth
  | .two => .w2
  | .six => .w6

/-- The seven reply forms (R190 to R196). -/
inductive Reply where
  | empty
  | data (v : Int) (w : DataWidth)
  | position (v : Int)
  | status (n0 n1 n2 : Nat)
  | version (n0 n1 n2 n3 : Nat)
  | extendedStatus (n0 n1 n2 : Nat)
  | error (code : ErrorCode)
deriving DecidableEq, Repr

/-- The bytes of a reply frame (R96, R190 to R196). -/
def replyBytes : Reply → List Byte
  | .empty => [chEquals, chCR]
  | .data v w => chEquals :: encodeHex v (dataHexWidth w) ++ [chCR]
  | .position v => chEquals :: encodeHex v .w6 ++ [chCR]
  | .status n0 n1 n2 => [chEquals, hexdigit n0, hexdigit n1, hexdigit n2, chCR]
  | .version n0 n1 n2 n3 =>
    [chEquals, hexdigit n0, hexdigit n1, hexdigit n2, hexdigit n3, chZero, chZero, chCR]
  | .extendedStatus n0 n1 n2 =>
    [chEquals, hexdigit n0, hexdigit n1, hexdigit n2, chZero, chZero, chZero, chCR]
  | .error code => [chBang, hexdigit (errorNumber code), chCR]

end Sys2Proof.Machine
end

