-- ==== Sys2Proof/Machine/Ops.lean ====
section
/-! DEFINITION. The named operations over the receive buffer and the output stream, and the error reply, which stands
where a processor raises an exception (spec 20_memory.md, 00_scope.md R10, 60_exceptions.md R275, R276). -/

namespace Sys2Proof.Machine

/-- The byte at an index: the one stored there, or `unlistedByte`. -/
def memRead : Memory → Nat → Byte
  | [], _ => unlistedByte
  | (k, b) :: rest, i => if k = i then b else memRead rest i

/-- Take an index out of the list. -/
def memErase (m : Memory) (i : Nat) : Memory := m.filter fun p => !decide (p.1 = i)

/-- List a byte at an index, in its place. -/
def memInsert : Memory → Nat → Byte → Memory
  | [], i, b => [(i, b)]
  | (k, v) :: rest, i, b =>
    if i < k then (i, b) :: (k, v) :: rest
    else if i = k then (i, b) :: rest
    else (k, v) :: memInsert rest i b

/-- Store a byte at an index, keeping the canonical form. -/
def memWrite (m : Memory) (i : Nat) (b : Byte) : Memory :=
  if b = unlistedByte then memErase m i else memInsert m i b

/-- `RxRead(i)` (R60); every rule reads below `rx_len` only. -/
def rxRead (i : Nat) (s : State) : Byte := memRead s.rxBuf i

/-- `RxAppend(b)`: store the byte, or drop it when the buffer is full (R61). -/
def rxAppend (b : Byte) (s : State) : State :=
  if s.rxLen < s.cfg.rxBufCap then { s with rxBuf := memWrite s.rxBuf s.rxLen b, rxLen := s.rxLen + 1 } else s

/-- The frame held: `rx_buf[0 .. rx_len-1]`, first byte first (R121). -/
def heldFrame (s : State) : List Byte := (List.range s.rxLen).map fun i => rxRead i s

/-- Store a string at consecutive indexes from `i` on. -/
def memLoad : Memory → Nat → List Byte → Memory
  | m, _, [] => m
  | m, i, b :: bs => memLoad (memWrite m i b) (i + 1) bs

/-- `send` of one reply, whole, at the end of `tx` (R10, R71). -/
def send (r : Reply) (s : State) : State := { s with tx := s.tx ++ replyBytes r }

/-- `reply Error(c)`: what a command does instead of its effect; nothing is saved and nothing else changes, and there
is no return from it (R10, R263, R275, R276). -/
def replyError (code : ErrorCode) (s : State) : State := send (.error code) s

/-- A state that holds a frame, ready for its `\r` to be the next event (log 10). -/
def holdFrame (bytes : List Byte) (s : State) : State :=
  { s with
    rxBuf := memLoad s.rxBuf 0 bytes
    rxLen := bytes.length
    inputs := ⟨0, .rxByte chCR⟩ :: s.inputs }

end Sys2Proof.Machine
end

