-- ==== Sys2Proof/Machine/GetCommands.lean ====
section
/-! DEFINITION. The meanings of the get commands a b h i j d f g D e s q (spec 43_get_commands.md). -/

namespace Sys2Proof.Machine

/-- `a` GetCountsPerRev (R170). -/
def execGetCountsPerRev (_ : Axis) (s : State) : Host.Outcome State Fault Refusal :=
  .next (send (.data s.cfg.rev .six) s)

/-- `b` GetTimerFreq (R171). -/
def execGetTimerFreq (_ : Axis) (s : State) : Host.Outcome State Fault Refusal :=
  .next (send (.data s.cfg.timerFreq .six) s)

/-- `h` GetGotoTarget (R172). -/
def execGetGotoTarget (a : Axis) (s : State) : Host.Outcome State Fault Refusal :=
  .next (send (.position (motor (motorOf a) s).target) s)

/-- `i` GetStepPeriod (R173, conflict C5). -/
def execGetStepPeriod (a : Axis) (s : State) : Host.Outcome State Fault Refusal :=
  .next (send (.data (motor (motorOf a) s).stepPeriod .six) s)

/-- `j` GetPosition (R174). -/
def execGetPosition (a : Axis) (s : State) : Host.Outcome State Fault Refusal :=
  .next (send (.position (motor (motorOf a) s).position) s)

/-- `d` GetAxisPosition: as `j` (R175). -/
def execGetAxisPosition (a : Axis) (s : State) : Host.Outcome State Fault Refusal :=
  .next (send (.position (motor (motorOf a) s).position) s)

/-- `f` GetStatus (R176). -/
def execGetStatus (a : Axis) (s : State) : Host.Outcome State Fault Refusal :=
  .next (send (.status (statusNibble0 (motor (motorOf a) s)) (statusNibble1 (motor (motorOf a) s))
    (statusNibble2 s.cfg)) s)

/-- `g` GetHighSpeedRatio (R177). -/
def execGetHighSpeedRatio (_ : Axis) (s : State) : Host.Outcome State Fault Refusal :=
  .next (send (.data s.cfg.highSpeedRatio .two) s)

/-- `D` GetSiderealPeriod (R178). -/
def execGetSiderealPeriod (_ : Axis) (s : State) : Host.Outcome State Fault Refusal :=
  .next (send (.data s.cfg.siderealPeriod .six) s)

/-- `e` GetVersion (R179). -/
def execGetVersion (_ : Axis) (s : State) : Host.Outcome State Fault Refusal :=
  .next (send (.version s.cfg.version.1 s.cfg.version.2.1 s.cfg.version.2.2.1 s.cfg.version.2.2.2) s)

/-- `s` GetPECPeriod: the constant 0 (R180). -/
def execGetPECPeriod (_ : Axis) (s : State) : Host.Outcome State Fault Refusal :=
  .next (send (.data 0 .six) s)

/-- `q` GetExtendedStatus (R181). -/
def execGetExtendedStatus (_ : Axis) (s : State) : Host.Outcome State Fault Refusal :=
  .next (send (.extendedStatus s.cfg.extStatus.1 s.cfg.extStatus.2.1 s.cfg.extStatus.2.2) s)

end Sys2Proof.Machine
end

