-- ==== Sys2Proof/Machine/Arith.lean ====
section
/-! DEFINITION. The arithmetic FP of the ramp and the conversions to integers (spec 45_step_generator.md R201, R9;
log 5). -/

namespace Sys2Proof.Machine

/-- `n / d` rounded to the nearest natural number, a tie to the even one. -/
def halfEven (n d : Nat) : Nat :=
  if 2 * (n % d) < d then n / d
  else if d < 2 * (n % d) then n / d + 1
  else if n / d % 2 = 0 then n / d
  else n / d + 1

/-- `n / d` times `2^k`, `k` of either sign, as a numerator and a denominator. -/
def scaleBy (n d : Nat) (k : Int) : Nat × Nat :=
  if 0 ≤ k then (n * 2 ^ k.toNat, d) else (n, d * 2 ^ (-k).toNat)

/-- The exponent `e` with `2^e ≤ n / d < 2^(e+1)`, for positive `n` and `d`. -/
def ilog2 (n d : Nat) : Int :=
  let e : Int := (Nat.log2 n : Int) - (Nat.log2 d : Int)
  let lhs := scaleBy d 1 e
  if lhs.1 ≤ n * lhs.2 then e else e - 1

/-- The magnitude `n / d` rounded to `p` significant bits, ties to even, as a numerator and a denominator. -/
def roundMagnitude (p n d : Nat) : Nat × Nat :=
  let k : Int := ilog2 n d - (p : Int) + 1
  let scaled := scaleBy n d (-k)
  scaleBy (halfEven scaled.1 scaled.2) 1 k

/-- A rational rounded to `p` significant bits, ties to even (PRESUMED, IEEE 754 with an unbounded exponent, log 5). -/
def roundBinary (p : Nat) (q : Rat) : Rat :=
  if q.num = 0 then 0
  else
    let r := roundMagnitude p q.num.natAbs q.den
    mkRat (q.num.sign * r.1) r.2

/-- The value of the format that stands for a rational (R201): itself in the reference format. -/
def fpRound (f : FpFormat) (q : Rat) : Rat :=
  match f with
  | .exact => q
  | .binary p => roundBinary p q

/-- A rational constant of R7 (`ACCEL`, `C0`, `CMIN`) as a value of FP: rounded once, like the result of an operation.
R201 names `ofInt` only; that the constants enter a binary format rounded is the model's DESIGN CHOICE (log 24). -/
def fpOfRat (f : FpFormat) (q : Rat) : Rat := fpRound f q

/-- `FP.ofInt` (R201). -/
def fpOfInt (f : FpFormat) (i : Int) : Rat := fpRound f (i : Rat)
/-- `FP.sub` (R201). -/
def fpSub (f : FpFormat) (a b : Rat) : Rat := fpRound f (a - b)
/-- `FP.mul` (R201). -/
def fpMul (f : FpFormat) (a b : Rat) : Rat := fpRound f (a * b)
/-- `FP.div` (R201). -/
def fpDiv (f : FpFormat) (a b : Rat) : Rat := fpRound f (a / b)

/-- `trunc(q)`, toward zero (R9). -/
def truncRat (q : Rat) : Int := q.num.tdiv q.den

/-- `floor(q)`, toward minus infinity (R9). -/
def floorRat (q : Rat) : Int := q.num.fdiv q.den

end Sys2Proof.Machine
end

