-- ==== Sys2Proof/Machine/StepGenerator.lean ====
section
/-! DEFINITION. The step generator and its trapezoidal ramp (spec 45_step_generator.md). -/

namespace Sys2Proof.Machine

/-- `clampedDistanceToGo(g)` (R202). -/
def clampedDistanceToGo (c : Config) (g : StepGen) : Int :=
  if c.genPosInf ≤ g.target then c.distInf
  else if g.target ≤ c.genNegInf then -c.distInf
  else g.target - g.position

/-- `stepsToStop(g)`: `speed^2 / (2 ACCEL)` truncated (R203, D11); `ACCEL` as a value of FP (DESIGN CHOICE, log 24). -/
def stepsToStop (c : Config) (g : StepGen) : Nat :=
  (truncRat (fpDiv c.fp (fpMul c.fp g.speed g.speed)
    (fpMul c.fp (fpOfInt c.fp 2) (fpOfRat c.fp c.accel)))).toNat

/-- Step 3 of computeNewSpeed: the generator stops (R206). -/
def rampStop (g : StepGen) : StepGen := { g with speed := 0, pps := 0, n := 0 }

/-- Step 4 of computeNewSpeed: the ramp counter after the phase decision, from the distance `d` and the stopping
distance `sts` (R206; the comparisons are D12, G1, log 18). -/
def rampPhase (d : Int) (sts : Nat) (g : StepGen) : Int :=
  if 0 < d then
    if 0 < g.n then (if d ≤ sts ∨ g.dir = .neg then -(sts : Int) else g.n)
    else if g.n < 0 then (if (sts : Int) < d ∧ g.dir = .pos then -g.n else g.n)
    else g.n
  else if d < 0 then
    if 0 < g.n then (if -d ≤ sts ∨ g.dir = .pos then -(sts : Int) else g.n)
    else if g.n < 0 then (if (sts : Int) < -d ∧ g.dir = .neg then -g.n else g.n)
    else g.n
  else g.n

/-- Step 5: the start of a ramp (R207); `C0` as a value of FP (DESIGN CHOICE, log 24). -/
def rampStart (c : Config) (d : Int) (ax : AxisMotor) : AxisMotor :=
  let dir : StepDir := if 0 < d then .pos else .neg
  { ax with dirPin := dirLevel c dir, g := { ax.g with cn := fpOfRat c.fp c.c0, dir := dir } }

/-- The recurrence of step 6 before its clamp: `cn - (2 cn) / (4 n + 1)` (R208). -/
def nextInterval (f : FpFormat) (cn : Rat) (n : Int) : Rat :=
  fpSub f cn (fpDiv f (fpMul f (fpOfInt f 2) cn) (fpOfInt f (4 * n + 1)))

/-- Step 6: the recurrence, clamped to `CMIN` (R208); `CMIN` as a value of FP (DESIGN CHOICE, log 24). -/
def rampRecur (c : Config) (g : StepGen) : StepGen :=
  let cn := nextInterval c.fp g.cn g.n
  let least := fpOfRat c.fp c.cmin
  { g with cn := if cn < least then least else cn }

/-- The signed speed of an interval (R209). -/
def speedOf (f : FpFormat) (dir : StepDir) (cn : Rat) : Rat :=
  (dirValue dir : Rat) * fpDiv f (fpOfInt f 1000000) cn

/-- The pulses-per-step of an interval: whole ticks, at least one (R209, D13). -/
def ppsOf (c : Config) (cn : Rat) : Nat :=
  max 1 (floorRat (fpDiv c.fp cn (fpOfInt c.fp c.tickUs))).toNat

/-- Step 7 (R209). -/
def rampFinish (c : Config) (g : StepGen) : StepGen :=
  { g with n := g.n + 1, speed := speedOf c.fp g.dir g.cn, pps := ppsOf c g.cn }

/-- Steps 5 and 6: the start of a ramp when the counter is 0, the recurrence when it is not (R207, R208). -/
def rampInterval (c : Config) (d : Int) (ax : AxisMotor) : AxisMotor :=
  if ax.g.n = 0 then rampStart c d ax else { ax with g := rampRecur c ax.g }

/-- Steps 4 to 7 for a generator that does not stop (R206 to R209). -/
def rampAdvance (c : Config) (d : Int) (sts : Nat) (ax : AxisMotor) : AxisMotor :=
  let timed := rampInterval c d { ax with g := { ax.g with n := rampPhase d sts ax.g } }
  { timed with g := rampFinish c timed.g }

/-- `computeNewSpeed(g)` of an axis's generator (R206 to R209). -/
def computeNewSpeed (c : Config) (ax : AxisMotor) : AxisMotor :=
  let d := clampedDistanceToGo c ax.g
  let sts := stepsToStop c ax.g
  if d = 0 ∧ sts ≤ 1 then { ax with g := rampStop ax.g } else rampAdvance c d sts ax

/-- `setTargetPosition(g, t)` (R205). -/
def setTargetPosition (c : Config) (t : Int) (ax : AxisMotor) : AxisMotor :=
  if t ≠ ax.g.target then computeNewSpeed c { ax with g := { ax.g with target := t } } else ax

/-- `emit_step`: one pulse on `step_pin`, which is low again afterwards (R10, R31, R210, log 13). -/
def emitStep (ax : AxisMotor) : AxisMotor := { ax with stepPin := false, pulses := ax.pulses + 1 }

/-- `run(g)`: one physical step (R210, conflict C3). -/
def run (ax : AxisMotor) : AxisMotor :=
  emitStep { ax with g := { ax.g with position := ax.g.position + dirValue ax.g.dir } }

/-- `resetZero(g)` (R211, D20, G6). -/
def resetZero (g : StepGen) : StepGen := { g with position := 0, target := 0, speed := 0, n := 0, pps := 0 }

end Sys2Proof.Machine
end

