-- ==== Sys2Proof/Machine/AxisMotor.lean ====
section
/-! DEFINITION. The axis motor: starting and stopping a motion, the fast tick, the long tick and microstep selection
(spec 46_axis_motor.md). -/

namespace Sys2Proof.Machine

/-- The raw steps of a GOTO before the division by the ratio: the four wrap cases (R234, D19). -/
def gotoDistance (c : Config) (ax : AxisMotor) : Int :=
  let diff := ax.target - ax.position
  match slewSign ax.slewDir with
  | .pos => if 0 ≤ diff then diff else diff + c.rev
  | .neg => if diff ≤ 0 then diff else diff - c.rev

/-- The generator target of a GOTO; in FAST divided by `K_FAST`, toward zero (R234, D19). -/
def gotoSteps (c : Config) (ax : AxisMotor) : Int :=
  if ax.slewSpeed = .fast then (gotoDistance c ax).tdiv c.kFast else gotoDistance c ax

/-- `setMotion(ax, true)` (R233, R234, D21, log 22). -/
def startMotor (c : Config) (ax : AxisMotor) : AxisMotor :=
  let ax0 := { ax with stopping := false, tickCount := 0 }
  if ax.slewType = .tracking then
    if ax.slewDir = .ccw then setTargetPosition c c.genNegInf { ax0 with target := axisNinf, moving := true }
    else setTargetPosition c c.genPosInf { ax0 with target := axisInf, moving := true }
  else setTargetPosition c (gotoSteps c ax) { ax0 with g := resetZero ax.g, moving := true }

/-- `setMotion(ax, false)` (R236, D22). -/
def stopMotor (c : Config) (ax : AxisMotor) : AxisMotor :=
  setTargetPosition c (ax.g.position + dirValue ax.g.dir * stepsToStop c ax.g) { ax with stopping := true }

/-- `wrap(p)` (R242). -/
def wrapPosition (c : Config) (p : Int) : Int :=
  if (c.startPos : Int) + (c.rev : Int) / 2 ≤ p then p - c.rev
  else if p < (c.startPos : Int) - (c.rev : Int) / 2 then p + c.rev
  else p

/-- The divider period of a tick: the generator's with acceleration, the fixed one without (R240). -/
def tickPeriod (ax : AxisMotor) : Nat := if useAccel ax then ax.g.pps else ax.stepPeriod

/-- The part of a tick that takes a step: one pulse, the ramp if acceleration is in use, and the reference position in
the direction of this pulse (R240, D33). -/
def tickStep (c : Config) (ax : AxisMotor) : AxisMotor :=
  let stepped := run { ax with tickCount := 0 }
  let ramped := if useAccel ax then computeNewSpeed c stepped else stepped
  { ramped with position := wrapPosition c (ax.position + dirValue ax.g.dir * ratio c ax) }

/-- A tick takes a step: the axis moves and the divider has reached a period other than 0 (R240, D14, log 19). -/
def tickSteps (ax : AxisMotor) : Bool :=
  ax.moving && decide (0 < tickPeriod ax) && decide (tickPeriod ax ≤ ax.tickCount + 1)

/-- `tick(ax)` (R240, D14, log 19). -/
def tickMotor (c : Config) (ax : AxisMotor) : AxisMotor :=
  if tickSteps ax = true then tickStep c ax
  else if ax.moving = true then { ax with tickCount := ax.tickCount + 1 }
  else ax

/-- A generator position strictly between the sentinels: the premise of R32 and R307 (U6, log 9). -/
def positionInRange (c : Config) (p : Int) : Bool := decide (c.genNegInf < p) && decide (p < c.genPosInf)

/-- The condition under which `longTick` ends the motion (R245, D23). -/
def motionEnds (ax : AxisMotor) : Bool := (ax.stopping && !useAccel ax) || !isRunning ax.g

/-- `longTick(ax)` (R245). -/
def longTickMotor (ax : AxisMotor) : AxisMotor :=
  if motionEnds ax then { ax with moving := false, stopping := false, g := resetZero ax.g } else ax

/-- `set_ms(ax, m)` (R250). -/
def setMs (c : Config) (m : Nat) (ax : AxisMotor) : AxisMotor := { ax with msPin := ustepLevels c.ustepPattern m }

end Sys2Proof.Machine
end

