-- ==== Sys2Proof/Machine/SetCommands.lean ====
section
/-! DEFINITION. The meanings of the set commands E F G S H M I O P V (spec 41_set_commands.md). -/

namespace Sys2Proof.Machine

/-- A command of a motor that is gated by "motor not moving": MOTOR_NOT_STOPPED and no effect while it moves, else the
effect and the Empty reply (R151, R263). -/
def whenStopped (a : Axis) (effect : AxisMotor → AxisMotor) (s : State) : State :=
  if (motor (motorOf a) s).moving = true then replyError .motorNotStopped s
  else send .empty (setMotor (motorOf a) (effect (motor (motorOf a) s)) s)

/-- `E` SetPosition (R140). -/
def execSetPosition (a : Axis) (v : Nat) (s : State) : Host.Outcome State Fault Refusal :=
  .next (whenStopped a (fun ax => { ax with position := v }) s)

/-- `F` InitializationDone: a no-op (R141). -/
def execInitializationDone (_ : Axis) (s : State) : Host.Outcome State Fault Refusal := .next (send .empty s)

/-- The microstep count of a slew speed (R142). -/
def ustepOf (c : Config) (speed : SlewSpeed) : Nat := if speed = .fast then c.ustepFast else c.ustepSlow

/-- `G` SetMotionMode (R142). -/
def execSetMotionMode (a : Axis) (type : SlewType) (speed : SlewSpeed) (dir : SlewDir) (s : State) :
    Host.Outcome State Fault Refusal :=
  .next (whenStopped a
    (fun ax => setMs s.cfg (ustepOf s.cfg speed) { ax with slewType := type, slewSpeed := speed, slewDir := dir }) s)

/-- `S` SetGotoTarget (R143). -/
def execSetGotoTarget (a : Axis) (v : Nat) (s : State) : Host.Outcome State Fault Refusal :=
  .next (whenStopped a (fun ax => { ax with target := v }) s)

/-- `H` SetGotoTargetIncrement: CCW subtracts, CW and NONE add, unreduced (R144, D31, D32). -/
def execSetGotoTargetIncrement (a : Axis) (v : Nat) (s : State) : Host.Outcome State Fault Refusal :=
  .next (whenStopped a (fun ax => { ax with target := ax.position + dirValue (slewSign ax.slewDir) * v }) s)

/-- `M` SetBreakpointIncrement: a no-op (R145). -/
def execSetBreakpointIncrement (_ : Axis) (_ : Nat) (s : State) : Host.Outcome State Fault Refusal :=
  .next (send .empty s)

/-- `I` SetStepPeriod: no precondition (R146). -/
def execSetStepPeriod (a : Axis) (v : Nat) (s : State) : Host.Outcome State Fault Refusal :=
  .next (send .empty (setMotor (motorOf a) { motor (motorOf a) s with stepPeriod := v } s))

/-- `O` SetSwitch: a no-op (R147). -/
def execSetSwitch (_ : Axis) (_ : Nat) (s : State) : Host.Outcome State Fault Refusal := .next (send .empty s)

/-- `P` SetAutoguideSpeed: a no-op (R148). -/
def execSetAutoguideSpeed (_ : Axis) (_ : Nat) (s : State) : Host.Outcome State Fault Refusal := .next (send .empty s)

/-- `V` SetPolarLEDBrightness: the register and the port (R150). -/
def execSetPolarLEDBrightness (_ : Axis) (b : Nat) (s : State) : Host.Outcome State Fault Refusal :=
  .next (send .empty { s with led := BitVec.ofNat 8 b, ledPort := some (BitVec.ofNat 8 b) })

end Sys2Proof.Machine
end

