-- ==== Sys2Proof/Machine/MotionCommands.lean ====
section
/-! DEFINITION. The meanings of the motion commands J K L (spec 42_motion_commands.md). -/

namespace Sys2Proof.Machine

/-- `J` StartMotion: NOT_INITIALIZED before MOTOR_NOT_STOPPED (R160, D38). -/
def execStartMotion (a : Axis) (s : State) : Host.Outcome State Fault Refusal :=
  .next (if (motor (motorOf a) s).slewSpeed = .unset then replyError .notInitialized s
    else whenStopped a (startMotor s.cfg) s)

/-- `K` StopMotion: a graceful stop if moving; always the Empty reply (R161). -/
def execStopMotion (a : Axis) (s : State) : Host.Outcome State Fault Refusal :=
  .next (send .empty
    (if (motor (motorOf a) s).moving = true then
      setMotor (motorOf a) (stopMotor s.cfg (motor (motorOf a) s)) s else s))

/-- `L` InstantStop: replies and stops nothing (R162, R304). -/
def execInstantStop (_ : Axis) (s : State) : Host.Outcome State Fault Refusal := .next (send .empty s)

end Sys2Proof.Machine
end

