-- ==== Sys2Proof/Machine/Dispatch.lean ====
section
/-! DEFINITION. The dispatch table: one meaning per command (spec 40_framer.md R121, rules R140 to R181). -/

namespace Sys2Proof.Machine

def exec (i : Instr) (s : State) : Host.Outcome State Fault Refusal :=
  match i with
  | .setPosition a v => Sys2Proof.Machine.execSetPosition a v s
  | .initializationDone a => Sys2Proof.Machine.execInitializationDone a s
  | .setMotionMode a t sp d => Sys2Proof.Machine.execSetMotionMode a t sp d s
  | .setGotoTarget a v => Sys2Proof.Machine.execSetGotoTarget a v s
  | .setGotoTargetIncrement a v => Sys2Proof.Machine.execSetGotoTargetIncrement a v s
  | .setBreakpointIncrement a v => Sys2Proof.Machine.execSetBreakpointIncrement a v s
  | .setStepPeriod a v => Sys2Proof.Machine.execSetStepPeriod a v s
  | .startMotion a => Sys2Proof.Machine.execStartMotion a s
  | .stopMotion a => Sys2Proof.Machine.execStopMotion a s
  | .instantStop a => Sys2Proof.Machine.execInstantStop a s
  | .setSwitch a d => Sys2Proof.Machine.execSetSwitch a d s
  | .setAutoguideSpeed a d => Sys2Proof.Machine.execSetAutoguideSpeed a d s
  | .setPolarLEDBrightness a b => Sys2Proof.Machine.execSetPolarLEDBrightness a b s
  | .getCountsPerRev a => Sys2Proof.Machine.execGetCountsPerRev a s
  | .getTimerFreq a => Sys2Proof.Machine.execGetTimerFreq a s
  | .getGotoTarget a => Sys2Proof.Machine.execGetGotoTarget a s
  | .getStepPeriod a => Sys2Proof.Machine.execGetStepPeriod a s
  | .getPosition a => Sys2Proof.Machine.execGetPosition a s
  | .getStatus a => Sys2Proof.Machine.execGetStatus a s
  | .getHighSpeedRatio a => Sys2Proof.Machine.execGetHighSpeedRatio a s
  | .getSiderealPeriod a => Sys2Proof.Machine.execGetSiderealPeriod a s
  | .getAxisPosition a => Sys2Proof.Machine.execGetAxisPosition a s
  | .getVersion a => Sys2Proof.Machine.execGetVersion a s
  | .getPECPeriod a => Sys2Proof.Machine.execGetPECPeriod a s
  | .getExtendedStatus a => Sys2Proof.Machine.execGetExtendedStatus a s

end Sys2Proof.Machine
end

