-- ==== Sys2Proof/Machine/Framer.lean ====
section
/-! DEFINITION. The receive framer: what one byte on rx does (spec 40_framer.md R120 to R122). -/

namespace Sys2Proof.Machine

/-- `h.rx_len <- 0` (R120, R121): the frame is consumed; the bytes stay in the array. -/
def clearFrame (s : State) : State := { s with rxLen := 0 }

/-- `h.rx_len <- 0` after a command; a stop of the command stops the event. -/
def clearAfter : Host.Outcome State Fault Refusal → Host.Outcome State Fault Refusal
  | .next t => .next (clearFrame t)
  | .fault r => .fault r
  | .refused r => .refused r

/-- `finalize()` and the clearing after it: a frame that decodes is executed, any other is dropped with no reply (R121,
R97, R262). -/
def finalize (s : State) : Host.Outcome State Fault Refusal :=
  match decode s.cfg (heldFrame s) with
  | .ok i => clearAfter (exec i s)
  | .error _ => .next (clearFrame s)

/-- `rxByte(b)` (R120): the timestamp, then the three branches in order. -/
def rxByte (b : Byte) (s : State) : Host.Outcome State Fault Refusal :=
  let s1 := { s with lastRxMs := s.nowMs }
  if b = chColon then .next (rxAppend chColon (clearFrame s1))
  else if b = chCR ∧ 2 < s1.rxLen then finalize s1
  else .next (rxAppend b s1)

end Sys2Proof.Machine
end

