-- ==== Sys2Proof/Machine/Events.lean ====
section
/-! DEFINITION. The other events of SSC and the driver loop's calls as lists of events (spec 00_scope.md R6,
60_exceptions.md R270 to R272, 70_reset_and_hazards.md R290). -/

namespace Sys2Proof.Machine

/-- The watchdog's condition, strict (R270). -/
def lineSilent (s : State) : Bool := decide (((s.nowMs : Int) - (s.lastRxMs : Int)) > (s.cfg.serialTimeoutMs : Int))

/-- `pollTimeout()`: both motors are stopped when the line has been silent too long (R270, D24, log 23). -/
def pollTimeout (s : State) : State :=
  if lineSilent s then { s with ra := stopMotor s.cfg s.ra, dec := stopMotor s.cfg s.dec } else s

/-- `longTick(a)` (R245). -/
def longTick (a : MotorId) (s : State) : State := setMotor a (longTickMotor (motor a s)) s

/-- `tick(a)` (R240). A step that would take the generator's position to a sentinel is refused: the spec requires the
position between them and gives no behaviour beyond (R307, U6, log 9). -/
def tick (a : MotorId) (s : State) : Host.Outcome State Fault Refusal :=
  if tickSteps (motor a s) = true ∧
      positionInRange s.cfg ((motor a s).g.position + dirValue (motor a s).g.dir) = false then
    .refused .positionRange
  else .next (setMotor a (tickMotor s.cfg (motor a s)) s)

/-- `reset`: every register at its reset value; the configuration, the time and the events to come stay (R39, R290,
log 17). -/
def powerOnReset (s : State) : State := State.powerOn s.cfg s.nowMs s.inputs

/-- What one event does (R6). -/
def runEvent (e : Event) (s : State) : Host.Outcome State Fault Refusal :=
  match e with
  | .rxByte b => rxByte b s
  | .pollTimeout => .next (pollTimeout s)
  | .longTick a => .next (longTick a s)
  | .tick a => tick a s
  | .reset => .next (powerOnReset s)

/-- The arrival of the next event: time passes and the event leaves the list (R5, log 2). -/
def arrive (a : Arrival) (rest : List Arrival) (s : State) : State :=
  { s with inputs := rest, nowMs := s.nowMs + a.elapsedMs }

/-- `processSerial` as events: the bytes available, in order, then the watchdog (R122). -/
def processSerial (bytes : List Byte) : List Event := bytes.map Event.rxByte ++ [.pollTimeout]

/-- One expiry of the fast timer as events: RA then DEC (R271, D39). -/
def timerExpiry : List Event := [.tick .ra, .tick .dec]

/-- One housekeeping call as events (R272). -/
def housekeeping : List Event := [.longTick .ra, .longTick .dec]

/-- Events that all happen with no time between them. -/
def atOnce (es : List Event) : List Arrival := es.map fun e => ⟨0, e⟩

end Sys2Proof.Machine
end

