-- ==== Sys2Proof/Machine/Step.lean ====
section
/-! DEFINITION. One step of SSC: the next pending event, whole (spec 20_memory.md R67). -/

namespace Sys2Proof.Machine

/-- One step: the first pending event happens (R6, R67). With no event pending SSC waits and nothing changes (R290,
log 4). A configuration that breaks R7 is refused (U27, log 8). -/
def step (s : State) : Host.Outcome State Fault Refusal :=
  if configOk s.cfg = true then
    match s.inputs with
    | [] => .next s
    | a :: rest => runEvent a.event (arrive a rest s)
  else .refused .badConfig

/-- The state in which the frame of an opcode-table word is held and its `\r` is the next event (log 10). -/
def State.withFetchWord (s : State) (nbits w : Nat) : State := holdFrame (tableFrame s.cfg nbits w) s

end Sys2Proof.Machine
end

