-- ==== Sys2Proof/Safety.lean ====
section
/-! DEFINITION. The invariants of SSC that the spec states or implies, in the terms the claims use. -/

namespace Sys2Proof.Machine

/-- The bytes SSC can put on `tx` (R197). -/
def replyAlphabet : List Byte :=
  [chEquals, chBang, chCR] ++ [0x30#8, 0x31#8, 0x32#8, 0x33#8, 0x34#8, 0x35#8, 0x36#8, 0x37#8, 0x38#8, 0x39#8] ++
  [0x41#8, 0x42#8, 0x43#8, 0x44#8, 0x45#8, 0x46#8]

/-- The lower end of the wrap window, `START_POS - REV/2` (R25). -/
def windowLow (c : Config) : Int := (c.startPos : Int) - (c.rev : Int) / 2

/-- The upper end of the wrap window, excluded, `START_POS + REV/2` (R25). -/
def windowHigh (c : Config) : Int := (c.startPos : Int) + (c.rev : Int) / 2

/-- The reference position lies in the wrap window (R25). -/
def InWindow (c : Config) (p : Int) : Prop := windowLow c ≤ p ∧ p < windowHigh c

/-- What holds of one axis between events. -/
structure AxisInv (c : Config) (ax : AxisMotor) : Prop where
  /-- the direction pin shows the generator's direction (R207, R39) -/
  dirPin_level : ax.dirPin = dirLevel c ax.g.dir
  /-- `step_pin` is low between events (R31) -/
  stepPin_low : ax.stepPin = false
  /-- the mode-select pins show the count of the slew speed (R142, R250, R39) -/
  msPin_speed : ax.msPin = ustepLevels c.ustepPattern (ustepOf c ax.slewSpeed)
  /-- the sign of the speed is the generator's direction (R34) -/
  speed_sign : (0 < ax.g.speed → ax.g.dir = .pos) ∧ (ax.g.speed < 0 → ax.g.dir = .neg)
  /-- no speed is no pulses, and nothing of a ramp is left (R206, R211) -/
  speed_zero : ax.g.speed = 0 → ax.g.pps = 0 ∧ ax.g.n = 0
  /-- a speed has a pulse period and an interval of at least `CMIN`, as a value of FP (R208, R209, log 24) -/
  speed_nonzero : ax.g.speed ≠ 0 → 0 < ax.g.pps ∧ fpOfRat c.fp c.cmin ≤ ax.g.cn
  /-- the speed and the interval are values of FP (R34, R201) -/
  fp_values : fpRound c.fp ax.g.speed = ax.g.speed ∧ fpRound c.fp ax.g.cn = ax.g.cn
  /-- the generator's position lies strictly between the sentinels (R32, R307) -/
  position_range : c.genNegInf < ax.g.position ∧ ax.g.position < c.genPosInf
  /-- the three mode registers are NONE together (R28) -/
  mode_together : (ax.slewType = .unset ↔ ax.slewSpeed = .unset) ∧ (ax.slewDir = .unset ↔ ax.slewSpeed = .unset)
  /-- a moving axis has its mode set (R27) -/
  moving_mode : ax.moving = true → ax.slewSpeed ≠ .unset
  /-- an axis that is not moving has its generator at zero and idle (R233) -/
  still_idle : ax.moving = false → ax.g.position = 0 ∧ ax.g.target = 0 ∧ ax.g.speed = 0
  /-- the step period is a 24-bit number (R29) -/
  stepPeriod_bound : ax.stepPeriod < 2 ^ 24

/-- What holds of the whole machine between events. -/
structure Inv (s : State) : Prop where
  /-- the configuration meets R7 -/
  cfg_ok : configOk s.cfg = true
  /-- the buffer is in its canonical form (log 7) -/
  buf_wf : Memory.wf s.rxBuf
  /-- the buffer holds nothing at or beyond its capacity (R20) -/
  buf_cap : ∀ p ∈ s.rxBuf, p.1 < s.cfg.rxBufCap
  /-- `rx_len` is at most the capacity (R21) -/
  len_cap : s.rxLen ≤ s.cfg.rxBufCap
  /-- the timestamp is not in the future (R22, D41) -/
  last_past : s.lastRxMs ≤ s.nowMs
  /-- the LED port, once driven, shows `h.led` (R24, R150) -/
  led_port : s.ledPort = none ∨ s.ledPort = some s.led
  /-- every byte sent is of the reply alphabet (R197) -/
  tx_alphabet : ∀ b ∈ s.tx, b ∈ replyAlphabet
  /-- the RA axis -/
  ra_ok : AxisInv s.cfg s.ra
  /-- the DEC axis -/
  dec_ok : AxisInv s.cfg s.dec

/-- A step that goes on: no fault and no refusal. -/
def GoesOn (o : Host.Outcome State Fault Refusal) : Prop := ∃ t, o = .next t

end Sys2Proof.Machine
end

