-- ==== Sys2Proof/Certificates/Slice0/Obligations.lean ====
section
/-! DEFINITION. The statements about the model, each from a rule of the spec or derived from its sections.
`motor (motorOf a) s` is the motor the axis operand selects (its rule is `AxisByteRoutes`), `=\r` is written as the bytes
0x3D 0x0D and `!2\r`, `!4\r` as 0x21, the digit, 0x0D. An equation that gives the whole next state is at once the result
and the frame: every register, output and byte of memory it does not name is unchanged. -/

open Sys2Proof Sys2Proof.Machine

/-! ## Codec and encodings -/

/-- R87: the round trip of the hex codec, for every width and either value of `HEX_LOWERCASE`. -/
def Obligations.HexRoundTrip : Prop :=
  ∀ (lower : Bool) (w : HexWidth) (v : Nat), v < 16 ^ w.len →
    decodeHex lower (encodeHex v w) w.len = v

/-- R86, R64 (digit order and reduction are the spec's decisions D1 and D3, log 11): for every integer, byte `k` of the
reduced value is at digits `2k` and `2k+1`, high nibble first. -/
def Obligations.EncodedDigitOrder : Prop :=
  ∀ (v : Int) (w : HexWidth),
    (encodeHex v w).length = w.len ∧
    ∀ k, 2 * k < w.len →
      (encodeHex v w)[2 * k]? = some (hexdigit ((v % 16 ^ w.len).toNat / 256 ^ k % 256 / 16)) ∧
      (encodeHex v w)[2 * k + 1]? = some (hexdigit ((v % 16 ^ w.len).toNat / 256 ^ k % 256 % 16))

/-- R65 (derived there from R64) and R83: the first, second and third digit pairs of a 6-digit field are the low, middle
and high bytes of its value, a pair is its high nibble and its low one, and what each byte reads as, a byte that is no
digit as 0 (the set of digits is the spec's decision D2, log 12). -/
def Obligations.FieldPairsAreBytes : Prop :=
  ∀ (lower : Bool) (s : List Byte),
    (decodeHex lower s 6 % 256 = decodeHex lower s 2 ∧
      decodeHex lower s 6 / 256 % 256 = decodeHex lower (s.drop 2) 2 ∧
      decodeHex lower s 6 / 65536 = decodeHex lower (s.drop 4) 2) ∧
    decodeHex lower s 2 = 16 * hexDigitToValue lower (s.getD 0 0) + hexDigitToValue lower (s.getD 1 0) ∧
    ∀ b : Byte,
      (0x30 ≤ b.toNat → b.toNat ≤ 0x39 → hexDigitToValue lower b = b.toNat - 0x30) ∧
      (0x41 ≤ b.toNat → b.toNat ≤ 0x46 → hexDigitToValue lower b = b.toNat - 0x41 + 10) ∧
      (0x61 ≤ b.toNat → b.toNat ≤ 0x66 → hexDigitToValue lower b = if lower = true then b.toNat - 0x61 + 10 else 0) ∧
      (b.toNat < 0x30 ∨ (0x39 < b.toNat ∧ b.toNat < 0x41) ∨ (0x46 < b.toNat ∧ b.toNat < 0x61) ∨ 0x66 < b.toNat →
        hexDigitToValue lower b = 0)

/-- Decode and encode agree on every well-formed command, under every admitted configuration (30_encoding.md,
40_framer.md section 3; the encoder's free choices are log 15). -/
def Obligations.DecodeOfEncode : Prop :=
  ∀ (c : Config) (i : Instr), configOk c = true → i.wf = true →
    decode c (encode c i) = .ok i ∧ (encode c i).length = requiredLen c i.opcode

/-- One frame of each opcode of R92, written out from 95_test_vectors.md sections 4 to 6 and 10,
decodes to the command it stands for. -/
def Obligations.WrittenFramesDecode : Prop :=
  decode Config.tc [0x3A#8, 0x45#8, 0x31#8, 0x30#8, 0x30#8, 0x30#8, 0x30#8, 0x38#8, 0x30#8]
    = .ok (.setPosition .ra 0x800000) ∧
  decode Config.tc [0x3A#8, 0x46#8, 0x33#8] = .ok (.initializationDone .both) ∧
  decode Config.tc [0x3A#8, 0x47#8, 0x32#8, 0x33#8, 0x30#8] = .ok (.setMotionMode .dec .tracking .fast .cw) ∧
  decode Config.tc [0x3A#8, 0x53#8, 0x31#8, 0x46#8, 0x45#8, 0x46#8, 0x46#8, 0x39#8, 0x46#8]
    = .ok (.setGotoTarget .ra 0x9FFFFE) ∧
  decode Config.tc [0x3A#8, 0x48#8, 0x31#8, 0x35#8, 0x30#8, 0x30#8, 0x30#8, 0x30#8, 0x30#8]
    = .ok (.setGotoTargetIncrement .ra 0x50) ∧
  decode Config.tc [0x3A#8, 0x4D#8, 0x31#8, 0x30#8, 0x30#8, 0x30#8, 0x30#8, 0x30#8, 0x30#8]
    = .ok (.setBreakpointIncrement .ra 0) ∧
  decode Config.tc [0x3A#8, 0x49#8, 0x31#8, 0x30#8, 0x33#8, 0x30#8, 0x30#8, 0x30#8, 0x30#8]
    = .ok (.setStepPeriod .ra 3) ∧
  decode Config.tc [0x3A#8, 0x4A#8, 0x31#8] = .ok (.startMotion .ra) ∧
  decode Config.tc [0x3A#8, 0x4B#8, 0x31#8] = .ok (.stopMotion .ra) ∧
  decode Config.tc [0x3A#8, 0x4C#8, 0x31#8] = .ok (.instantStop .ra) ∧
  decode Config.tc [0x3A#8, 0x4F#8, 0x31#8, 0x31#8] = .ok (.setSwitch .ra 1) ∧
  decode Config.tc [0x3A#8, 0x50#8, 0x31#8, 0x32#8] = .ok (.setAutoguideSpeed .ra 2) ∧
  decode Config.tc [0x3A#8, 0x56#8, 0x32#8, 0x46#8, 0x46#8] = .ok (.setPolarLEDBrightness .dec 255) ∧
  decode Config.tc [0x3A#8, 0x61#8, 0x33#8] = .ok (.getCountsPerRev .both) ∧
  decode Config.tc [0x3A#8, 0x62#8, 0x39#8] = .ok (.getTimerFreq .none) ∧
  decode Config.tc [0x3A#8, 0x68#8, 0x31#8] = .ok (.getGotoTarget .ra) ∧
  decode Config.tc [0x3A#8, 0x69#8, 0x31#8] = .ok (.getStepPeriod .ra) ∧
  decode Config.tc [0x3A#8, 0x6A#8, 0x31#8] = .ok (.getPosition .ra) ∧
  decode Config.tc [0x3A#8, 0x66#8, 0x31#8] = .ok (.getStatus .ra) ∧
  decode Config.tc [0x3A#8, 0x67#8, 0x31#8] = .ok (.getHighSpeedRatio .ra) ∧
  decode Config.tc [0x3A#8, 0x44#8, 0x31#8] = .ok (.getSiderealPeriod .ra) ∧
  decode Config.tc [0x3A#8, 0x64#8, 0x32#8] = .ok (.getAxisPosition .dec) ∧
  decode Config.tc [0x3A#8, 0x65#8, 0x31#8] = .ok (.getVersion .ra) ∧
  decode Config.tc [0x3A#8, 0x73#8, 0x31#8] = .ok (.getPECPeriod .ra) ∧
  decode Config.tc [0x3A#8, 0x71#8, 0x31#8] = .ok (.getExtendedStatus .ra)

/-- R123: the factory looks at index 1 only, answers the variant with that opcode byte, and nothing for fewer than two
bytes or a byte outside the table. -/
def Obligations.FactoryTotality : Prop :=
  ∀ buf : List Byte,
    (buf.length < 2 → identify buf = none) ∧
    (2 ≤ buf.length →
      (∃ op, identify buf = some op ∧ op.byte = buf.getD 1 0) ∨
      (identify buf = none ∧ ∀ op : Opcode, op.byte ≠ buf.getD 1 0))

/-- R124, R125, R126, R127 with R94 and R95: parse succeeds exactly on the required length, the start marker, the
variant's own opcode byte and an axis byte present (and, for `G`, a mode digit), takes the axis from index 2, and takes
every payload field from the bytes at index 3 on (the positions and widths are the spec's decisions D7, D8 and the
direction bit its decision D9, log 12). -/
def Obligations.ParseChecks : Prop :=
  ∀ (c : Config) (op : Opcode) (buf : List Byte),
    ((∃ i, parse c op buf = .ok i) ↔
      buf.length = requiredLen c op ∧ buf.getD 0 0 = chColon ∧ buf.getD 1 0 = op.byte ∧ 3 ≤ buf.length ∧
        (op = .setMotionMode → buf.getD 3 0 ∈ [0x30#8, 0x31#8, 0x32#8, 0x33#8])) ∧
    ∀ i, parse c op buf = .ok i →
      i.opcode = op ∧ i.axis = parseAxis (buf.getD 2 0) ∧
      (∀ a v, i ∈ [.setPosition a v, .setGotoTarget a v, .setGotoTargetIncrement a v, .setBreakpointIncrement a v,
          .setStepPeriod a v] → v = decodeHex c.hexLowercase (buf.drop 3) 6) ∧
      (∀ a v, i = .setPolarLEDBrightness a v → v = decodeHex c.hexLowercase (buf.drop 3) 2) ∧
      (∀ a v, i ∈ [.setSwitch a v, .setAutoguideSpeed a v] → v = hexDigitToValue c.hexLowercase (buf.getD 3 0)) ∧
      (∀ a t sp d, i = .setMotionMode a t sp d →
        (buf.getD 3 0, t, sp) ∈ [(0x30#8, .goto, .fast), (0x31#8, .tracking, .slow), (0x32#8, .goto, .slow),
          (0x33#8, .tracking, .fast)] ∧
        d = if hexDigitToValue c.hexLowercase (buf.getD 4 0) % 2 = 1 then .ccw else .cw)

/-- R125, R126, R127: whatever decodes is well formed. -/
def Obligations.DecodedIsWellFormed : Prop :=
  ∀ (c : Config) (buf : List Byte) (i : Instr), decode c buf = .ok i → i.wf = true

/-- R91: the axis byte, and the motor it routes to. -/
def Obligations.AxisByteRoutes : Prop :=
  parseAxis 0x31#8 = .ra ∧ parseAxis 0x32#8 = .dec ∧ parseAxis 0x33#8 = .both ∧
  (∀ b : Byte, b ≠ 0x31#8 → b ≠ 0x32#8 → b ≠ 0x33#8 → parseAxis b = .none) ∧
  (∀ a : Axis, motorOf a = if a = .dec then .dec else .ra) ∧
  (∀ s : State, motor .ra s = s.ra ∧ motor .dec s = s.dec)

/-! ## The framer and the step -/

/-- R61: RxAppend stores at index `rx_len` while there is room and drops the byte when there is none. -/
def Obligations.RxAppendStoresOrDrops : Prop :=
  ∀ (b : Byte) (s : State),
    (s.rxLen < s.cfg.rxBufCap →
      (rxAppend b s).rxLen = s.rxLen + 1 ∧ memRead (rxAppend b s).rxBuf s.rxLen = b ∧
      (∀ i, i ≠ s.rxLen → memRead (rxAppend b s).rxBuf i = memRead s.rxBuf i) ∧
      { rxAppend b s with rxBuf := s.rxBuf, rxLen := s.rxLen } = s) ∧
    (s.cfg.rxBufCap ≤ s.rxLen → rxAppend b s = s)

/-- R120 (what is stored of `':'` and `\r` is the spec's decisions D4 and D5): the three branches of a byte that does
not end a frame, and the timestamp. -/
def Obligations.RxByteStores : Prop :=
  ∀ (b : Byte) (s : State), configOk s.cfg = true →
    (b = 0x3A#8 →
      ∃ t, rxByte b s = .next t ∧ t.rxLen = 1 ∧ memRead t.rxBuf 0 = 0x3A#8 ∧
        (∀ i, i ≠ 0 → memRead t.rxBuf i = memRead s.rxBuf i) ∧
        { t with rxBuf := s.rxBuf, rxLen := s.rxLen } = { s with lastRxMs := s.nowMs }) ∧
    (b ≠ 0x3A#8 → ¬ (b = 0x0D#8 ∧ 2 < s.rxLen) → s.rxLen < s.cfg.rxBufCap →
      ∃ t, rxByte b s = .next t ∧ t.rxLen = s.rxLen + 1 ∧ memRead t.rxBuf s.rxLen = b ∧
        (∀ i, i ≠ s.rxLen → memRead t.rxBuf i = memRead s.rxBuf i) ∧
        { t with rxBuf := s.rxBuf, rxLen := s.rxLen } = { s with lastRxMs := s.nowMs }) ∧
    (b ≠ 0x3A#8 → ¬ (b = 0x0D#8 ∧ 2 < s.rxLen) → s.cfg.rxBufCap ≤ s.rxLen →
      rxByte b s = .next { s with lastRxMs := s.nowMs })

/-- R262 with the failing classes of R97: a frame with an unknown opcode, another length, no start marker or a bad mode
digit clears the buffer and does nothing else (the timestamp is the byte's own, R120). -/
def Obligations.BadFrameIsSilent : Prop :=
  ∀ s : State, 2 < s.rxLen →
    let buf := heldFrame s
    ((∀ op : Opcode, op.byte ≠ buf.getD 1 0) ∨
      (∃ op : Opcode, op.byte = buf.getD 1 0 ∧
        (s.rxLen ≠ requiredLen s.cfg op ∨ buf.getD 0 0 ≠ 0x3A#8 ∨
          (op = .setMotionMode ∧ buf.getD 3 0 ∉ [0x30#8, 0x31#8, 0x32#8, 0x33#8])))) →
    rxByte 0x0D#8 s = .next { s with rxLen := 0, lastRxMs := s.nowMs }

/-- A step runs the decoded command: when the next event is a `\r` and the frame held decodes to `i`, the step is exec
of `i` after the time, the event list and the timestamp have moved on, with `rx_len` back at 0 (R67, R120, R121). -/
def Obligations.StepRunsDecodedCommand : Prop :=
  ∀ (s : State) (a : Arrival) (rest : List Arrival) (i : Instr) (t : State),
    configOk s.cfg = true → s.inputs = a :: rest → a.event = .rxByte 0x0D#8 → 2 < s.rxLen →
    decode s.cfg (heldFrame s) = .ok i →
    exec i { s with inputs := rest, nowMs := s.nowMs + a.elapsedMs, lastRxMs := s.nowMs + a.elapsedMs } = .next t →
    step s = .next { t with rxLen := 0 }

/-- A step of the other events runs their meaning, and with no event pending it waits (log 4: the waiting is DEDUCED
from R290's "after reset SSC waits for events"). -/
def Obligations.StepRunsEvents : Prop :=
  ∀ s : State, configOk s.cfg = true →
    (s.inputs = [] → step s = .next s) ∧
    ∀ (a : Arrival) (rest : List Arrival), s.inputs = a :: rest →
      let s1 := { s with inputs := rest, nowMs := s.nowMs + a.elapsedMs }
      (∀ b, a.event = .rxByte b → step s = rxByte b s1) ∧
      (a.event = .pollTimeout → step s = .next (pollTimeout s1)) ∧
      (∀ m, a.event = .longTick m → step s = .next (setMotor m (longTickMotor (motor m s1)) s1)) ∧
      (∀ m, a.event = .tick m → step s = tick m s1) ∧
      (a.event = .reset → step s = .next (State.powerOn s.cfg s1.nowMs rest))

/-- End to end (R80, R120, R121, R124; the encoder's choices are log 15): the bytes of a well-formed command's frame and
a `\r`, arriving one after another in any state, execute exactly that command and leave the framer empty. -/
def Obligations.WireCommandExecutes : Prop :=
  ∀ (s : State) (i : Instr), configOk s.cfg = true → i.wf = true →
    ∃ buf t,
      exec i { s with inputs := [], rxBuf := buf, rxLen := (encode s.cfg i).length, lastRxMs := s.nowMs } = .next t ∧
      core.run ((encode s.cfg i).length + 1)
        { s with inputs := (encode s.cfg i ++ [0x0D#8]).map fun b => ⟨0, .rxByte b⟩ } = .next { t with rxLen := 0 }

/-! ## Set commands -/

/-- R140: `E`, in both cases. -/
def Obligations.SetPositionEffect : Prop :=
  ∀ (a : Axis) (v : Nat) (s : State),
    ((motor (motorOf a) s).moving = true →
      exec (.setPosition a v) s = .next { s with tx := s.tx ++ [0x21#8, 0x32#8, 0x0D#8] }) ∧
    ((motor (motorOf a) s).moving = false →
      exec (.setPosition a v) s = .next { setMotor (motorOf a) { motor (motorOf a) s with position := v } s with
        tx := s.tx ++ [0x3D#8, 0x0D#8] })

/-- R143: `S`, in both cases. -/
def Obligations.SetGotoTargetEffect : Prop :=
  ∀ (a : Axis) (v : Nat) (s : State),
    ((motor (motorOf a) s).moving = true →
      exec (.setGotoTarget a v) s = .next { s with tx := s.tx ++ [0x21#8, 0x32#8, 0x0D#8] }) ∧
    ((motor (motorOf a) s).moving = false →
      exec (.setGotoTarget a v) s = .next { setMotor (motorOf a) { motor (motorOf a) s with target := v } s with
        tx := s.tx ++ [0x3D#8, 0x0D#8] })

/-- `G` (41_set_commands.md R142; that `G` writes the mode pins is the spec's decision D30, log 20). -/
def Obligations.SetMotionModeEffect : Prop :=
  ∀ (a : Axis) (t : SlewType) (sp : SlewSpeed) (d : SlewDir) (s : State),
    ((motor (motorOf a) s).moving = true →
      exec (.setMotionMode a t sp d) s = .next { s with tx := s.tx ++ [0x21#8, 0x32#8, 0x0D#8] }) ∧
    ((motor (motorOf a) s).moving = false →
      exec (.setMotionMode a t sp d) s = .next { setMotor (motorOf a)
          { motor (motorOf a) s with
            slewType := t
            slewSpeed := sp
            slewDir := d
            msPin := ustepLevels s.cfg.ustepPattern (if sp = .fast then s.cfg.ustepFast else s.cfg.ustepSlow) } s with
        tx := s.tx ++ [0x3D#8, 0x0D#8] })

/-- `H` (41_set_commands.md R144; the signs, NONE as CW and the unreduced sum are the spec's decisions D17, D31, D32,
log 19). -/
def Obligations.SetGotoTargetIncrementEffect : Prop :=
  ∀ (a : Axis) (v : Nat) (s : State),
    ((motor (motorOf a) s).moving = true →
      exec (.setGotoTargetIncrement a v) s = .next { s with tx := s.tx ++ [0x21#8, 0x32#8, 0x0D#8] }) ∧
    ((motor (motorOf a) s).moving = false →
      exec (.setGotoTargetIncrement a v) s = .next { setMotor (motorOf a)
          { motor (motorOf a) s with
            target := if (motor (motorOf a) s).slewDir = .ccw then (motor (motorOf a) s).position - v
              else (motor (motorOf a) s).position + v } s with
        tx := s.tx ++ [0x3D#8, 0x0D#8] })

/-- `I` (41_set_commands.md R146; that the value is stored as received is the spec's decision D15, log 19): no
precondition, moving or not. -/
def Obligations.SetStepPeriodEffect : Prop :=
  ∀ (a : Axis) (v : Nat) (s : State),
    exec (.setStepPeriod a v) s = .next { setMotor (motorOf a) { motor (motorOf a) s with stepPeriod := v } s with
      tx := s.tx ++ [0x3D#8, 0x0D#8] }

/-- R141, R145, R147, R148, R162: `F`, `M`, `O`, `P` and `L` answer `=\r` and write no register. -/
def Obligations.NoOpCommandsReplyEmpty : Prop :=
  ∀ (a : Axis) (v : Nat) (s : State) (i : Instr),
    i ∈ [.initializationDone a, .setBreakpointIncrement a v, .setSwitch a v, .setAutoguideSpeed a v, .instantStop a] →
    exec i s = .next { s with tx := s.tx ++ [0x3D#8, 0x0D#8] }

/-- `V` (41_set_commands.md R150; one LED and the kept value are the spec's decision D40): the register, the port, the
reply, for every axis byte. -/
def Obligations.SetLedEffect : Prop :=
  ∀ (a : Axis) (v : Nat) (s : State), v < 256 →
    exec (.setPolarLEDBrightness a v) s =
      .next { s with led := BitVec.ofNat 8 v, ledPort := some (BitVec.ofNat 8 v), tx := s.tx ++ [0x3D#8, 0x0D#8] }

/-- R263: a motion command while the axis moves answers `!2\r`, `J` before any mode answers `!4\r` (the order of `J`'s two
checks is the spec's decision D38), and everything else stays as it was. -/
def Obligations.PreconditionErrorsHaveNoEffect : Prop :=
  ∀ (i : Instr) (s : State),
    ((motor (motorOf i.axis) s).moving = true →
      (i.opcode ∈ [.setPosition, .setMotionMode, .setGotoTarget, .setGotoTargetIncrement] ∨
        (i.opcode = .startMotion ∧ (motor (motorOf i.axis) s).slewSpeed ≠ .unset)) →
      exec i s = .next { s with tx := s.tx ++ [0x21#8, 0x32#8, 0x0D#8] }) ∧
    ((motor (motorOf i.axis) s).slewSpeed = .unset → i.opcode = .startMotion →
      exec i s = .next { s with tx := s.tx ++ [0x21#8, 0x34#8, 0x0D#8] })

/-! ## Motion commands -/

/-- The first interval of a ramp, `C0` as a value of FP (45_step_generator.md R207; the rounding is log 24). -/
def Sys2Proof.Machine.startInterval (c : Config) : Rat := fpRound c.fp c.c0

/-- The magnitude of the speed at the first interval (45_step_generator.md R209). -/
def Sys2Proof.Machine.startSpeed (c : Config) : Rat := fpRound c.fp (fpRound c.fp 1000000 / startInterval c)

/-- The tick divider at the first interval (45_step_generator.md R209, decision D13). -/
def Sys2Proof.Machine.startPps (c : Config) : Nat :=
  max 1 ⌊fpRound c.fp (startInterval c / fpRound c.fp c.tickUs)⌋.toNat

/-- `J` in TRACKING on an axis at rest (46_axis_motor.md R233, 45_step_generator.md R207, R209; decisions D13, D17, D21,
logs 18, 19, 22, 24): the axis-level and generator sentinels of the direction, the flags, and the first interval `C0`. -/
def Obligations.StartTrackingEffect : Prop :=
  ∀ (a : Axis) (s : State), configOk s.cfg = true →
    (motor (motorOf a) s).slewType = .tracking → (motor (motorOf a) s).slewSpeed ≠ .unset →
    (motor (motorOf a) s).moving = false →
    (motor (motorOf a) s).g.position = 0 → (motor (motorOf a) s).g.target = 0 →
    (motor (motorOf a) s).g.speed = 0 → (motor (motorOf a) s).g.n = 0 →
    exec (.startMotion a) s = .next { setMotor (motorOf a)
        { motor (motorOf a) s with
          moving := true
          stopping := false
          tickCount := 0
          target := if (motor (motorOf a) s).slewDir = .ccw then 0 else 0xFFFFFF
          dirPin := if (motor (motorOf a) s).slewDir = .ccw then !s.cfg.dirLevelPos else s.cfg.dirLevelPos
          g :=
            { position := 0
              target := if (motor (motorOf a) s).slewDir = .ccw then s.cfg.genNegInf else s.cfg.genPosInf
              speed := if (motor (motorOf a) s).slewDir = .ccw then -startSpeed s.cfg else startSpeed s.cfg
              cn := startInterval s.cfg
              n := 1
              pps := startPps s.cfg
              dir := if (motor (motorOf a) s).slewDir = .ccw then .neg else .pos } } s with
      tx := s.tx ++ [0x3D#8, 0x0D#8] }

/-- The raw steps of a GOTO as 46_axis_motor.md R234 gives them: four cases, then the FAST division toward zero. -/
def Sys2Proof.Machine.statedGotoSteps (c : Config) (ax : AxisMotor) : Int :=
  let diff := ax.target - ax.position
  let whole :=
    if ax.slewDir = .ccw then (if diff ≤ 0 then diff else diff - c.rev)
    else (if 0 ≤ diff then diff else diff + c.rev)
  if ax.slewSpeed = .fast then whole.tdiv (c.ustepSlow / c.ustepFast) else whole

/-- `J` in GOTO (46_axis_motor.md R234, 45_step_generator.md R207, R209, R211; decisions D13, D18, D19, D20, logs 18, 19,
22, 24): the generator restarts from zero toward the wrap-corrected step count; with no steps to go it stays idle and the
axis still counts as moving. -/
def Obligations.StartGotoEffect : Prop :=
  ∀ (a : Axis) (s : State), configOk s.cfg = true →
    (motor (motorOf a) s).slewType = .goto → (motor (motorOf a) s).slewSpeed ≠ .unset →
    (motor (motorOf a) s).moving = false →
    (statedGotoSteps s.cfg (motor (motorOf a) s) = 0 →
      exec (.startMotion a) s = .next { setMotor (motorOf a)
          { motor (motorOf a) s with
            moving := true
            stopping := false
            tickCount := 0
            g := { (motor (motorOf a) s).g with position := 0, target := 0, speed := 0, n := 0, pps := 0 } } s with
        tx := s.tx ++ [0x3D#8, 0x0D#8] }) ∧
    (statedGotoSteps s.cfg (motor (motorOf a) s) ≠ 0 →
      exec (.startMotion a) s = .next { setMotor (motorOf a)
          { motor (motorOf a) s with
            moving := true
            stopping := false
            tickCount := 0
            dirPin := if 0 < statedGotoSteps s.cfg (motor (motorOf a) s) then s.cfg.dirLevelPos
              else !s.cfg.dirLevelPos
            g :=
              { position := 0
                target := statedGotoSteps s.cfg (motor (motorOf a) s)
                speed := if 0 < statedGotoSteps s.cfg (motor (motorOf a) s) then startSpeed s.cfg else -startSpeed s.cfg
                cn := startInterval s.cfg
                n := 1
                pps := startPps s.cfg
                dir := if 0 < statedGotoSteps s.cfg (motor (motorOf a) s) then .pos else .neg } } s with
        tx := s.tx ++ [0x3D#8, 0x0D#8] })

/-- A graceful stop as 46_axis_motor.md R236 and 45_step_generator.md R205 give it: `stopping`, and a generator target the
stopping distance ahead in the generator's direction, which recomputes the ramp if it is not the target already. -/
def Sys2Proof.Machine.statedStop (c : Config) (ax : AxisMotor) : AxisMotor :=
  let goal := ax.g.position + (if ax.g.dir = .pos then 1 else -1) * stepsToStop c ax.g
  if goal = ax.g.target then { ax with stopping := true }
  else computeNewSpeed c { ax with stopping := true, g := { ax.g with target := goal } }

/-- `K` (42_motion_commands.md R161, 46_axis_motor.md R236, 45_step_generator.md R205; decisions D11, D22, logs 18, 22): on
an axis at rest only the reply; on a moving axis the stop of `statedStop`, which takes no physical step, leaves `moving`
and aims at the stop point. -/
def Obligations.StopMotionEffect : Prop :=
  ∀ (a : Axis) (s : State),
    ((motor (motorOf a) s).moving = false →
      exec (.stopMotion a) s = .next { s with tx := s.tx ++ [0x3D#8, 0x0D#8] }) ∧
    ((motor (motorOf a) s).moving = true →
      exec (.stopMotion a) s = .next { setMotor (motorOf a) (statedStop s.cfg (motor (motorOf a) s)) s with
        tx := s.tx ++ [0x3D#8, 0x0D#8] } ∧
      ∃ pin g,
        statedStop s.cfg (motor (motorOf a) s) =
          { motor (motorOf a) s with stopping := true, dirPin := pin, g := g } ∧
        g.position = (motor (motorOf a) s).g.position ∧
        g.target = (motor (motorOf a) s).g.position +
          (if (motor (motorOf a) s).g.dir = .pos then 1 else -1) * stepsToStop s.cfg (motor (motorOf a) s).g)

/-- `K` when the generator could stop within a step's fraction (46_axis_motor.md R236, the case of SLOW tracking;
decisions D11, D22): with a stopping distance of 0 and another target, the generator is idle at once. -/
def Obligations.StopOfSlowGeneratorIdlesIt : Prop :=
  ∀ (c : Config) (ax : AxisMotor), configOk c = true → stepsToStop c ax.g = 0 → ax.g.target ≠ ax.g.position →
    c.genNegInf < ax.g.position → ax.g.position < c.genPosInf →
    stopMotor c ax = { ax with
      stopping := true
      g := { ax.g with target := ax.g.position, speed := 0, n := 0, pps := 0 } }

/-! ## Get commands -/

/-- R170, R171, R177, R178, R180: `a`, `b`, `g`, `D` and `s` send the configured constant (0 for `s`) and write
nothing. -/
def Obligations.ConstantGetters : Prop :=
  ∀ (a : Axis) (s : State),
    exec (.getCountsPerRev a) s =
      .next { s with tx := s.tx ++ (0x3D#8 :: encodeHex s.cfg.rev .w6 ++ [0x0D#8]) } ∧
    exec (.getTimerFreq a) s =
      .next { s with tx := s.tx ++ (0x3D#8 :: encodeHex s.cfg.timerFreq .w6 ++ [0x0D#8]) } ∧
    exec (.getHighSpeedRatio a) s =
      .next { s with tx := s.tx ++ (0x3D#8 :: encodeHex s.cfg.highSpeedRatio .w2 ++ [0x0D#8]) } ∧
    exec (.getSiderealPeriod a) s =
      .next { s with tx := s.tx ++ (0x3D#8 :: encodeHex s.cfg.siderealPeriod .w6 ++ [0x0D#8]) } ∧
    exec (.getPECPeriod a) s =
      .next { s with tx := s.tx ++ [0x3D#8, 0x30#8, 0x30#8, 0x30#8, 0x30#8, 0x30#8, 0x30#8, 0x0D#8] }

/-- R172, R174, R175: `h`, `j` and `d` send the low 24 bits of the axis's target or position and write nothing. -/
def Obligations.PositionGetters : Prop :=
  ∀ (a : Axis) (s : State),
    exec (.getGotoTarget a) s =
      .next { s with tx := s.tx ++ (0x3D#8 :: encodeHex (motor (motorOf a) s).target .w6 ++ [0x0D#8]) } ∧
    exec (.getPosition a) s =
      .next { s with tx := s.tx ++ (0x3D#8 :: encodeHex (motor (motorOf a) s).position .w6 ++ [0x0D#8]) } ∧
    exec (.getAxisPosition a) s =
      .next { s with tx := s.tx ++ (0x3D#8 :: encodeHex (motor (motorOf a) s).position .w6 ++ [0x0D#8]) }

/-- `i` (43_get_commands.md R173; that it reads the register `I` writes is conflict C5's resolution, decision D16). -/
def Obligations.StepPeriodGetter : Prop :=
  ∀ (a : Axis) (s : State),
    exec (.getStepPeriod a) s =
      .next { s with tx := s.tx ++ (0x3D#8 :: encodeHex (motor (motorOf a) s).stepPeriod .w6 ++ [0x0D#8]) }

/-- `f` (43_get_commands.md R176, 44_replies.md R193; polarity and nibble order are the spec's decision D25, log 21). -/
def Obligations.StatusGetter : Prop :=
  ∀ (a : Axis) (s : State),
    exec (.getStatus a) s = .next { s with tx := s.tx ++ [0x3D#8,
      hexdigit ((if (motor (motorOf a) s).slewType = .tracking then 1 else 0) +
        (if (motor (motorOf a) s).slewDir = .ccw then 2 else 0) +
        (if (motor (motorOf a) s).slewSpeed = .fast then 4 else 0)),
      hexdigit (if (motor (motorOf a) s).moving = true then 1 else 0),
      hexdigit (if s.cfg.statusInitDone = true then 1 else 0), 0x0D#8] }

/-- `e` and `q` (43_get_commands.md R179, R181; the nibbles are open parameters, decision D26): the configured nibbles in
index order, then the literal zeros. -/
def Obligations.VersionAndExtendedStatusGetters : Prop :=
  ∀ (a : Axis) (s : State) (v0 v1 v2 v3 e0 e1 e2 : Nat),
    s.cfg.version = (v0, v1, v2, v3) → s.cfg.extStatus = (e0, e1, e2) →
    exec (.getVersion a) s = .next { s with tx := s.tx ++
      [0x3D#8, hexdigit v0, hexdigit v1, hexdigit v2, hexdigit v3, 0x30#8, 0x30#8, 0x0D#8] } ∧
    exec (.getExtendedStatus a) s = .next { s with tx := s.tx ++
      [0x3D#8, hexdigit e0, hexdigit e1, hexdigit e2, 0x30#8, 0x30#8, 0x30#8, 0x0D#8] }

/-! ## Whole-machine rules about commands -/

/-- Every command completes and sends exactly one reply frame, `=` hex digits `\r`, or `!2\r`, or `!4\r`
(30_encoding.md R96, 44_replies.md R197, 60_exceptions.md R261, R274). -/
def Obligations.EveryCommandSendsOneReply : Prop :=
  ∀ (i : Instr) (s : State), configOk s.cfg = true →
    ∃ t frame, exec i s = .next t ∧ t.tx = s.tx ++ frame ∧
      (frame = [0x21#8, 0x32#8, 0x0D#8] ∨ frame = [0x21#8, 0x34#8, 0x0D#8] ∨
        ∃ body : List Byte, frame = 0x3D#8 :: body ++ [0x0D#8] ∧ body.length ∈ [0, 2, 3, 6] ∧
          ∀ b ∈ body, ∃ v, v < 16 ∧ b = hexdigit v)

/-- A command touches one axis at most, and of the handler only the LED (for `V`) and `tx` (60_exceptions.md R280,
10_state.md R37): the buffer, its length, the timestamp, the configuration, time and pending events stay. -/
def Obligations.CommandIsLocal : Prop :=
  ∀ (i : Instr) (s t : State), exec i s = .next t →
    (∀ m : MotorId, m ≠ motorOf i.axis → motor m t = motor m s) ∧
    (i.opcode ≠ .setPolarLEDBrightness → t.led = s.led ∧ t.ledPort = s.ledPort) ∧
    (∀ k, rxRead k t = rxRead k s) ∧ t.rxBuf = s.rxBuf ∧ t.rxLen = s.rxLen ∧ t.lastRxMs = s.lastRxMs ∧
    t.cfg = s.cfg ∧ t.nowMs = s.nowMs ∧ t.inputs = s.inputs

/-- No event writes the configuration (20_memory.md R70: "No command can modify the buffer, the opcode table or the
configuration"; 00_scope.md R7). -/
def Obligations.ConfigurationIsConstant : Prop :=
  ∀ s t : State, step s = .next t → t.cfg = s.cfg

/-- Mode and target are constant during a motion (70_reset_and_hazards.md R310, derived there): whatever happens while
the axis moves, power-on apart, leaves its type, speed, direction, mode pins and target. -/
def Obligations.ModeFixedWhileMoving : Prop :=
  ∀ (s t : State) (m : MotorId), step s = .next t → (motor m s).moving = true →
    (∀ a rest, s.inputs = a :: rest → a.event ≠ .reset) →
    (motor m t).slewType = (motor m s).slewType ∧ (motor m t).slewSpeed = (motor m s).slewSpeed ∧
    (motor m t).slewDir = (motor m s).slewDir ∧ (motor m t).target = (motor m s).target ∧
    (motor m t).msPin = (motor m s).msPin

/-- `longTick` is the only rule that clears `moving` (46_axis_motor.md R245, 10_state.md R27; a power-on reset apart,
R39). -/
def Obligations.OnlyLongTickEndsMotion : Prop :=
  ∀ (s t : State) (m : MotorId), step s = .next t → (motor m s).moving = true → (motor m t).moving = false →
    ∃ a rest, s.inputs = a :: rest ∧ (a.event = .longTick m ∨ a.event = .reset)

/-- SSC sends nothing unsolicited (44_replies.md R197, 60_exceptions.md R270): only a `\r` on rx can extend `tx`, it keeps
what was sent, and every other event but power-on leaves `tx` alone. -/
def Obligations.NothingUnsolicited : Prop :=
  ∀ s t : State, step s = .next t →
    (∀ a rest, s.inputs = a :: rest → a.event ≠ .reset) →
    (∃ frame, t.tx = s.tx ++ frame) ∧
    ((∀ a rest, s.inputs = a :: rest → a.event ≠ .rxByte 0x0D#8) → t.tx = s.tx)

/-! ## The step generator -/

/-- The clamped distance (45_step_generator.md R202; the sentinels are open parameters, decision D29). -/
def Obligations.ClampedDistance : Prop :=
  ∀ (c : Config) (g : StepGen), configOk c = true →
    (c.genPosInf ≤ g.target → clampedDistanceToGo c g = c.distInf ∧ 0 < c.distInf) ∧
    (g.target ≤ c.genNegInf → clampedDistanceToGo c g = -c.distInf) ∧
    (c.genNegInf < g.target → g.target < c.genPosInf → clampedDistanceToGo c g = g.target - g.position)

/-- The stopping distance in the reference arithmetic (45_step_generator.md R203, R201; truncation is decision D11,
exact rationals decision D10, logs 5, 18, 24). -/
def Obligations.StoppingDistance : Prop :=
  ∀ (c : Config) (g : StepGen), configOk c = true → c.fp = .exact →
    (stepsToStop c g : Int) = ⌊g.speed ^ 2 / (2 * c.accel)⌋

/-- R205: setting the same target does nothing; another target is written and the ramp recomputed. -/
def Obligations.SetTargetRecomputes : Prop :=
  ∀ (c : Config) (t : Int) (ax : AxisMotor),
    (t = ax.g.target → setTargetPosition c t ax = ax) ∧
    (t ≠ ax.g.target → setTargetPosition c t ax = computeNewSpeed c { ax with g := { ax.g with target := t } })

/-- Steps 1 to 4 of computeNewSpeed (45_step_generator.md R206; the comparisons of step 4 are the spec's decision D12,
its general-knowledge passage G1, log 18): where the generator stops, and the ramp counter in every other case. -/
def Obligations.RampPhaseDecision : Prop :=
  ∀ (c : Config) (ax : AxisMotor),
    let d := clampedDistanceToGo c ax.g
    let sts := stepsToStop c ax.g
    let n' := (computeNewSpeed c ax).g.n
    (d = 0 → sts ≤ 1 → computeNewSpeed c ax = { ax with g := { ax.g with speed := 0, pps := 0, n := 0 } }) ∧
    (d = 0 → 1 < sts → n' = ax.g.n + 1) ∧
    (d ≠ 0 → ax.g.n = 0 → n' = 1) ∧
    (0 < d → 0 < ax.g.n → (d ≤ sts ∨ ax.g.dir = .neg) → n' = 1 - sts) ∧
    (0 < d → 0 < ax.g.n → sts < d → ax.g.dir = .pos → n' = ax.g.n + 1) ∧
    (0 < d → ax.g.n < 0 → sts < d → ax.g.dir = .pos → n' = 1 - ax.g.n) ∧
    (0 < d → ax.g.n < 0 → (d ≤ sts ∨ ax.g.dir = .neg) → n' = ax.g.n + 1) ∧
    (d < 0 → 0 < ax.g.n → (-d ≤ sts ∨ ax.g.dir = .pos) → n' = 1 - sts) ∧
    (d < 0 → 0 < ax.g.n → sts < -d → ax.g.dir = .neg → n' = ax.g.n + 1) ∧
    (d < 0 → ax.g.n < 0 → sts < -d → ax.g.dir = .neg → n' = 1 - ax.g.n) ∧
    (d < 0 → ax.g.n < 0 → (-d ≤ sts ∨ ax.g.dir = .pos) → n' = ax.g.n + 1)

/-- Steps 5 to 7 of computeNewSpeed when it does not stop (45_step_generator.md R207, R208, R209; the formula of `pps` is
decision D13, the arithmetic decision D10, logs 5, 18; that the constants `C0` and `CMIN` enter a binary format rounded
is the model's choice, log 24): a ramp that starts takes `C0` and the direction of the distance; otherwise the
recurrence, clamped to `CMIN`, in the same direction; then speed and `pps` from the interval; nothing else of the axis
changes. -/
def Obligations.RampIntervalAndSpeed : Prop :=
  ∀ (c : Config) (ax : AxisMotor),
    ¬ (clampedDistanceToGo c ax.g = 0 ∧ stepsToStop c ax.g ≤ 1) →
    ∃ (pin : Bool) (g : StepGen), computeNewSpeed c ax = { ax with dirPin := pin, g := g } ∧
      g.position = ax.g.position ∧ g.target = ax.g.target ∧
      (g.n = 1 → g.cn = fpRound c.fp c.c0 ∧ g.dir = (if 0 < clampedDistanceToGo c ax.g then .pos else .neg) ∧
        pin = (if 0 < clampedDistanceToGo c ax.g then c.dirLevelPos else !c.dirLevelPos)) ∧
      (g.n ≠ 1 → g.dir = ax.g.dir ∧ pin = ax.dirPin ∧
        g.cn = max (fpRound c.fp c.cmin) (fpRound c.fp (ax.g.cn -
          fpRound c.fp (fpRound c.fp (fpRound c.fp 2 * ax.g.cn) / fpRound c.fp (((4 * (g.n - 1) + 1 : Int) : Rat)))))) ∧
      g.speed = (if g.dir = .pos then 1 else -1) * fpRound c.fp (fpRound c.fp 1000000 / g.cn) ∧
      g.pps = max 1 ⌊fpRound c.fp (g.cn / fpRound c.fp c.tickUs)⌋.toNat

/-- R210: one physical step advances the position once, in the generator's direction, and emits one pulse. -/
def Obligations.RunTakesOneStep : Prop :=
  ∀ ax : AxisMotor,
    run ax = { ax with
      stepPin := false
      pulses := ax.pulses + 1
      g := { ax.g with position := ax.g.position + (if ax.g.dir = .pos then 1 else -1) } }

/-- Ramp termination on short moves under TC (45_step_generator.md R212, which calls it a property to be proved of the
model; TC is the spec's own choice of numbers, log 1): from rest, `|D|` steps, each followed by computeNewSpeed, bring the
generator exactly to `D` and stop it, from the triangular ramps to those that cruise at `CMIN`. -/
def Obligations.ShortRampsTerminate : Prop :=
  ∀ (d : Int) (ax : AxisMotor), 0 < |d| → |d| ≤ 60 →
    ax.g.position = 0 → ax.g.target = 0 → ax.g.speed = 0 → ax.g.n = 0 →
    let stopped := ((fun a => computeNewSpeed Config.tc (run a))^[d.natAbs] (setTargetPosition Config.tc d ax)).g
    stopped.position = d ∧ stopped.target = d ∧ stopped.speed = 0 ∧ stopped.n = 0 ∧ stopped.pps = 0

/-! ## The axis motor -/

/-- R242: wrap, as its three cases, and the property that one step across the boundary lands one revolution away, inside
the window. -/
def Obligations.WrapOneRevolution : Prop :=
  ∀ (c : Config) (p : Int), configOk c = true →
    (windowHigh c ≤ p → wrapPosition c p = p - c.rev) ∧
    (p < windowLow c → wrapPosition c p = p + c.rev) ∧
    (InWindow c p → wrapPosition c p = p) ∧
    (windowLow c - c.rev ≤ p → p < windowHigh c + c.rev → InWindow c (wrapPosition c p))

/-- Microstep patterns (46_axis_motor.md R250, 00_scope.md R7; the trigger and the table are decision D30, log 20): the
six counts have six different patterns, and any other count drives all three pins high. -/
def Obligations.MicrostepPatterns : Prop :=
  ∀ c : Config, configOk c = true →
    (∀ m k, m ∈ [1, 2, 4, 8, 16, 32] → k ∈ [1, 2, 4, 8, 16, 32] →
      ustepLevels c.ustepPattern m = ustepLevels c.ustepPattern k → m = k) ∧
    (∀ m, m ∉ [1, 2, 4, 8, 16, 32] → ustepLevels c.ustepPattern m = ⟨true, true, true⟩)

/-- A tick that takes no step (46_axis_motor.md R240; the divider is decision D14, log 19): on an axis that is not moving
it changes nothing; while the period is 0 or not yet reached it counts one tick and changes nothing else. -/
def Obligations.TickWithoutStep : Prop :=
  ∀ (m : MotorId) (s : State) (period : Nat),
    period = (if (motor m s).slewType = .goto ∨ (motor m s).slewSpeed = .fast then (motor m s).g.pps
      else (motor m s).stepPeriod) →
    ((motor m s).moving = false → tick m s = .next s) ∧
    ((motor m s).moving = true → (period = 0 ∨ (motor m s).tickCount + 1 < period) →
      tick m s = .next (setMotor m { motor m s with tickCount := (motor m s).tickCount + 1 } s))

/-- A tick that takes a step (46_axis_motor.md R240, R231; decisions D14, D18, D33, log 19): one pulse, one raw step, the
reference position moved by the ratio in the direction of that step and wrapped; without acceleration the ramp registers
stay, with acceleration they are those of computeNewSpeed after the step. A step that would reach a sentinel is refused
(70_reset_and_hazards.md R307, U6, log 9). -/
def Obligations.TickWithStep : Prop :=
  ∀ (m : MotorId) (s : State) (period : Nat),
    period = (if (motor m s).slewType = .goto ∨ (motor m s).slewSpeed = .fast then (motor m s).g.pps
      else (motor m s).stepPeriod) →
    (motor m s).moving = true → 0 < period → period ≤ (motor m s).tickCount + 1 →
    let ax := motor m s
    let sign : Int := if ax.g.dir = .pos then 1 else -1
    let k : Nat := if ax.slewSpeed = .fast then s.cfg.ustepSlow / s.cfg.ustepFast else 1
    let stepped : AxisMotor := { ax with
      tickCount := 0
      stepPin := false
      pulses := ax.pulses + 1
      g := { ax.g with position := ax.g.position + sign } }
    let ramped := if ax.slewType = .goto ∨ ax.slewSpeed = .fast then computeNewSpeed s.cfg stepped else stepped
    (s.cfg.genNegInf < ax.g.position + sign → ax.g.position + sign < s.cfg.genPosInf →
      tick m s = .next (setMotor m { ramped with position := wrapPosition s.cfg (ax.position + sign * k) } s)) ∧
    (ax.g.position + sign ≤ s.cfg.genNegInf ∨ s.cfg.genPosInf ≤ ax.g.position + sign →
      tick m s = .refused .positionRange)

/-- The reference position stays in the wrap window (10_state.md R25, 46_axis_motor.md R242), for a ratio of at most one
revolution, which R7 does not by itself require. -/
def Obligations.TickKeepsWindow : Prop :=
  ∀ (m : MotorId) (s t : State), configOk s.cfg = true → s.cfg.kFast ≤ s.cfg.rev →
    InWindow s.cfg (motor m s).position → tick m s = .next t → InWindow s.cfg (motor m t).position

/-- Position bookkeeping (46_axis_motor.md R251, derived there): whatever a tick does, the reference position moves by
the ratio times the raw steps, modulo a revolution, and there is one pulse for each raw step. -/
def Obligations.PositionFollowsPulses : Prop :=
  ∀ (m : MotorId) (s t : State), tick m s = .next t →
    (s.cfg.rev : Int) ∣ ((motor m t).position - (motor m s).position) -
      ratio s.cfg (motor m s) * ((motor m t).g.position - (motor m s).g.position) ∧
    ((motor m t).pulses : Int) - (motor m s).pulses =
      |(motor m t).g.position - (motor m s).g.position|

/-- `longTick` (46_axis_motor.md R245, 45_step_generator.md R211; the grouping of its condition is decision D23, log 22,
and what zeroing clears is decision D20 and its general-knowledge passage G6, PRESUMED, log 18): it ends the motion and
zeroes the generator when a stop without acceleration is pending or the generator is not running, and else changes
nothing. -/
def Obligations.LongTickEndsFinishedMotion : Prop :=
  ∀ (m : MotorId) (s : State),
    let ax := motor m s
    (((ax.stopping = true ∧ ax.slewType ≠ .goto ∧ ax.slewSpeed ≠ .fast) ∨
        (ax.g.speed = 0 ∧ ax.g.position = ax.g.target)) →
      longTick m s = setMotor m { ax with
        moving := false
        stopping := false
        g := { ax.g with position := 0, target := 0, speed := 0, n := 0, pps := 0 } } s) ∧
    (¬ ((ax.stopping = true ∧ ax.slewType ≠ .goto ∧ ax.slewSpeed ≠ .fast) ∨
        (ax.g.speed = 0 ∧ ax.g.position = ax.g.target)) →
      longTick m s = s)

/-- RA and DEC share no register: the order of their ticks cannot be observed, and both orders go on in the same states
(20_memory.md R67, 60_exceptions.md R271; decision D39). -/
def Obligations.TicksOfBothAxesCommute : Prop :=
  ∀ s t : State,
    (∃ u, tick .ra s = .next u ∧ tick .dec u = .next t) ↔ (∃ u, tick .dec s = .next u ∧ tick .ra u = .next t)

/-! ## Watchdog, reset, invariants -/

/-- The watchdog (60_exceptions.md R270; strictness, repetition and both axes are decision D24, log 23; the stop is R236's
with the spec's decision D22, log 22): silence of more than the timeout stops both axes as `statedStop` does, whether or
not they move, and sends nothing; at or below it nothing changes. -/
def Obligations.WatchdogStopsBothAxes : Prop :=
  ∀ s : State,
    (s.nowMs ≤ s.lastRxMs + s.cfg.serialTimeoutMs → pollTimeout s = s) ∧
    (s.lastRxMs + s.cfg.serialTimeoutMs < s.nowMs →
      pollTimeout s = { s with ra := statedStop s.cfg s.ra, dec := statedStop s.cfg s.dec } ∧
      ∀ m, ∃ pin g, motor m (pollTimeout s) = { motor m s with stopping := true, dirPin := pin, g := g } ∧
        g.position = (motor m s).g.position ∧
        g.target = (motor m s).g.position +
          (if (motor m s).g.dir = .pos then 1 else -1) * stepsToStop s.cfg (motor m s).g)

/-- The watchdog on an axis at rest, RA or DEC, sets `stopping` and nothing else of it (60_exceptions.md R270,
46_axis_motor.md R236; decision D24, log 23). -/
def Obligations.WatchdogOnIdleAxis : Prop :=
  ∀ (m : MotorId) (s : State), AxisInv s.cfg (motor m s) → (motor m s).moving = false →
    s.lastRxMs + s.cfg.serialTimeoutMs < s.nowMs →
    motor m (pollTimeout s) = { motor m s with stopping := true }

/-- A reset event (10_state.md R39, 70_reset_and_hazards.md R290: decision D27; the values 0 of `led` and `cn` and of
the buffer's bytes and the kept configuration, time and events are the model's choice, logs 6, 7, 17). -/
def Obligations.ResetEventRestoresTable : Prop :=
  ∀ s : State, ∃ ax : AxisMotor,
    powerOnReset s = { s with
      rxBuf := []
      rxLen := 0
      lastRxMs := s.nowMs
      led := 0
      ledPort := none
      tx := []
      ra := ax
      dec := ax } ∧
    ax.position = s.cfg.startPos ∧ ax.target = s.cfg.startPos ∧ ax.moving = false ∧ ax.stopping = false ∧
    ax.slewType = .unset ∧ ax.slewSpeed = .unset ∧ ax.slewDir = .unset ∧
    ax.stepPeriod = s.cfg.stepPeriodInit ∧ ax.tickCount = 0 ∧ ax.dirPin = s.cfg.dirLevelPos ∧
    ax.msPin = ustepLevels s.cfg.ustepPattern s.cfg.ustepSlow ∧ ax.stepPin = false ∧
    ax.g.position = 0 ∧ ax.g.target = 0 ∧ ax.g.speed = 0 ∧ ax.g.n = 0 ∧ ax.g.pps = 0 ∧ ax.g.dir = .pos

/-- Every step keeps the invariant of 10_state.md R20 to R35, R39 and 44_replies.md R197 (Safety.lean lists its
parts). -/
def Obligations.StepKeepsInvariant : Prop :=
  ∀ s t : State, Inv s → step s = .next t → Inv t

/-- The invariant holds at reset (under TC, log 1). -/
def Obligations.ResetMeetsInvariant : Prop := Inv State.reset

/-- Nothing stops SSC (60_exceptions.md: "Nothing in this core is fatal/crashing; all error paths return control to the
caller"): under an admitted configuration every step goes on, whatever event comes, but for a tick of a generator that
stands next to a sentinel (70_reset_and_hazards.md R307 requires its position between them; log 9). -/
def Obligations.StepNeverStops : Prop :=
  ∀ s : State, configOk s.cfg = true →
    (∀ a rest m, s.inputs = a :: rest → a.event = .tick m →
      s.cfg.genNegInf + 1 < (motor m s).g.position ∧ (motor m s).g.position + 1 < s.cfg.genPosInf) →
    GoesOn (step s)

/-- A configuration that breaks any one constraint of R7 is refused and nothing runs (93_implementation_defined.md U27,
log 8). -/
def Obligations.BadConfigurationIsRefused : Prop :=
  ∀ s : State,
    let c := s.cfg
    (c.tickUs = 0 ∨ c.serialTimeoutMs = 0 ∨ c.rxBufCap < 10) ∨
    (c.rev % 2 = 1 ∨ c.rev = 0 ∨ 2 ^ 24 ≤ c.rev ∨ c.startPos < c.rev / 2 ∨ 2 ^ 24 < c.startPos + c.rev / 2) ∨
    (c.ustepSlow ∉ [1, 2, 4, 8, 16, 32] ∨ c.ustepFast ∉ [1, 2, 4, 8, 16, 32] ∨ ¬ c.ustepFast ∣ c.ustepSlow ∨
      ¬ [c.ustepPattern.p1, c.ustepPattern.p2, c.ustepPattern.p4, c.ustepPattern.p8, c.ustepPattern.p16,
        c.ustepPattern.p32].Nodup) ∨
    (256 ≤ c.highSpeedRatio ∨ 2 ^ 24 ≤ c.timerFreq ∨ 2 ^ 24 ≤ c.siderealPeriod ∨ 2 ^ 24 ≤ c.stepPeriodInit ∨
      (∃ v ∈ [c.version.1, c.version.2.1, c.version.2.2.1, c.version.2.2.2], 16 ≤ v) ∨
      (∃ e ∈ [c.extStatus.1, c.extStatus.2.1, c.extStatus.2.2], 16 ≤ e)) ∨
    (c.accel ≤ 0 ∨ c.maxSpeed ≤ 0 ∨ c.c0 ≤ 0 ∨ c.cmin ≤ 0 ∨ c.c0 < c.cmin) ∨
    (0 ≤ c.genNegInf ∨ c.genPosInf ≤ 0 ∨ (c.distInf : Rat) ≤ c.maxSpeed ^ 2 / (2 * c.accel) + 1) →
    step s = .refused .badConfig
end

