-- ==== Sys2Proof/Laws/Arith.lean ====
section
/-! SUPPORT. The rounding of FP keeps zero and the sign (R201), and the integer conversions in terms of the library's. -/

namespace Sys2Proof.Machine

@[simp] theorem fpRound_exact (q : Rat) : fpRound .exact q = q := rfl

/-- A quotient of at least one rounds to at least one. -/
theorem halfEven_pos {n d : Nat} (hd : 0 < d) (h : d ≤ n) : 0 < halfEven n d := by
  have : 0 < n / d := Nat.div_pos h hd
  unfold halfEven
  split_ifs <;> omega

theorem scaleBy_den_pos {n d : Nat} (hd : 0 < d) (k : Int) : 0 < (scaleBy n d k).2 := by
  unfold scaleBy
  split_ifs
  · exact hd
  · positivity

theorem scaleBy_num_pos {n d : Nat} (hn : 0 < n) (k : Int) : 0 < (scaleBy n d k).1 := by
  unfold scaleBy
  split_ifs
  · positivity
  · exact hn

/-- The pair `scaleBy` answers is `n / d` times `2^k`. -/
theorem scaleBy_value (n d : Nat) (k : Int) :
    ((scaleBy n d k).1 : Rat) / ((scaleBy n d k).2 : Rat) = (n : Rat) / d * 2 ^ k := by
  unfold scaleBy
  split_ifs with hk
  · obtain ⟨j, rfl⟩ := Int.eq_ofNat_of_zero_le hk
    simp [zpow_natCast]
    ring
  · obtain ⟨j, hj⟩ := Int.eq_ofNat_of_zero_le (by omega : 0 ≤ -k)
    have hkj : k = -(j : Int) := by omega
    subst hkj
    simp [zpow_neg, zpow_natCast, div_eq_mul_inv]
    ring

/-- The exponent is not too large: `2^e ≤ n / d`. -/
theorem ilog2_le {n d : Nat} (hn : 0 < n) (hd : 0 < d) : (2 : Rat) ^ ilog2 n d ≤ (n : Rat) / d := by
  have hdq : (0 : Rat) < d := by exact_mod_cast hd
  have hnq : (0 : Rat) < n := by exact_mod_cast hn
  unfold ilog2
  simp only
  split_ifs with h
  · have hv := scaleBy_value d 1 ((Nat.log2 n : Int) - (Nat.log2 d : Int))
    have hp : (0 : Rat) < ((scaleBy d 1 ((Nat.log2 n : Int) - (Nat.log2 d : Int))).2 : Rat) := by
      exact_mod_cast scaleBy_den_pos Nat.one_pos _
    have h' : (((scaleBy d 1 ((Nat.log2 n : Int) - (Nat.log2 d : Int))).1 : Rat)) ≤
        n * ((scaleBy d 1 ((Nat.log2 n : Int) - (Nat.log2 d : Int))).2 : Rat) := by exact_mod_cast h
    rw [le_div_iff₀ hdq, mul_comm]
    have : (d : Rat) / (1 : Nat) * 2 ^ ((Nat.log2 n : Int) - (Nat.log2 d : Int)) ≤ n := by
      rw [← hv]; exact (div_le_iff₀ hp).mpr h'
    simpa using this
  · have h1 : (2 ^ Nat.log2 n : Nat) ≤ n := Nat.log2_self_le hn.ne'
    have h2 : d < 2 ^ (Nat.log2 d + 1) := Nat.lt_log2_self
    have h1q : (2 : Rat) ^ Nat.log2 n ≤ n := by exact_mod_cast h1
    have h2q : (d : Rat) ≤ 2 ^ (Nat.log2 d + 1) := by exact_mod_cast h2.le
    rw [le_div_iff₀ hdq]
    calc (2 : Rat) ^ ((Nat.log2 n : Int) - (Nat.log2 d : Int) - 1) * d
        ≤ (2 : Rat) ^ ((Nat.log2 n : Int) - (Nat.log2 d : Int) - 1) * 2 ^ (Nat.log2 d + 1) := by
          exact mul_le_mul_of_nonneg_left h2q (by positivity)
      _ = (2 : Rat) ^ Nat.log2 n := by
          rw [← zpow_natCast, ← zpow_natCast, ← zpow_add₀ (by norm_num)]
          congr 1
          push_cast
          ring
      _ ≤ n := h1q

/-- A positive magnitude rounds to a positive magnitude, at one bit of precision or more. -/
theorem roundMagnitude_pos {p n d : Nat} (hp : 1 ≤ p) (hn : 0 < n) (hd : 0 < d) :
    0 < (roundMagnitude p n d).1 ∧ 0 < (roundMagnitude p n d).2 := by
  have hdq : (0 : Rat) < d := by exact_mod_cast hd
  set k : Int := ilog2 n d - (p : Int) + 1 with hk
  have hden : 0 < (scaleBy n d (-k)).2 := scaleBy_den_pos hd _
  have hge : (scaleBy n d (-k)).2 ≤ (scaleBy n d (-k)).1 := by
    have hv := scaleBy_value n d (-k)
    have h1 : (1 : Rat) ≤ (n : Rat) / d * 2 ^ (-k) := by
      have hl := ilog2_le hn hd
      calc (1 : Rat) ≤ 2 ^ (ilog2 n d + -k) := by
            apply one_le_zpow₀ (by norm_num)
            omega
        _ = 2 ^ ilog2 n d * 2 ^ (-k) := zpow_add₀ (by norm_num) _ _
        _ ≤ (n : Rat) / d * 2 ^ (-k) := mul_le_mul_of_nonneg_right hl (by positivity)
    rw [← hv] at h1
    have hdp : (0 : Rat) < ((scaleBy n d (-k)).2 : Rat) := by exact_mod_cast hden
    have := (one_le_div hdp).mp h1
    exact_mod_cast this
  exact ⟨scaleBy_num_pos (halfEven_pos hden hge) _, scaleBy_den_pos Nat.one_pos _⟩

@[simp] theorem roundBinary_zero (p : Nat) : roundBinary p 0 = 0 := rfl

theorem roundBinary_pos {p : Nat} (hp : 1 ≤ p) {q : Rat} (hq : 0 < q) : 0 < roundBinary p q := by
  have hn : 0 < q.num := Rat.num_pos.mpr hq
  obtain ⟨h1, h2⟩ := roundMagnitude_pos hp (n := q.num.natAbs) (by omega) q.den_pos
  simp only [roundBinary, hn.ne', ↓reduceIte, Int.sign_eq_one_of_pos hn, one_mul]
  rw [Rat.mkRat_eq_div]
  positivity

/-- Rounding keeps zero. -/
@[simp] theorem fpRound_zero (f : FpFormat) : fpRound f 0 = 0 := by
  cases f <;> rfl

/-- Rounding keeps a positive value positive, in a format of two bits or more. -/
theorem fpRound_pos {f : FpFormat} (hf : ∀ p, f = .binary p → 2 ≤ p) {q : Rat} (hq : 0 < q) : 0 < fpRound f q := by
  cases f with
  | exact => exact hq
  | binary p => exact roundBinary_pos (by have := hf p rfl; omega) hq

/-! ## The rounding of a binary format: one description, then order, fixed points and sign -/

/-- `halfEven` is within half of the quotient, and even where it is exactly half away. -/
theorem halfEven_spec {n d : Nat} (hd : 0 < d) :
    2 * (halfEven n d * d) ≤ 2 * n + d ∧ 2 * n ≤ 2 * (halfEven n d * d) + d ∧
    (2 * (halfEven n d * d) = 2 * n + d ∨ 2 * n = 2 * (halfEven n d * d) + d → halfEven n d % 2 = 0) := by
  have hn : n = n / d * d + n % d := by rw [Nat.mul_comm]; exact (Nat.div_add_mod n d).symm
  have hr : n % d < d := Nat.mod_lt n hd
  unfold halfEven
  generalize n / d = q at *
  generalize n % d = r at *
  subst hn
  have e : (q + 1) * d = q * d + d := by ring
  split_ifs <;> (try rw [e]) <;> generalize q * d = w at * <;> refine ⟨?_, ?_, ?_⟩ <;> omega

/-- A whole quotient rounds to itself. -/
theorem halfEven_mul {m d : Nat} (hd : 0 < d) : halfEven (m * d) d = m := by
  simp [halfEven, Nat.mul_div_cancel m hd, hd]

/-- Rounding keeps the order of quotients. -/
theorem halfEven_mono {n d n' d' : Nat} (hd : 0 < d) (hd' : 0 < d') (h : n * d' ≤ n' * d) :
    halfEven n d ≤ halfEven n' d' := by
  obtain ⟨h1, h2, h3⟩ := halfEven_spec (n := n) hd
  obtain ⟨k1, k2, k3⟩ := halfEven_spec (n := n') hd'
  generalize halfEven n d = a at *
  generalize halfEven n' d' = b at *
  by_contra hab
  have hab : b + 1 ≤ a := by omega
  have hD : 0 < d * d' := Nat.mul_pos hd hd'
  have u1 : 2 * (a * (d * d')) ≤ 2 * (n * d') + d * d' := by nlinarith [Nat.mul_le_mul_right d' h1]
  have u2 : 2 * (n' * d) ≤ 2 * (b * (d * d')) + d * d' := by nlinarith [Nat.mul_le_mul_right d k2]
  have u3 : b * (d * d') + d * d' ≤ a * (d * d') := by nlinarith [Nat.mul_le_mul_right (d * d') hab]
  have ea : a = b + 1 := by
    by_contra hne
    have : b + 2 ≤ a := by omega
    nlinarith [Nat.mul_le_mul_right (d * d') this]
  subst ea
  have f1 : 2 * ((b + 1) * d) = 2 * n + d := by
    have : 2 * ((b + 1) * d) * d' = (2 * n + d) * d' := by nlinarith
    exact Nat.eq_of_mul_eq_mul_right hd' this
  have f2 : 2 * n' = 2 * (b * d') + d' := by
    have : 2 * n' * d = (2 * (b * d') + d') * d := by nlinarith
    exact Nat.eq_of_mul_eq_mul_right hd this
  have := h3 (.inl f1)
  have := k3 (.inr f2)
  omega

/-- The exponent is not too small: `n / d < 2^(e+1)`. -/
theorem lt_ilog2 {n d : Nat} (hd : 0 < d) : (n : Rat) / d < (2 : Rat) ^ (ilog2 n d + 1) := by
  have hdq : (0 : Rat) < d := by exact_mod_cast hd
  unfold ilog2
  simp only
  split_ifs with h
  · have h1 : n < 2 ^ (Nat.log2 n + 1) := Nat.lt_log2_self
    have h2 : (2 ^ Nat.log2 d : Nat) ≤ d := Nat.log2_self_le hd.ne'
    have h1q : (n : Rat) < 2 ^ (Nat.log2 n + 1) := by exact_mod_cast h1
    have h2q : (2 : Rat) ^ Nat.log2 d ≤ d := by exact_mod_cast h2
    rw [div_lt_iff₀ hdq]
    calc (n : Rat) < 2 ^ (Nat.log2 n + 1) := h1q
      _ = (2 : Rat) ^ ((Nat.log2 n : Int) - (Nat.log2 d : Int) + 1) * 2 ^ Nat.log2 d := by
          rw [← zpow_natCast, ← zpow_natCast, ← zpow_add₀ (by norm_num)]
          congr 1
          push_cast
          ring
      _ ≤ _ := mul_le_mul_of_nonneg_left h2q (by positivity)
  · have hv := scaleBy_value d 1 ((Nat.log2 n : Int) - (Nat.log2 d : Int))
    have hp : (0 : Rat) < ((scaleBy d 1 ((Nat.log2 n : Int) - (Nat.log2 d : Int))).2 : Rat) := by
      exact_mod_cast scaleBy_den_pos Nat.one_pos _
    have h' : (n : Rat) * ((scaleBy d 1 ((Nat.log2 n : Int) - (Nat.log2 d : Int))).2 : Rat) <
        ((scaleBy d 1 ((Nat.log2 n : Int) - (Nat.log2 d : Int))).1 : Rat) := by exact_mod_cast not_le.mp h
    rw [sub_add_cancel, div_lt_iff₀ hdq, mul_comm]
    have : (n : Rat) < (d : Rat) / (1 : Nat) * 2 ^ ((Nat.log2 n : Int) - (Nat.log2 d : Int)) := by
      rw [← hv]; exact (lt_div_iff₀ hp).mpr h'
    simpa using this

/-- A positive value in a binary format: a quotient of the value by a power of two with `p` bits, rounded, and the power
back. -/
theorem roundBinary_spec (p : Nat) {q : Rat} (hq : 0 < q) :
    ∃ (k : Int) (n d : Nat), 0 < d ∧ (n : Rat) / d = q * 2 ^ (-k) ∧ (2 : Rat) ^ (k + p - 1) ≤ q ∧ q < 2 ^ (k + p) ∧
      roundBinary p q = halfEven n d * 2 ^ k := by
  have hn : 0 < q.num := Rat.num_pos.mpr hq
  have hN : 0 < q.num.natAbs := by omega
  have hval : (q.num.natAbs : Rat) / q.den = q := by
    have : ((q.num.natAbs : Int) : Rat) = (q.num : Rat) := by rw [Int.natAbs_of_nonneg hn.le]
    rw [← Int.cast_natCast, this, Rat.num_div_den]
  set k : Int := ilog2 q.num.natAbs q.den - (p : Int) + 1 with hk
  refine ⟨k, (scaleBy q.num.natAbs q.den (-k)).1, (scaleBy q.num.natAbs q.den (-k)).2, scaleBy_den_pos q.den_pos (-k),
    ?_, ?_, ?_, ?_⟩
  · rw [scaleBy_value, hval]
  · rw [show k + p - 1 = ilog2 q.num.natAbs q.den by omega]
    conv_rhs => rw [← hval]
    exact ilog2_le hN q.den_pos
  · rw [show k + p = ilog2 q.num.natAbs q.den + 1 by omega]
    conv_lhs => rw [← hval]
    exact lt_ilog2 q.den_pos
  · simp only [roundBinary, hn.ne', ↓reduceIte, Int.sign_eq_one_of_pos hn, one_mul, roundMagnitude]
    rw [← hk, Rat.mkRat_eq_div]
    have := scaleBy_value (halfEven (scaleBy q.num.natAbs q.den (-k)).1 (scaleBy q.num.natAbs q.den (-k)).2) 1 k
    rw [Int.cast_natCast, this]
    simp

/-- A whole number of at most `p` bits, times a power of two, is a value of the format. -/
theorem roundBinary_fixed {p m : Nat} (hp : 1 ≤ p) (hm : 0 < m) (hmp : m ≤ 2 ^ p) (j : Int) :
    roundBinary p (m * 2 ^ j) = m * 2 ^ j := by
  have hpos : (0 : Rat) < m * 2 ^ j := by positivity
  obtain ⟨k, n, d, hd, hnd, hlo, hhi, hr⟩ := roundBinary_spec p hpos
  have whole : ∃ M : Nat, (m : Rat) * 2 ^ j * 2 ^ (-k) = M := by
    by_cases hkj : k ≤ j
    · obtain ⟨t, ht⟩ := Int.eq_ofNat_of_zero_le (by omega : 0 ≤ j - k)
      refine ⟨m * 2 ^ t, ?_⟩
      rw [mul_assoc, ← zpow_add₀ (by norm_num), show j + -k = (t : Int) by omega, zpow_natCast]
      push_cast
      ring
    · have h1 : (2 : Rat) ^ (j + p) ≤ 2 ^ (k + p - 1) := zpow_le_zpow_right₀ (by norm_num) (by omega)
      have h2 : (2 : Rat) ^ (p : Int) * 2 ^ j ≤ m * 2 ^ j := by
        rw [← zpow_add₀ (by norm_num), add_comm]; exact h1.trans hlo
      have h3 : ((2 : Nat) ^ p : Rat) ≤ m := by
        have := le_of_mul_le_mul_right h2 (by positivity : (0 : Rat) < 2 ^ j)
        rwa [zpow_natCast] at this
      have hm2 : m = 2 ^ p := le_antisymm hmp (by exact_mod_cast h3)
      have hk1 : k = j + 1 := by
        have h4 : (2 : Rat) ^ (k + p - 1) ≤ 2 ^ (j + p) := by
          refine hlo.trans (le_of_eq ?_)
          rw [hm2, add_comm, zpow_add₀ (by norm_num), zpow_natCast]; push_cast; ring
        have := (zpow_le_zpow_iff_right₀ (by norm_num : (1 : Rat) < 2)).mp h4
        omega
      obtain ⟨t, rfl⟩ := Nat.exists_eq_add_of_le hp
      refine ⟨2 ^ t, ?_⟩
      rw [hm2, hk1, mul_assoc, ← zpow_add₀ (by norm_num), show j + -(j + 1) = (-1 : Int) by omega]
      push_cast
      rw [pow_add]
      norm_num
      ring
  obtain ⟨M, hM⟩ := whole
  have hdq : (0 : Rat) < d := by exact_mod_cast hd
  have hnM : n = M * d := by
    have : (n : Rat) = M * d := by rw [← hM, ← hnd]; field_simp
    exact_mod_cast this
  rw [hr, hnM, halfEven_mul hd, ← hM, mul_assoc, ← zpow_add₀ (by norm_num)]
  simp

/-- The digits of a rounded value have `p` bits, or it is the next power of two. -/
theorem halfEven_bits {p : Nat} (hp : 1 ≤ p) {q : Rat} {k : Int} {n d : Nat} (hd : 0 < d)
    (hnd : (n : Rat) / d = q * 2 ^ (-k)) (hlo : (2 : Rat) ^ (k + p - 1) ≤ q) (hhi : q < 2 ^ (k + p)) :
    2 ^ (p - 1) ≤ halfEven n d ∧ halfEven n d ≤ 2 ^ p := by
  have hdq : (0 : Rat) < d := by exact_mod_cast hd
  have lo : 2 ^ (p - 1) * d ≤ n * 1 := by
    have h1 : (2 : Rat) ^ ((p - 1 : Nat) : Int) ≤ (n : Rat) / d := by
      rw [hnd]
      calc (2 : Rat) ^ ((p - 1 : Nat) : Int) = 2 ^ (k + p - 1) * 2 ^ (-k) := by
            rw [← zpow_add₀ (by norm_num)]; congr 1; omega
        _ ≤ _ := mul_le_mul_of_nonneg_right hlo (by positivity)
    rw [le_div_iff₀ hdq, zpow_natCast] at h1
    have : 2 ^ (p - 1) * d ≤ n := by exact_mod_cast h1
    omega
  have hi : n * 1 ≤ 2 ^ p * d := by
    have h1 : (n : Rat) / d ≤ (2 : Rat) ^ (p : Int) := by
      rw [hnd]
      calc q * 2 ^ (-k) ≤ 2 ^ (k + p) * 2 ^ (-k) := mul_le_mul_of_nonneg_right hhi.le (by positivity)
        _ = (2 : Rat) ^ (p : Int) := by rw [← zpow_add₀ (by norm_num)]; congr 1; omega
    rw [div_le_iff₀ hdq, zpow_natCast] at h1
    have : n ≤ 2 ^ p * d := by exact_mod_cast h1
    omega
  constructor
  · simpa using halfEven_mono (n := 2 ^ (p - 1) * 1) (d := 1) Nat.one_pos hd (by simpa using lo) |>.trans' (by
      rw [halfEven_mul Nat.one_pos])
  · refine (halfEven_mono (n' := 2 ^ p * 1) (d' := 1) hd Nat.one_pos (by simpa using hi)).trans ?_
    rw [halfEven_mul Nat.one_pos]

@[simp] theorem roundBinary_neg (p : Nat) (q : Rat) : roundBinary p (-q) = -roundBinary p q := by
  by_cases h : q.num = 0
  · have : q = 0 := Rat.num_eq_zero.mp h
    subst this; rfl
  · have hneg : (-q).num = -q.num := Rat.neg_num q
    simp only [roundBinary, hneg, neg_eq_zero, h, ↓reduceIte, Int.natAbs_neg, Rat.den_neg_eq_den, Int.sign_neg,
      Rat.mkRat_eq_div]
    push_cast
    ring

theorem roundBinary_idem_pos {p : Nat} (hp : 1 ≤ p) {q : Rat} (hq : 0 < q) :
    roundBinary p (roundBinary p q) = roundBinary p q := by
  obtain ⟨k, n, d, hd, hnd, hlo, hhi, hr⟩ := roundBinary_spec p hq
  obtain ⟨h1, h2⟩ := halfEven_bits hp hd hnd hlo hhi
  rw [hr]
  exact roundBinary_fixed hp (lt_of_lt_of_le (by positivity) h1) h2 k

theorem roundBinary_mono_pos {p : Nat} (hp : 1 ≤ p) {a b : Rat} (ha : 0 < a) (hab : a ≤ b) :
    roundBinary p a ≤ roundBinary p b := by
  obtain ⟨k, n, d, hd, hnd, hlo, hhi, hr⟩ := roundBinary_spec p ha
  obtain ⟨k', n', d', hd', hnd', hlo', hhi', hr'⟩ := roundBinary_spec p (lt_of_lt_of_le ha hab)
  have hdq : (0 : Rat) < d := by exact_mod_cast hd
  have hdq' : (0 : Rat) < d' := by exact_mod_cast hd'
  rw [hr, hr']
  have hkk : k ≤ k' := by
    have := (zpow_lt_zpow_iff_right₀ (by norm_num : (1 : Rat) < 2)).mp (hlo.trans_lt (hab.trans_lt hhi'))
    omega
  rcases hkk.eq_or_lt with rfl | hlt
  · have h1 : (n : Rat) / d ≤ (n' : Rat) / d' := by
      rw [hnd, hnd']; exact mul_le_mul_of_nonneg_right hab (by positivity)
    have h2 : n * d' ≤ n' * d := by
      rw [div_le_div_iff₀ hdq hdq'] at h1; exact_mod_cast h1
    have h3 : (halfEven n d : Rat) ≤ halfEven n' d' := by exact_mod_cast halfEven_mono hd hd' h2
    exact mul_le_mul_of_nonneg_right h3 (by positivity)
  · have h1 : (halfEven n d : Rat) ≤ (2 : Rat) ^ p := by exact_mod_cast (halfEven_bits hp hd hnd hlo hhi).2
    have h2 : (2 : Rat) ^ (p - 1) ≤ halfEven n' d' := by exact_mod_cast (halfEven_bits hp hd' hnd' hlo' hhi').1
    calc (halfEven n d : Rat) * 2 ^ k ≤ 2 ^ p * 2 ^ k := mul_le_mul_of_nonneg_right h1 (by positivity)
      _ = (2 : Rat) ^ (p + k) := by rw [← zpow_natCast, ← zpow_add₀ (by norm_num)]
      _ ≤ (2 : Rat) ^ (((p - 1 : Nat) : Int) + k') := zpow_le_zpow_right₀ (by norm_num) (by omega)
      _ = 2 ^ (p - 1) * 2 ^ k' := by rw [zpow_add₀ (by norm_num), zpow_natCast]
      _ ≤ _ := mul_le_mul_of_nonneg_right h2 (by positivity)

/-! ## Values of FP -/

@[simp] theorem fpRound_neg (f : FpFormat) (q : Rat) : fpRound f (-q) = -fpRound f q := by
  cases f with
  | exact => rfl
  | binary p => exact roundBinary_neg p q

/-- A rounded value is a value of the format. -/
theorem fpRound_idem {f : FpFormat} (hf : ∀ p, f = .binary p → 2 ≤ p) (q : Rat) :
    fpRound f (fpRound f q) = fpRound f q := by
  cases f with
  | exact => rfl
  | binary p =>
    have hp : 1 ≤ p := by have := hf p rfl; omega
    simp only [fpRound]
    rcases lt_trichotomy q 0 with h | rfl | h
    · have := roundBinary_idem_pos hp (neg_pos.mpr h)
      simpa using this
    · simp
    · exact roundBinary_idem_pos hp h

/-- Rounding keeps the order of positive values. -/
theorem fpRound_mono {f : FpFormat} (hf : ∀ p, f = .binary p → 2 ≤ p) {a b : Rat} (ha : 0 < a) (hab : a ≤ b) :
    fpRound f a ≤ fpRound f b := by
  cases f with
  | exact => exact hab
  | binary p => exact roundBinary_mono_pos (by have := hf p rfl; omega) ha hab

/-- The truncation of a non-negative rational is its floor. -/
theorem truncRat_of_nonneg {q : Rat} (hq : 0 ≤ q) : truncRat q = ⌊q⌋ := by
  have : 0 ≤ q.num := Rat.num_nonneg.mpr hq
  rw [truncRat, Int.tdiv_eq_ediv_of_nonneg this, Rat.floor_def']

/-- The floor of R9 is the library's. -/
theorem floorRat_eq (q : Rat) : floorRat q = ⌊q⌋ := by
  rw [floorRat, Rat.floor_def', Int.fdiv_eq_ediv_of_nonneg]
  exact Int.natCast_nonneg _

@[simp] theorem truncRat_zero : truncRat 0 = 0 := rfl

end Sys2Proof.Machine
end

