-- ==== Sys2Proof/Laws/Codec.lean ====
section
/-! SUPPORT. The codec and the opcode table: digits, lengths, and what the factory and parse answer. -/

namespace Sys2Proof

/-- A digit reads back as its value, whatever `HEX_LOWERCASE` is. -/
@[simp] theorem hexDigitToValue_hexdigit (lower : Bool) {v : Nat} (h : v < 16) :
    hexDigitToValue lower (hexdigit v) = v := by
  revert lower v
  decide

/-- A decoded digit is a nibble. -/
theorem hexDigitToValue_lt (lower : Bool) (c : Byte) : hexDigitToValue lower c < 16 := by
  unfold hexDigitToValue
  simp only
  split_ifs <;> omega

@[simp] theorem encodeBytes_length (k w : Nat) : (encodeBytes k w).length = 2 * k := by
  induction k generalizing w with
  | zero => rfl
  | succ k ih => simp [encodeBytes, ih]; omega

@[simp] theorem encodeHex_length (v : Int) (w : HexWidth) : (encodeHex v w).length = w.len := by
  cases w <;> simp [encodeHex, HexWidth.len]

/-- Every digit sent is `hexdigit` of a nibble. -/
theorem mem_encodeBytes {k w : Nat} {b : Byte} (h : b ∈ encodeBytes k w) : ∃ v, v < 16 ∧ b = hexdigit v := by
  induction k generalizing w with
  | zero => simp [encodeBytes] at h
  | succ k ih =>
    simp only [encodeBytes, List.mem_cons] at h
    rcases h with h | h | h
    · exact ⟨w % 256 / 16, by omega, h⟩
    · exact ⟨w % 256 % 16, by omega, h⟩
    · exact ih h

/-- Every variant is in the table. -/
theorem mem_opcodeTable (op : Opcode) : op ∈ opcodeTable := by cases op <;> decide

/-- No two variants share an opcode byte. -/
theorem opcode_byte_injective {a b : Opcode} (h : a.byte = b.byte) : a = b := by
  revert h
  cases a <;> cases b <;> decide

/-- The byte of a variant selects it. -/
@[simp] theorem opcodeOfByte_byte (op : Opcode) : opcodeOfByte op.byte = some op := by
  cases op <;> decide

/-- A variant is selected by its own byte only. -/
theorem opcodeOfByte_some {b : Byte} {op : Opcode} (h : opcodeOfByte b = some op) : op.byte = b := by
  simpa using List.find?_some h

/-- A byte that selects nothing is no variant's. -/
theorem opcodeOfByte_none {b : Byte} (h : opcodeOfByte b = none) (op : Opcode) : op.byte ≠ b := by
  intro hb
  rw [← hb, opcodeOfByte_byte] at h
  cases h

/-- A decoded command is of the variant it was parsed as, on the axis of its axis byte. -/
theorem parsePayload_ok {lower : Bool} {op : Opcode} {buf : List Byte} {i : Instr}
    (h : parsePayload lower op buf = .ok i) : i.opcode = op ∧ i.axis = parseAxis (buf.getD 2 0) := by
  cases op <;> simp only [parsePayload] at h
  case setMotionMode =>
    split at h
    · cases h; exact ⟨rfl, rfl⟩
    · cases h
  all_goals cases h; exact ⟨rfl, rfl⟩

/-- Parsing the fields fails only on the mode digit of `G`. -/
theorem parsePayload_fails {lower : Bool} {op : Opcode} {buf : List Byte} {r : Reject}
    (h : parsePayload lower op buf = .error r) :
    op = .setMotionMode ∧ parseMode (buf.getD 3 0) = none ∧ r = .badModeDigit := by
  cases op <;> simp only [parsePayload] at h
  case setMotionMode =>
    split at h
    · cases h
    · rename_i hm; cases h; exact ⟨rfl, hm, rfl⟩
  all_goals cases h

/-- What a successful parse has checked. -/
theorem parse_ok {c : Config} {op : Opcode} {buf : List Byte} {i : Instr} (h : parse c op buf = .ok i) :
    buf.length = requiredLen c op ∧ buf.getD 0 0 = chColon ∧ buf.getD 1 0 = op.byte ∧ 3 ≤ buf.length ∧
      parsePayload c.hexLowercase op buf = .ok i := by
  unfold parse at h
  split_ifs at h with h1 h2 h3 h4
  exact ⟨by simpa using h1, by simpa using h2, by simpa using h3, by omega, h⟩

/-- A frame that passes the common checks parses as its fields do. -/
theorem parse_of_checks {c : Config} {op : Opcode} {buf : List Byte} (h1 : buf.length = requiredLen c op)
    (h2 : buf.getD 0 0 = chColon) (h3 : buf.getD 1 0 = op.byte) (h4 : 3 ≤ buf.length) :
    parse c op buf = parsePayload c.hexLowercase op buf := by
  simp only [parse, h1, h2, h3, ne_eq, not_true_eq_false, ↓reduceIte, show ¬ requiredLen c op < 3 by omega]

/-- A decoded frame was parsed as the variant its opcode byte selects. -/
theorem decode_ok {c : Config} {buf : List Byte} {i : Instr} (h : decode c buf = .ok i) :
    2 ≤ buf.length ∧ opcodeOfByte (buf.getD 1 0) = some i.opcode ∧ parse c i.opcode buf = .ok i := by
  unfold decode at h
  split at h
  · cases h
  · rename_i op hop
    have ho : i.opcode = op := (parsePayload_ok (parse_ok h).2.2.2.2).1
    subst ho
    unfold identify at hop
    split_ifs at hop with hl
    exact ⟨by omega, hop, h⟩

/-- A decoded mode digit names a type and a speed, never NONE (R94). -/
theorem parseMode_set {b : Byte} {t : SlewType} {sp : SlewSpeed} (h : parseMode b = some (t, sp)) :
    t ≠ .unset ∧ sp ≠ .unset := by
  unfold parseMode at h
  split_ifs at h <;> cases h <;> decide

/-- A direction byte names a direction, never NONE (R95). -/
theorem parseDir_set (lower : Bool) (b : Byte) : parseDir lower b ≠ .unset := by
  unfold parseDir
  split_ifs <;> decide

/-- A decoded `G` sets all three mode registers. -/
theorem decode_setMotionMode {c : Config} {buf : List Byte} {a : Axis} {t : SlewType} {sp : SlewSpeed} {d : SlewDir}
    (h : decode c buf = .ok (.setMotionMode a t sp d)) : t ≠ .unset ∧ sp ≠ .unset ∧ d ≠ .unset := by
  have hp := (parse_ok (decode_ok h).2.2).2.2.2.2
  simp only [Instr.opcode, parsePayload] at hp
  split at hp
  · rename_i t' sp' hm
    cases hp
    exact ⟨(parseMode_set hm).1, (parseMode_set hm).2, parseDir_set _ _⟩
  · cases hp

/-- Six digits carry at most 24 bits. -/
theorem decodeHex_six_lt (lower : Bool) (s : List Byte) : decodeHex lower s 6 < 0x1000000 := by
  have d := fun i => hexDigitToValue_lt lower (s.getD i 0)
  have := d 0; have := d 1; have := d 2; have := d 3; have := d 4; have := d 5
  simp only [decodeHex]
  omega

/-- A decoded `I` carries a 24-bit period. -/
theorem decode_setStepPeriod {c : Config} {buf : List Byte} {a : Axis} {v : Nat}
    (h : decode c buf = .ok (.setStepPeriod a v)) : v < 2 ^ 24 := by
  have hp := (parse_ok (decode_ok h).2.2).2.2.2.2
  simp only [Instr.opcode, parsePayload] at hp
  cases hp
  exact decodeHex_six_lt _ _

end Sys2Proof
end

