-- ==== Sys2Proof/Laws/Config.lean ====
section
/-! SUPPORT. What a configuration that passes `configOk` gives, one fact each. -/

namespace Sys2Proof.Machine

/-- Every one of the checks holds. -/
theorem configOk_check {c : Config} (h : configOk c = true) {b : Bool}
    (hb : b ∈ (boundsChecks c ++ reportChecks c) ++ (rampChecks c ++ [reqLenFits c, ustepInjective c.ustepPattern])) :
    b = true := by
  have := List.all_eq_true.mp h b hb
  simpa using this

theorem configOk_tickUs {c : Config} (h : configOk c = true) : 0 < c.tickUs := by
  exact of_decide_eq_true (configOk_check h (b := decide (0 < c.tickUs)) (by simp [boundsChecks]))

theorem configOk_timeout {c : Config} (h : configOk c = true) : 0 < c.serialTimeoutMs := by
  exact of_decide_eq_true (configOk_check h (b := decide (0 < c.serialTimeoutMs)) (by simp [boundsChecks]))

theorem configOk_rxBufCap {c : Config} (h : configOk c = true) : 10 ≤ c.rxBufCap := by
  exact of_decide_eq_true (configOk_check h (b := decide (10 ≤ c.rxBufCap)) (by simp [boundsChecks]))

theorem configOk_rev_even {c : Config} (h : configOk c = true) : c.rev % 2 = 0 := by
  exact of_decide_eq_true (configOk_check h (b := decide (c.rev % 2 = 0)) (by simp [boundsChecks]))

theorem configOk_rev_pos {c : Config} (h : configOk c = true) : 0 < c.rev := by
  exact of_decide_eq_true (configOk_check h (b := decide (0 < c.rev)) (by simp [boundsChecks]))

theorem configOk_version {c : Config} (h : configOk c = true) :
    c.version.1 < 16 ∧ c.version.2.1 < 16 ∧ c.version.2.2.1 < 16 ∧ c.version.2.2.2 < 16 := by
  refine ⟨?_, ?_, ?_, ?_⟩
  · exact of_decide_eq_true (configOk_check h (b := decide (c.version.1 < 16)) (by simp [reportChecks]))
  · exact of_decide_eq_true (configOk_check h (b := decide (c.version.2.1 < 16)) (by simp [reportChecks]))
  · exact of_decide_eq_true (configOk_check h (b := decide (c.version.2.2.1 < 16)) (by simp [reportChecks]))
  · exact of_decide_eq_true (configOk_check h (b := decide (c.version.2.2.2 < 16)) (by simp [reportChecks]))

theorem configOk_extStatus {c : Config} (h : configOk c = true) :
    c.extStatus.1 < 16 ∧ c.extStatus.2.1 < 16 ∧ c.extStatus.2.2 < 16 := by
  refine ⟨?_, ?_, ?_⟩
  · exact of_decide_eq_true (configOk_check h (b := decide (c.extStatus.1 < 16)) (by simp [reportChecks]))
  · exact of_decide_eq_true (configOk_check h (b := decide (c.extStatus.2.1 < 16)) (by simp [reportChecks]))
  · exact of_decide_eq_true (configOk_check h (b := decide (c.extStatus.2.2 < 16)) (by simp [reportChecks]))

theorem configOk_stepPeriodInit {c : Config} (h : configOk c = true) : c.stepPeriodInit < 2 ^ 24 := by
  exact of_decide_eq_true (configOk_check h (b := decide (c.stepPeriodInit < 2 ^ 24)) (by simp [reportChecks]))

theorem configOk_accel_pos {c : Config} (h : configOk c = true) : 0 < c.accel := by
  have : 0 < c.accel.num := by
    exact of_decide_eq_true (configOk_check h (b := decide (0 < c.accel.num)) (by simp [rampChecks]))
  exact Rat.num_pos.mp this

theorem configOk_cmin_pos {c : Config} (h : configOk c = true) : 0 < c.cmin := by
  have : 0 < c.cmin.num := by
    exact of_decide_eq_true (configOk_check h (b := decide (0 < c.cmin.num)) (by simp [rampChecks]))
  exact Rat.num_pos.mp this

theorem configOk_maxSpeed_pos {c : Config} (h : configOk c = true) : 0 < c.maxSpeed := by
  have : 0 < c.maxSpeed.num := by
    exact of_decide_eq_true (configOk_check h (b := decide (0 < c.maxSpeed.num)) (by simp [rampChecks]))
  exact Rat.num_pos.mp this

theorem configOk_cmin_le_c0 {c : Config} (h : configOk c = true) : c.cmin ≤ c.c0 := by
  have : c.cmin.num * c.c0.den ≤ c.c0.num * c.cmin.den := by
    exact of_decide_eq_true (configOk_check h (b := decide (c.cmin.num * c.c0.den ≤ c.c0.num * c.cmin.den)) (by simp [rampChecks]))
  exact (Rat.le_iff _ _).mpr this

theorem configOk_genNegInf {c : Config} (h : configOk c = true) : c.genNegInf < 0 := by
  exact of_decide_eq_true (configOk_check h (b := decide (c.genNegInf < 0)) (by simp [rampChecks]))

theorem configOk_genPosInf {c : Config} (h : configOk c = true) : 0 < c.genPosInf := by
  exact of_decide_eq_true (configOk_check h (b := decide (0 < c.genPosInf)) (by simp [rampChecks]))

theorem configOk_fp {c : Config} (h : configOk c = true) : fpFits c.fp = true :=
  configOk_check h (by simp [rampChecks])

/-- The saturated distance is larger than any stopping distance, in R7's own words. -/
theorem configOk_distInf {c : Config} (h : configOk c = true) :
    c.maxSpeed ^ 2 / (2 * c.accel) + 1 < (c.distInf : Rat) := by
  have hd : distInfFits c = true := configOk_check h (by simp [rampChecks])
  have ha := configOk_accel_pos h
  have hi : c.maxSpeed.num * c.maxSpeed.num * c.accel.den <
      (c.distInf - 1) * (2 * c.accel.num * (c.maxSpeed.den * c.maxSpeed.den)) := by
    simpa [distInfFits] using hd
  have hq : ((c.maxSpeed.num * c.maxSpeed.num * c.accel.den : Int) : Rat) <
      (((c.distInf - 1) * (2 * c.accel.num * (c.maxSpeed.den * c.maxSpeed.den)) : Int) : Rat) := by
    exact_mod_cast hi
  push_cast at hq
  have hm : (0 : Rat) < c.maxSpeed.den := by exact_mod_cast c.maxSpeed.den_pos
  have hA : (0 : Rat) < c.accel.den := by exact_mod_cast c.accel.den_pos
  have hmv : (c.maxSpeed.num : Rat) = c.maxSpeed * c.maxSpeed.den := (Rat.mul_den_eq_num c.maxSpeed).symm
  have hav : (c.accel.num : Rat) = c.accel * c.accel.den := (Rat.mul_den_eq_num c.accel).symm
  rw [hmv, hav] at hq
  have hlt : c.maxSpeed ^ 2 < (c.distInf - 1) * (2 * c.accel) := by
    have hp : (0 : Rat) < c.maxSpeed.den ^ 2 * c.accel.den := by positivity
    refine lt_of_mul_lt_mul_right ?_ hp.le
    calc c.maxSpeed ^ 2 * (c.maxSpeed.den ^ 2 * c.accel.den)
        = c.maxSpeed * c.maxSpeed.den * (c.maxSpeed * c.maxSpeed.den) * c.accel.den := by ring
      _ < (c.distInf - 1) * (2 * (c.accel * c.accel.den) * (c.maxSpeed.den * c.maxSpeed.den)) := hq
      _ = (c.distInf - 1) * (2 * c.accel) * (c.maxSpeed.den ^ 2 * c.accel.den) := by ring
  have := (div_lt_iff₀ (by positivity : (0 : Rat) < 2 * c.accel)).mpr hlt
  linarith

/-- The saturated distance is positive: a sentinel target is never reached (R202). -/
theorem configOk_distInf_pos {c : Config} (h : configOk c = true) : 0 < c.distInf := by
  have h1 := configOk_distInf h
  have ha := configOk_accel_pos h
  have h2 : (0 : Rat) ≤ c.maxSpeed ^ 2 / (2 * c.accel) := by positivity
  have : (0 : Rat) < c.distInf := by linarith
  exact_mod_cast this

/-- A required length holds the command's fields and leaves room in the buffer (log 8). -/
theorem configOk_reqLen {c : Config} (h : configOk c = true) (op : Opcode) :
    op.defaultLen ≤ requiredLen c op ∧ requiredLen c op < c.rxBufCap := by
  have hr : reqLenFits c = true := configOk_check h (by simp)
  have hm : op ∈ opcodeTable := by cases op <;> decide
  have := List.all_eq_true.mp hr op hm
  simpa using this

/-- The six microstep patterns are distinct (R7). -/
theorem configOk_ustep {c : Config} (h : configOk c = true) : ustepInjective c.ustepPattern = true :=
  configOk_check h (by simp)

end Sys2Proof.Machine
end

