-- ==== Sys2Proof/Laws/Memory.lean ====
section
/-! SUPPORT. The receive buffer: read after write, that every memory operation keeps the canonical form, and that equal
contents are equal data (log 7). -/

namespace Sys2Proof.Machine

/-! ## Reading -/

theorem memRead_memErase_self (m : Memory) (i : Nat) : memRead (memErase m i) i = unlistedByte := by
  induction m with
  | nil => rfl
  | cons p rest ih =>
    obtain ⟨k, v⟩ := p
    simp only [memErase, List.filter_cons] at ih ⊢
    by_cases h : k = i
    · simpa [h] using ih
    · simpa [h, memRead] using ih

theorem memRead_memErase_of_ne {i j : Nat} (h : j ≠ i) (m : Memory) : memRead (memErase m i) j = memRead m j := by
  induction m with
  | nil => rfl
  | cons p rest ih =>
    obtain ⟨k, v⟩ := p
    simp only [memErase, List.filter_cons] at ih ⊢
    by_cases hk : k = i
    · subst hk; simpa [memRead, h.symm] using ih
    · simp [hk, memRead, ih]

theorem memRead_memInsert_self (m : Memory) (i : Nat) (b : Byte) : memRead (memInsert m i b) i = b := by
  induction m with
  | nil => simp [memInsert, memRead]
  | cons p rest ih =>
    obtain ⟨k, v⟩ := p
    simp only [memInsert]
    split_ifs with h1 h2
    · simp [memRead]
    · simp [memRead]
    · simp [memRead, Ne.symm h2, ih]

theorem memRead_memInsert_of_ne {i j : Nat} (h : j ≠ i) (m : Memory) (b : Byte) :
    memRead (memInsert m i b) j = memRead m j := by
  induction m with
  | nil => simp [memInsert, memRead, h.symm]
  | cons p rest ih =>
    obtain ⟨k, v⟩ := p
    simp only [memInsert]
    split_ifs with h1 h2
    · simp [memRead, h.symm]
    · subst h2; simp [memRead, h.symm]
    · simp [memRead, ih]

@[simp] theorem memRead_memWrite_self (m : Memory) (i : Nat) (b : Byte) : memRead (memWrite m i b) i = b := by
  unfold memWrite
  split_ifs with h
  · rw [memRead_memErase_self, h]
  · exact memRead_memInsert_self m i b

theorem memRead_memWrite_of_ne {i j : Nat} (h : j ≠ i) (m : Memory) (b : Byte) :
    memRead (memWrite m i b) j = memRead m j := by
  unfold memWrite
  split_ifs
  · exact memRead_memErase_of_ne h m
  · exact memRead_memInsert_of_ne h m b

/-! ## The canonical form -/

theorem mem_memInsert {m : Memory} {i : Nat} {b : Byte} {p : Host.Cell} (h : p ∈ memInsert m i b) :
    p = (i, b) ∨ p ∈ m := by
  induction m with
  | nil => simpa [memInsert] using h
  | cons q rest ih =>
    obtain ⟨k, v⟩ := q
    simp only [memInsert] at h
    split_ifs at h with h1 h2
    · simpa using h
    · rcases List.mem_cons.mp h with h | h
      · exact .inl h
      · exact .inr (List.mem_cons_of_mem _ h)
    · rcases List.mem_cons.mp h with h | h
      · exact .inr (by simp [h])
      · rcases ih h with h | h
        · exact .inl h
        · exact .inr (List.mem_cons_of_mem _ h)

/-- What a write lists: the written pair and entries of before. -/
theorem mem_memWrite {m : Memory} {i : Nat} {b : Byte} {p : Host.Cell} (h : p ∈ memWrite m i b) :
    p = (i, b) ∨ p ∈ m := by
  unfold memWrite at h
  split_ifs at h
  · exact .inr (List.mem_of_mem_filter h)
  · exact mem_memInsert h

theorem memInsert_rising {m : Memory} (h : m.Pairwise fun a b => a.1 < b.1) (i : Nat) (b : Byte) :
    (memInsert m i b).Pairwise fun a b => a.1 < b.1 := by
  induction m with
  | nil => simp [memInsert]
  | cons q rest ih =>
    obtain ⟨k, v⟩ := q
    have hr := List.pairwise_cons.mp h
    simp only [memInsert]
    split_ifs with h1 h2
    · refine List.pairwise_cons.mpr ⟨fun p hp => ?_, h⟩
      rcases List.mem_cons.mp hp with rfl | hp
      · exact h1
      · exact lt_trans h1 (hr.1 p hp)
    · subst h2
      exact List.pairwise_cons.mpr ⟨fun p hp => hr.1 p hp, hr.2⟩
    · refine List.pairwise_cons.mpr ⟨fun p hp => ?_, ih hr.2⟩
      rcases mem_memInsert hp with rfl | hp
      · show k < i
        omega
      · exact hr.1 p hp

/-- A write keeps the canonical form. -/
theorem memWrite_wf {m : Memory} (h : Memory.wf m) (i : Nat) (b : Byte) : Memory.wf (memWrite m i b) := by
  unfold memWrite
  split_ifs with hb
  · exact ⟨h.1.filter _, fun p hp => h.2 p (List.mem_of_mem_filter hp)⟩
  · refine ⟨memInsert_rising h.1 i b, fun p hp => ?_⟩
    rcases mem_memInsert hp with rfl | hp
    · exact hb
    · exact h.2 p hp

/-- Loading a string keeps the canonical form. -/
theorem memLoad_wf {m : Memory} (h : Memory.wf m) (i : Nat) (bs : List Byte) : Memory.wf (memLoad m i bs) := by
  induction bs generalizing m i with
  | nil => exact h
  | cons b bs ih => exact ih (memWrite_wf h i b) (i + 1)

theorem rxAppend_wf {s : State} (h : Memory.wf s.rxBuf) (b : Byte) : Memory.wf (rxAppend b s).rxBuf := by
  unfold rxAppend
  split_ifs
  · exact memWrite_wf h _ _
  · exact h

/-- Below every listed index a memory reads as unlisted. -/
theorem memRead_of_lt {m : Memory} {i : Nat} (h : ∀ p ∈ m, i < p.1) : memRead m i = unlistedByte := by
  induction m with
  | nil => rfl
  | cons p rest ih =>
    obtain ⟨k, v⟩ := p
    have hk : i < k := h (k, v) (by simp)
    simp only [memRead, if_neg (Nat.ne_of_gt hk)]
    exact ih fun p hp => h p (List.mem_cons_of_mem _ hp)

/-- Canonical memories with equal bytes are equal data. -/
theorem memory_ext {m m' : Memory} (h : Memory.wf m) (h' : Memory.wf m') (hr : ∀ i, memRead m i = memRead m' i) :
    m = m' := by
  induction m generalizing m' with
  | nil =>
    cases m' with
    | nil => rfl
    | cons p rest =>
      have := hr p.1
      simp only [memRead, ↓reduceIte] at this
      exact absurd this.symm (h'.2 p (by simp))
  | cons p rest ih =>
    obtain ⟨k, v⟩ := p
    have hp := List.pairwise_cons.mp h.1
    cases m' with
    | nil =>
      have := hr k
      simp only [memRead, ↓reduceIte] at this
      exact absurd this (h.2 (k, v) (by simp))
    | cons q rest' =>
      obtain ⟨k', v'⟩ := q
      have hq := List.pairwise_cons.mp h'.1
      have hkk : k = k' := by
        rcases Nat.lt_trichotomy k k' with hlt | heq | hgt
        · have h1 := hr k
          rw [memRead_of_lt (m := (k', v') :: rest')] at h1
          · simp only [memRead, ↓reduceIte] at h1
            exact absurd h1 (h.2 (k, v) (by simp))
          · intro p hp
            rcases List.mem_cons.mp hp with rfl | hp
            · exact hlt
            · exact lt_trans hlt (hq.1 p hp)
        · exact heq
        · have h1 := (hr k').symm
          rw [memRead_of_lt (m := (k, v) :: rest)] at h1
          · simp only [memRead, ↓reduceIte] at h1
            exact absurd h1 (h'.2 (k', v') (by simp))
          · intro q hq'
            rcases List.mem_cons.mp hq' with rfl | hq'
            · exact hgt
            · exact lt_trans hgt (hp.1 q hq')
      subst hkk
      have hv : v = v' := by simpa [memRead] using hr k
      subst hv
      refine congrArg _ (ih ⟨hp.2, fun p hp => h.2 p (List.mem_cons_of_mem _ hp)⟩
        ⟨hq.2, fun p hp => h'.2 p (List.mem_cons_of_mem _ hp)⟩ fun i => ?_)
      by_cases hi : k = i
      · subst hi
        rw [memRead_of_lt fun p hp' => hp.1 p hp', memRead_of_lt fun p hp' => hq.1 p hp']
      · simpa [memRead, hi] using hr i

/-! ## The frame held -/

/-- Below the old length nothing of the frame changes. -/
theorem rxRead_rxAppend_of_lt {s : State} {i : Nat} (h : i < s.rxLen) (b : Byte) :
    rxRead i (rxAppend b s) = rxRead i s := by
  unfold rxAppend
  split_ifs
  · exact memRead_memWrite_of_ne (Nat.ne_of_lt h) _ _
  · rfl

/-- An appended byte is read back at the old length. -/
theorem rxRead_rxAppend_self {s : State} (h : s.rxLen < s.cfg.rxBufCap) (b : Byte) :
    rxRead s.rxLen (rxAppend b s) = b := by
  simp [rxAppend, h, rxRead]

/-- A held frame has `rx_len` bytes. -/
@[simp] theorem heldFrame_length (s : State) : (heldFrame s).length = s.rxLen := by simp [heldFrame]

/-- The bytes of a held frame, one by one. -/
theorem heldFrame_getElem? {s : State} {i : Nat} (h : i < s.rxLen) : (heldFrame s)[i]? = some (rxRead i s) := by
  simp [heldFrame, h]

/-- The frame held is that of the buffer's bytes and length alone. -/
theorem heldFrame_congr {s t : State} (hb : t.rxBuf = s.rxBuf) (hl : t.rxLen = s.rxLen) : heldFrame t = heldFrame s := by
  simp [heldFrame, rxRead, hb, hl]

/-- An appended byte ends the frame. -/
theorem heldFrame_rxAppend {s : State} (h : s.rxLen < s.cfg.rxBufCap) (b : Byte) :
    heldFrame (rxAppend b s) = heldFrame s ++ [b] := by
  have hl : (rxAppend b s).rxLen = s.rxLen + 1 := by simp [rxAppend, h]
  unfold heldFrame
  rw [hl, List.range_succ, List.map_append, List.map_singleton, rxRead_rxAppend_self h]
  congr 1
  exact List.map_congr_left fun i hi => rxRead_rxAppend_of_lt (List.mem_range.mp hi) b

end Sys2Proof.Machine
end

