-- ==== Sys2Proof/Laws/State.lean ====
section
/-! SUPPORT. One small lemma per field per update: what each record update of the machine leaves and what it writes. -/

namespace Sys2Proof.Machine

/-! ## Motors of a state -/

@[simp] theorem motor_ra (s : State) : motor .ra s = s.ra := rfl
@[simp] theorem motor_dec (s : State) : motor .dec s = s.dec := rfl
@[simp] theorem motor_setMotor_self (m : MotorId) (ax : AxisMotor) (s : State) : motor m (setMotor m ax s) = ax := by
  cases m <;> rfl
theorem motor_setMotor_of_ne {m k : MotorId} (h : k ≠ m) (ax : AxisMotor) (s : State) :
    motor k (setMotor m ax s) = motor k s := by
  cases m <;> cases k <;> first | rfl | exact absurd rfl h
@[simp] theorem setMotor_motor (m : MotorId) (s : State) : setMotor m (motor m s) s = s := by
  cases m <;> rfl

@[simp] theorem setMotor_cfg (m : MotorId) (ax : AxisMotor) (s : State) : (setMotor m ax s).cfg = s.cfg := by
  cases m <;> rfl
@[simp] theorem setMotor_nowMs (m : MotorId) (ax : AxisMotor) (s : State) : (setMotor m ax s).nowMs = s.nowMs := by
  cases m <;> rfl
@[simp] theorem setMotor_inputs (m : MotorId) (ax : AxisMotor) (s : State) : (setMotor m ax s).inputs = s.inputs := by
  cases m <;> rfl
@[simp] theorem setMotor_rxBuf (m : MotorId) (ax : AxisMotor) (s : State) : (setMotor m ax s).rxBuf = s.rxBuf := by
  cases m <;> rfl
@[simp] theorem setMotor_rxLen (m : MotorId) (ax : AxisMotor) (s : State) : (setMotor m ax s).rxLen = s.rxLen := by
  cases m <;> rfl
@[simp] theorem setMotor_lastRxMs (m : MotorId) (ax : AxisMotor) (s : State) : (setMotor m ax s).lastRxMs = s.lastRxMs := by
  cases m <;> rfl
@[simp] theorem setMotor_led (m : MotorId) (ax : AxisMotor) (s : State) : (setMotor m ax s).led = s.led := by
  cases m <;> rfl
@[simp] theorem setMotor_ledPort (m : MotorId) (ax : AxisMotor) (s : State) : (setMotor m ax s).ledPort = s.ledPort := by
  cases m <;> rfl
@[simp] theorem setMotor_tx (m : MotorId) (ax : AxisMotor) (s : State) : (setMotor m ax s).tx = s.tx := by
  cases m <;> rfl

/-! ## Replies -/

@[simp] theorem send_cfg (r : Reply) (s : State) : (send r s).cfg = s.cfg := rfl
@[simp] theorem send_nowMs (r : Reply) (s : State) : (send r s).nowMs = s.nowMs := rfl
@[simp] theorem send_inputs (r : Reply) (s : State) : (send r s).inputs = s.inputs := rfl
@[simp] theorem send_rxBuf (r : Reply) (s : State) : (send r s).rxBuf = s.rxBuf := rfl
@[simp] theorem send_rxLen (r : Reply) (s : State) : (send r s).rxLen = s.rxLen := rfl
@[simp] theorem send_lastRxMs (r : Reply) (s : State) : (send r s).lastRxMs = s.lastRxMs := rfl
@[simp] theorem send_led (r : Reply) (s : State) : (send r s).led = s.led := rfl
@[simp] theorem send_ledPort (r : Reply) (s : State) : (send r s).ledPort = s.ledPort := rfl
@[simp] theorem send_ra (r : Reply) (s : State) : (send r s).ra = s.ra := rfl
@[simp] theorem send_dec (r : Reply) (s : State) : (send r s).dec = s.dec := rfl
@[simp] theorem send_tx (r : Reply) (s : State) : (send r s).tx = s.tx ++ replyBytes r := rfl
@[simp] theorem motor_send (m : MotorId) (r : Reply) (s : State) : motor m (send r s) = motor m s := by
  cases m <;> rfl

/-! ## The framer's updates -/

@[simp] theorem clearFrame_cfg (s : State) : (clearFrame s).cfg = s.cfg := rfl
@[simp] theorem clearFrame_nowMs (s : State) : (clearFrame s).nowMs = s.nowMs := rfl
@[simp] theorem clearFrame_inputs (s : State) : (clearFrame s).inputs = s.inputs := rfl
@[simp] theorem clearFrame_rxBuf (s : State) : (clearFrame s).rxBuf = s.rxBuf := rfl
@[simp] theorem clearFrame_rxLen (s : State) : (clearFrame s).rxLen = 0 := rfl
@[simp] theorem clearFrame_lastRxMs (s : State) : (clearFrame s).lastRxMs = s.lastRxMs := rfl
@[simp] theorem clearFrame_led (s : State) : (clearFrame s).led = s.led := rfl
@[simp] theorem clearFrame_ledPort (s : State) : (clearFrame s).ledPort = s.ledPort := rfl
@[simp] theorem clearFrame_ra (s : State) : (clearFrame s).ra = s.ra := rfl
@[simp] theorem clearFrame_dec (s : State) : (clearFrame s).dec = s.dec := rfl
@[simp] theorem clearFrame_tx (s : State) : (clearFrame s).tx = s.tx := rfl
@[simp] theorem motor_clearFrame (m : MotorId) (s : State) : motor m (clearFrame s) = motor m s := by
  cases m <;> rfl
@[simp] theorem rxAppend_cfg (b : Byte) (s : State) : (rxAppend b s).cfg = s.cfg := by
  unfold rxAppend; split <;> rfl
@[simp] theorem rxAppend_nowMs (b : Byte) (s : State) : (rxAppend b s).nowMs = s.nowMs := by
  unfold rxAppend; split <;> rfl
@[simp] theorem rxAppend_inputs (b : Byte) (s : State) : (rxAppend b s).inputs = s.inputs := by
  unfold rxAppend; split <;> rfl
@[simp] theorem rxAppend_lastRxMs (b : Byte) (s : State) : (rxAppend b s).lastRxMs = s.lastRxMs := by
  unfold rxAppend; split <;> rfl
@[simp] theorem rxAppend_led (b : Byte) (s : State) : (rxAppend b s).led = s.led := by
  unfold rxAppend; split <;> rfl
@[simp] theorem rxAppend_ledPort (b : Byte) (s : State) : (rxAppend b s).ledPort = s.ledPort := by
  unfold rxAppend; split <;> rfl
@[simp] theorem rxAppend_ra (b : Byte) (s : State) : (rxAppend b s).ra = s.ra := by
  unfold rxAppend; split <;> rfl
@[simp] theorem rxAppend_dec (b : Byte) (s : State) : (rxAppend b s).dec = s.dec := by
  unfold rxAppend; split <;> rfl
@[simp] theorem rxAppend_tx (b : Byte) (s : State) : (rxAppend b s).tx = s.tx := by
  unfold rxAppend; split <;> rfl
@[simp] theorem motor_rxAppend (m : MotorId) (b : Byte) (s : State) : motor m (rxAppend b s) = motor m s := by
  cases m <;> simp

/-! ## The arrival of an event -/

@[simp] theorem arrive_cfg (a : Arrival) (rest : List Arrival) (s : State) : (arrive a rest s).cfg = s.cfg := rfl
@[simp] theorem arrive_nowMs (a : Arrival) (rest : List Arrival) (s : State) : (arrive a rest s).nowMs = s.nowMs + a.elapsedMs := rfl
@[simp] theorem arrive_inputs (a : Arrival) (rest : List Arrival) (s : State) : (arrive a rest s).inputs = rest := rfl
@[simp] theorem arrive_rxBuf (a : Arrival) (rest : List Arrival) (s : State) : (arrive a rest s).rxBuf = s.rxBuf := rfl
@[simp] theorem arrive_rxLen (a : Arrival) (rest : List Arrival) (s : State) : (arrive a rest s).rxLen = s.rxLen := rfl
@[simp] theorem arrive_lastRxMs (a : Arrival) (rest : List Arrival) (s : State) : (arrive a rest s).lastRxMs = s.lastRxMs := rfl
@[simp] theorem arrive_led (a : Arrival) (rest : List Arrival) (s : State) : (arrive a rest s).led = s.led := rfl
@[simp] theorem arrive_ledPort (a : Arrival) (rest : List Arrival) (s : State) : (arrive a rest s).ledPort = s.ledPort := rfl
@[simp] theorem arrive_ra (a : Arrival) (rest : List Arrival) (s : State) : (arrive a rest s).ra = s.ra := rfl
@[simp] theorem arrive_dec (a : Arrival) (rest : List Arrival) (s : State) : (arrive a rest s).dec = s.dec := rfl
@[simp] theorem arrive_tx (a : Arrival) (rest : List Arrival) (s : State) : (arrive a rest s).tx = s.tx := rfl
@[simp] theorem motor_arrive (m : MotorId) (a : Arrival) (rest : List Arrival) (s : State) :
    motor m (arrive a rest s) = motor m s := by
  cases m <;> rfl

/-! ## Power-on -/

@[simp] theorem powerOn_cfg (c : Config) (now : Nat) (rest : List Arrival) : (State.powerOn c now rest).cfg = c := rfl
@[simp] theorem powerOn_nowMs (c : Config) (now : Nat) (rest : List Arrival) : (State.powerOn c now rest).nowMs = now := rfl
@[simp] theorem powerOn_inputs (c : Config) (now : Nat) (rest : List Arrival) : (State.powerOn c now rest).inputs = rest := rfl
@[simp] theorem powerOn_rxBuf (c : Config) (now : Nat) (rest : List Arrival) : (State.powerOn c now rest).rxBuf = [] := rfl
@[simp] theorem powerOn_rxLen (c : Config) (now : Nat) (rest : List Arrival) : (State.powerOn c now rest).rxLen = 0 := rfl
@[simp] theorem powerOn_lastRxMs (c : Config) (now : Nat) (rest : List Arrival) : (State.powerOn c now rest).lastRxMs = now := rfl
@[simp] theorem powerOn_led (c : Config) (now : Nat) (rest : List Arrival) : (State.powerOn c now rest).led = 0 := rfl
@[simp] theorem powerOn_ledPort (c : Config) (now : Nat) (rest : List Arrival) : (State.powerOn c now rest).ledPort = none := rfl
@[simp] theorem powerOn_ra (c : Config) (now : Nat) (rest : List Arrival) : (State.powerOn c now rest).ra = AxisMotor.reset c := rfl
@[simp] theorem powerOn_dec (c : Config) (now : Nat) (rest : List Arrival) : (State.powerOn c now rest).dec = AxisMotor.reset c := rfl
@[simp] theorem powerOn_tx (c : Config) (now : Nat) (rest : List Arrival) : (State.powerOn c now rest).tx = [] := rfl

/-! ## Updates of an axis motor -/

@[simp] theorem emitStep_position (ax : AxisMotor) : (emitStep ax).position = ax.position := rfl
@[simp] theorem emitStep_target (ax : AxisMotor) : (emitStep ax).target = ax.target := rfl
@[simp] theorem emitStep_moving (ax : AxisMotor) : (emitStep ax).moving = ax.moving := rfl
@[simp] theorem emitStep_stopping (ax : AxisMotor) : (emitStep ax).stopping = ax.stopping := rfl
@[simp] theorem emitStep_slewType (ax : AxisMotor) : (emitStep ax).slewType = ax.slewType := rfl
@[simp] theorem emitStep_slewSpeed (ax : AxisMotor) : (emitStep ax).slewSpeed = ax.slewSpeed := rfl
@[simp] theorem emitStep_slewDir (ax : AxisMotor) : (emitStep ax).slewDir = ax.slewDir := rfl
@[simp] theorem emitStep_stepPeriod (ax : AxisMotor) : (emitStep ax).stepPeriod = ax.stepPeriod := rfl
@[simp] theorem emitStep_tickCount (ax : AxisMotor) : (emitStep ax).tickCount = ax.tickCount := rfl
@[simp] theorem emitStep_dirPin (ax : AxisMotor) : (emitStep ax).dirPin = ax.dirPin := rfl
@[simp] theorem emitStep_msPin (ax : AxisMotor) : (emitStep ax).msPin = ax.msPin := rfl
@[simp] theorem emitStep_stepPin (ax : AxisMotor) : (emitStep ax).stepPin = false := rfl
@[simp] theorem emitStep_pulses (ax : AxisMotor) : (emitStep ax).pulses = ax.pulses + 1 := rfl
@[simp] theorem emitStep_g (ax : AxisMotor) : (emitStep ax).g = ax.g := rfl
@[simp] theorem run_position (ax : AxisMotor) : (run ax).position = ax.position := rfl
@[simp] theorem run_target (ax : AxisMotor) : (run ax).target = ax.target := rfl
@[simp] theorem run_moving (ax : AxisMotor) : (run ax).moving = ax.moving := rfl
@[simp] theorem run_stopping (ax : AxisMotor) : (run ax).stopping = ax.stopping := rfl
@[simp] theorem run_slewType (ax : AxisMotor) : (run ax).slewType = ax.slewType := rfl
@[simp] theorem run_slewSpeed (ax : AxisMotor) : (run ax).slewSpeed = ax.slewSpeed := rfl
@[simp] theorem run_slewDir (ax : AxisMotor) : (run ax).slewDir = ax.slewDir := rfl
@[simp] theorem run_stepPeriod (ax : AxisMotor) : (run ax).stepPeriod = ax.stepPeriod := rfl
@[simp] theorem run_tickCount (ax : AxisMotor) : (run ax).tickCount = ax.tickCount := rfl
@[simp] theorem run_dirPin (ax : AxisMotor) : (run ax).dirPin = ax.dirPin := rfl
@[simp] theorem run_msPin (ax : AxisMotor) : (run ax).msPin = ax.msPin := rfl
@[simp] theorem run_stepPin (ax : AxisMotor) : (run ax).stepPin = false := rfl
@[simp] theorem run_pulses (ax : AxisMotor) : (run ax).pulses = ax.pulses + 1 := rfl
@[simp] theorem run_g_position (ax : AxisMotor) : (run ax).g.position = ax.g.position + dirValue ax.g.dir := rfl
@[simp] theorem run_g_target (ax : AxisMotor) : (run ax).g.target = ax.g.target := rfl
@[simp] theorem run_g_speed (ax : AxisMotor) : (run ax).g.speed = ax.g.speed := rfl
@[simp] theorem run_g_cn (ax : AxisMotor) : (run ax).g.cn = ax.g.cn := rfl
@[simp] theorem run_g_n (ax : AxisMotor) : (run ax).g.n = ax.g.n := rfl
@[simp] theorem run_g_pps (ax : AxisMotor) : (run ax).g.pps = ax.g.pps := rfl
@[simp] theorem run_g_dir (ax : AxisMotor) : (run ax).g.dir = ax.g.dir := rfl
@[simp] theorem setMs_position (c : Config) (m : Nat) (ax : AxisMotor) : (setMs c m ax).position = ax.position := rfl
@[simp] theorem setMs_target (c : Config) (m : Nat) (ax : AxisMotor) : (setMs c m ax).target = ax.target := rfl
@[simp] theorem setMs_moving (c : Config) (m : Nat) (ax : AxisMotor) : (setMs c m ax).moving = ax.moving := rfl
@[simp] theorem setMs_stopping (c : Config) (m : Nat) (ax : AxisMotor) : (setMs c m ax).stopping = ax.stopping := rfl
@[simp] theorem setMs_slewType (c : Config) (m : Nat) (ax : AxisMotor) : (setMs c m ax).slewType = ax.slewType := rfl
@[simp] theorem setMs_slewSpeed (c : Config) (m : Nat) (ax : AxisMotor) : (setMs c m ax).slewSpeed = ax.slewSpeed := rfl
@[simp] theorem setMs_slewDir (c : Config) (m : Nat) (ax : AxisMotor) : (setMs c m ax).slewDir = ax.slewDir := rfl
@[simp] theorem setMs_stepPeriod (c : Config) (m : Nat) (ax : AxisMotor) : (setMs c m ax).stepPeriod = ax.stepPeriod := rfl
@[simp] theorem setMs_tickCount (c : Config) (m : Nat) (ax : AxisMotor) : (setMs c m ax).tickCount = ax.tickCount := rfl
@[simp] theorem setMs_dirPin (c : Config) (m : Nat) (ax : AxisMotor) : (setMs c m ax).dirPin = ax.dirPin := rfl
@[simp] theorem setMs_msPin (c : Config) (m : Nat) (ax : AxisMotor) : (setMs c m ax).msPin = ustepLevels c.ustepPattern m := rfl
@[simp] theorem setMs_stepPin (c : Config) (m : Nat) (ax : AxisMotor) : (setMs c m ax).stepPin = ax.stepPin := rfl
@[simp] theorem setMs_pulses (c : Config) (m : Nat) (ax : AxisMotor) : (setMs c m ax).pulses = ax.pulses := rfl
@[simp] theorem setMs_g (c : Config) (m : Nat) (ax : AxisMotor) : (setMs c m ax).g = ax.g := rfl

/-! ## Updates of a step generator -/

@[simp] theorem rampStop_position (g : StepGen) : (rampStop g).position = g.position := rfl
@[simp] theorem rampStop_target (g : StepGen) : (rampStop g).target = g.target := rfl
@[simp] theorem rampStop_speed (g : StepGen) : (rampStop g).speed = 0 := rfl
@[simp] theorem rampStop_cn (g : StepGen) : (rampStop g).cn = g.cn := rfl
@[simp] theorem rampStop_n (g : StepGen) : (rampStop g).n = 0 := rfl
@[simp] theorem rampStop_pps (g : StepGen) : (rampStop g).pps = 0 := rfl
@[simp] theorem rampStop_dir (g : StepGen) : (rampStop g).dir = g.dir := rfl
@[simp] theorem resetZero_position (g : StepGen) : (resetZero g).position = 0 := rfl
@[simp] theorem resetZero_target (g : StepGen) : (resetZero g).target = 0 := rfl
@[simp] theorem resetZero_speed (g : StepGen) : (resetZero g).speed = 0 := rfl
@[simp] theorem resetZero_cn (g : StepGen) : (resetZero g).cn = g.cn := rfl
@[simp] theorem resetZero_n (g : StepGen) : (resetZero g).n = 0 := rfl
@[simp] theorem resetZero_pps (g : StepGen) : (resetZero g).pps = 0 := rfl
@[simp] theorem resetZero_dir (g : StepGen) : (resetZero g).dir = g.dir := rfl
@[simp] theorem rampRecur_position (c : Config) (g : StepGen) : (rampRecur c g).position = g.position := rfl
@[simp] theorem rampRecur_target (c : Config) (g : StepGen) : (rampRecur c g).target = g.target := rfl
@[simp] theorem rampRecur_speed (c : Config) (g : StepGen) : (rampRecur c g).speed = g.speed := rfl
@[simp] theorem rampRecur_n (c : Config) (g : StepGen) : (rampRecur c g).n = g.n := rfl
@[simp] theorem rampRecur_pps (c : Config) (g : StepGen) : (rampRecur c g).pps = g.pps := rfl
@[simp] theorem rampRecur_dir (c : Config) (g : StepGen) : (rampRecur c g).dir = g.dir := rfl
@[simp] theorem rampFinish_position (c : Config) (g : StepGen) : (rampFinish c g).position = g.position := rfl
@[simp] theorem rampFinish_target (c : Config) (g : StepGen) : (rampFinish c g).target = g.target := rfl
@[simp] theorem rampFinish_speed (c : Config) (g : StepGen) : (rampFinish c g).speed = speedOf c.fp g.dir g.cn := rfl
@[simp] theorem rampFinish_cn (c : Config) (g : StepGen) : (rampFinish c g).cn = g.cn := rfl
@[simp] theorem rampFinish_n (c : Config) (g : StepGen) : (rampFinish c g).n = g.n + 1 := rfl
@[simp] theorem rampFinish_pps (c : Config) (g : StepGen) : (rampFinish c g).pps = ppsOf c g.cn := rfl
@[simp] theorem rampFinish_dir (c : Config) (g : StepGen) : (rampFinish c g).dir = g.dir := rfl

end Sys2Proof.Machine
end

