-- ==== Sys2Proof/Laws/Generator.lean ====
section
/-! SUPPORT. What the ramp computation can do, said once (R202 to R211). -/

namespace Sys2Proof.Machine

/-- A binary format of an admitted configuration has two bits or more. -/
theorem fpFits_binary {c : Config} (h : configOk c = true) (p : Nat) (hp : c.fp = .binary p) : 2 ≤ p := by
  have := configOk_fp h
  rw [hp] at this
  simpa [fpFits] using this

/-- A generator without speed needs no steps to stop. -/
theorem stepsToStop_of_speed_zero (c : Config) {g : StepGen} (h : g.speed = 0) : stepsToStop c g = 0 := by
  simp [stepsToStop, h, fpMul, fpDiv]

/-- A positive constant of the machine is positive as a value of FP. -/
theorem fpOfRat_pos {c : Config} (hc : configOk c = true) {q : Rat} (h : 0 < q) : 0 < fpOfRat c.fp q :=
  fpRound_pos (fpFits_binary hc) h

/-- `C0` is not below `CMIN` as a value of FP either. -/
theorem fpOfRat_cmin_le_c0 {c : Config} (hc : configOk c = true) : fpOfRat c.fp c.cmin ≤ fpOfRat c.fp c.c0 :=
  fpRound_mono (fpFits_binary hc) (configOk_cmin_pos hc) (configOk_cmin_le_c0 hc)

theorem ppsOf_pos (c : Config) (cn : Rat) : 0 < ppsOf c cn := by unfold ppsOf; omega

/-- One million microseconds over a positive interval is positive. -/
theorem pulseRate_pos {c : Config} (hc : configOk c = true) {cn : Rat} (h : 0 < cn) :
    0 < fpDiv c.fp (fpOfInt c.fp 1000000) cn :=
  fpRound_pos (fpFits_binary hc) (div_pos (fpRound_pos (fpFits_binary hc) (by norm_num)) h)

/-- A positive interval gives a speed in the generator's direction. -/
theorem speedOf_pos {c : Config} (hc : configOk c = true) {cn : Rat} (h : 0 < cn) : 0 < speedOf c.fp .pos cn := by
  simpa [speedOf, dirValue] using pulseRate_pos hc h

theorem speedOf_neg {c : Config} (hc : configOk c = true) {cn : Rat} (h : 0 < cn) : speedOf c.fp .neg cn < 0 := by
  simpa [speedOf, dirValue] using pulseRate_pos hc h

/-- A speed is a value of FP (R34, R201). -/
theorem speedOf_value {c : Config} (hc : configOk c = true) (d : StepDir) (cn : Rat) :
    fpRound c.fp (speedOf c.fp d cn) = speedOf c.fp d cn := by
  cases d <;> simp [speedOf, dirValue, fpDiv, fpRound_idem (fpFits_binary hc)]

theorem rampRecur_cn_ge (c : Config) (g : StepGen) : fpOfRat c.fp c.cmin ≤ (rampRecur c g).cn := by
  simp only [rampRecur]
  split_ifs with h
  · exact le_refl _
  · exact not_lt.mp h

/-- The recurrence leaves a value of FP (R34, R201). -/
theorem rampRecur_value {c : Config} (hc : configOk c = true) (g : StepGen) :
    fpRound c.fp (rampRecur c g).cn = (rampRecur c g).cn := by
  simp only [rampRecur]
  split_ifs <;> exact fpRound_idem (fpFits_binary hc) _

/-- The frame of a ramp computation: of the motor's other registers only `dir_pin` may change, and the generator's
position and target stay. -/
theorem rampAdvance_frame (c : Config) (d : Int) (sts : Nat) (ax : AxisMotor) :
    ∃ pin g, rampAdvance c d sts ax = { ax with dirPin := pin, g := g } ∧ g.position = ax.g.position ∧
      g.target = ax.g.target := by
  simp only [rampAdvance, rampInterval]
  split_ifs
  · exact ⟨_, _, rfl, rfl, rfl⟩
  · exact ⟨_, _, rfl, rfl, rfl⟩

/-- The frame of computeNewSpeed. -/
theorem computeNewSpeed_frame (c : Config) (ax : AxisMotor) :
    ∃ pin g, computeNewSpeed c ax = { ax with dirPin := pin, g := g } ∧ g.position = ax.g.position ∧
      g.target = ax.g.target := by
  unfold computeNewSpeed
  simp only
  split_ifs
  · exact ⟨_, _, rfl, rfl, rfl⟩
  · exact rampAdvance_frame _ _ _ _

/-- computeNewSpeed stops the generator, or advances it (R206). -/
theorem computeNewSpeed_cases (c : Config) (ax : AxisMotor) :
    (clampedDistanceToGo c ax.g = 0 ∧ stepsToStop c ax.g ≤ 1 ∧
      computeNewSpeed c ax = { ax with g := rampStop ax.g }) ∨
    (¬ (clampedDistanceToGo c ax.g = 0 ∧ stepsToStop c ax.g ≤ 1) ∧
      computeNewSpeed c ax = rampAdvance c (clampedDistanceToGo c ax.g) (stepsToStop c ax.g) ax) := by
  unfold computeNewSpeed
  simp only
  split_ifs with h
  · exact .inl ⟨h.1, h.2, rfl⟩
  · exact .inr ⟨h, rfl⟩

/-- What a ramp computation leaves of the speed, interval, period and direction, in an admitted configuration. -/
structure RampOk (c : Config) (pin : Bool) (g : StepGen) : Prop where
  pin_level : pin = dirLevel c g.dir
  sign : (0 < g.speed → g.dir = .pos) ∧ (g.speed < 0 → g.dir = .neg)
  zero : g.speed = 0 → g.pps = 0 ∧ g.n = 0
  nonzero : g.speed ≠ 0 → 0 < g.pps ∧ fpOfRat c.fp c.cmin ≤ g.cn
  values : fpRound c.fp g.speed = g.speed ∧ fpRound c.fp g.cn = g.cn

/-- The end of a ramp step on an interval that is a value of FP of at least `CMIN`. -/
theorem rampFinish_ok {c : Config} (hc : configOk c = true) {pin : Bool} {g : StepGen} (hp : pin = dirLevel c g.dir)
    (hcn : fpOfRat c.fp c.cmin ≤ g.cn) (hv : fpRound c.fp g.cn = g.cn) : RampOk c pin (rampFinish c g) := by
  have hpos : 0 < g.cn := lt_of_lt_of_le (fpOfRat_pos hc (configOk_cmin_pos hc)) hcn
  have values : fpRound c.fp (rampFinish c g).speed = (rampFinish c g).speed ∧
      fpRound c.fp (rampFinish c g).cn = (rampFinish c g).cn := ⟨speedOf_value hc _ _, hv⟩
  cases hd : g.dir with
  | pos =>
    have hs := speedOf_pos hc hpos
    refine ⟨by simpa using hp, ⟨fun _ => by simpa using hd, fun h => ?_⟩, fun h => ?_, fun _ => ⟨ppsOf_pos _ _, hcn⟩,
      values⟩
    · simp only [rampFinish_speed, hd] at h; exact absurd h (not_lt.mpr hs.le)
    · simp only [rampFinish_speed, hd] at h; exact absurd h hs.ne'
  | neg =>
    have hs := speedOf_neg hc hpos
    refine ⟨by simpa using hp, ⟨fun h => ?_, fun _ => by simpa using hd⟩, fun h => ?_, fun _ => ⟨ppsOf_pos _ _, hcn⟩,
      values⟩
    · simp only [rampFinish_speed, hd] at h; exact absurd h (not_lt.mpr hs.le)
    · simp only [rampFinish_speed, hd] at h; exact absurd h hs.ne

theorem rampAdvance_ok {c : Config} (hc : configOk c = true) (d : Int) (sts : Nat) {ax : AxisMotor}
    (hp : ax.dirPin = dirLevel c ax.g.dir) : RampOk c (rampAdvance c d sts ax).dirPin (rampAdvance c d sts ax).g := by
  simp only [rampAdvance, rampInterval]
  split_ifs
  · exact rampFinish_ok hc rfl (fpOfRat_cmin_le_c0 hc) (fpRound_idem (fpFits_binary hc) _)
  · exact rampFinish_ok hc hp (rampRecur_cn_ge c _) (rampRecur_value hc _)

theorem computeNewSpeed_ok {c : Config} (hc : configOk c = true) {ax : AxisMotor}
    (hp : ax.dirPin = dirLevel c ax.g.dir) (hv : fpRound c.fp ax.g.cn = ax.g.cn) :
    RampOk c (computeNewSpeed c ax).dirPin (computeNewSpeed c ax).g := by
  rcases computeNewSpeed_cases c ax with ⟨_, _, h⟩ | ⟨_, h⟩
  · rw [h]
    exact ⟨hp, by simp, by simp, by simp, by simp [hv]⟩
  · rw [h]
    exact rampAdvance_ok hc _ _ hp

/-- The frame of setTargetPosition: the target is the one set, the position stays (R205). -/
theorem setTargetPosition_frame (c : Config) (t : Int) (ax : AxisMotor) :
    ∃ pin g, setTargetPosition c t ax = { ax with dirPin := pin, g := g } ∧ g.position = ax.g.position ∧
      g.target = t := by
  unfold setTargetPosition
  split_ifs with h
  · obtain ⟨pin, g, he, hpos, ht⟩ := computeNewSpeed_frame c { ax with g := { ax.g with target := t } }
    exact ⟨pin, g, he, hpos, ht⟩
  · exact ⟨ax.dirPin, ax.g, rfl, rfl, (not_not.mp h).symm⟩

theorem setTargetPosition_ok {c : Config} (hc : configOk c = true) {ax : AxisMotor} (t : Int)
    (h : RampOk c ax.dirPin ax.g) : RampOk c (setTargetPosition c t ax).dirPin (setTargetPosition c t ax).g := by
  unfold setTargetPosition
  split_ifs
  · exact computeNewSpeed_ok hc h.pin_level h.values.2
  · exact h

/-- Zeroing a generator leaves it in order. -/
theorem resetZero_ok {c : Config} {pin : Bool} {g : StepGen} (h : RampOk c pin g) : RampOk c pin (resetZero g) :=
  ⟨h.pin_level, by simp, by simp, by simp, by simp [h.values.2]⟩

end Sys2Proof.Machine
end

