-- ==== Sys2Proof/Laws/Motor.lean ====
section
/-! SUPPORT. What starting, stopping, ticking and housekeeping can do to an axis motor, said once (R233 to R245). -/

namespace Sys2Proof.Machine

/-- The frame of `setMotion(true)`: mode, position, period, mode pins, step pin and pulse count stay. -/
theorem startMotor_frame (c : Config) (ax : AxisMotor) :
    ∃ tgt pin g, startMotor c ax =
      { ax with target := tgt, moving := true, stopping := false, tickCount := 0, dirPin := pin, g := g } := by
  unfold startMotor
  simp only
  split_ifs
  · obtain ⟨pin, g, h, _⟩ := setTargetPosition_frame c c.genNegInf
      { ax with stopping := false, tickCount := 0, target := axisNinf, moving := true }
    exact ⟨_, pin, g, h⟩
  · obtain ⟨pin, g, h, _⟩ := setTargetPosition_frame c c.genPosInf
      { ax with stopping := false, tickCount := 0, target := axisInf, moving := true }
    exact ⟨_, pin, g, h⟩
  · obtain ⟨pin, g, h, _⟩ := setTargetPosition_frame c (gotoSteps c ax)
      { ax with stopping := false, tickCount := 0, g := resetZero ax.g, moving := true }
    exact ⟨_, pin, g, h⟩

/-- The frame of `setMotion(false)`: only `stopping`, the generator and its direction pin may change, and the new
generator target is the stop point (R236). -/
theorem stopMotor_frame (c : Config) (ax : AxisMotor) :
    ∃ pin g, stopMotor c ax = { ax with stopping := true, dirPin := pin, g := g } ∧ g.position = ax.g.position ∧
      g.target = ax.g.position + dirValue ax.g.dir * stepsToStop c ax.g := by
  obtain ⟨pin, g, h, hp, ht⟩ := setTargetPosition_frame c
    (ax.g.position + dirValue ax.g.dir * stepsToStop c ax.g) { ax with stopping := true }
  exact ⟨pin, g, h, hp, ht⟩

/-- On an idle generator at zero a stop request sets `stopping` and nothing else (R236, R270). -/
theorem stopMotor_of_idle (c : Config) {ax : AxisMotor} (hp : ax.g.position = 0) (ht : ax.g.target = 0)
    (hs : ax.g.speed = 0) : stopMotor c ax = { ax with stopping := true } := by
  simp [stopMotor, setTargetPosition, stepsToStop_of_speed_zero c hs, hp, ht]

/-- When a tick takes a step (R240). -/
theorem tickSteps_iff (ax : AxisMotor) :
    tickSteps ax = true ↔ ax.moving = true ∧ 0 < tickPeriod ax ∧ tickPeriod ax ≤ ax.tickCount + 1 := by
  simp [tickSteps, and_assoc]

/-- A tick does nothing, or counts, or takes a step (R240). -/
theorem tickMotor_cases (c : Config) (ax : AxisMotor) :
    (ax.moving = false ∧ tickMotor c ax = ax) ∨
    (ax.moving = true ∧ tickSteps ax = false ∧ tickMotor c ax = { ax with tickCount := ax.tickCount + 1 }) ∨
    (tickSteps ax = true ∧ tickMotor c ax = tickStep c ax) := by
  unfold tickMotor
  split_ifs with h1 h2
  · exact .inr (.inr ⟨h1, rfl⟩)
  · exact .inr (.inl ⟨h2, by simpa using h1, rfl⟩)
  · exact .inl ⟨by simpa using h2, rfl⟩

theorem positionInRange_iff (c : Config) (p : Int) :
    positionInRange c p = true ↔ c.genNegInf < p ∧ p < c.genPosInf := by simp [positionInRange]

/-- The frame of a step: one pulse, one raw step in the generator's direction, the reference position by the ratio. -/
theorem tickStep_frame (c : Config) (ax : AxisMotor) :
    ∃ pin g, tickStep c ax = { ax with
      position := wrapPosition c (ax.position + dirValue ax.g.dir * ratio c ax)
      tickCount := 0
      stepPin := false
      pulses := ax.pulses + 1
      dirPin := pin
      g := g } ∧ g.position = ax.g.position + dirValue ax.g.dir ∧ g.target = ax.g.target := by
  simp only [tickStep]
  split_ifs
  · obtain ⟨pin, g, h, hp, ht⟩ := computeNewSpeed_frame c (run { ax with tickCount := 0 })
    rw [h]
    exact ⟨pin, g, rfl, hp, ht⟩
  · exact ⟨ax.dirPin, _, rfl, rfl, rfl⟩

/-- A long tick ends the motion or changes nothing (R245). -/
theorem longTickMotor_cases (ax : AxisMotor) :
    (motionEnds ax = true ∧ longTickMotor ax =
      { ax with moving := false, stopping := false, g := resetZero ax.g }) ∨
    (motionEnds ax = false ∧ longTickMotor ax = ax) := by
  unfold longTickMotor
  split_ifs with h
  · exact .inl ⟨h, rfl⟩
  · exact .inr ⟨by simpa using h, rfl⟩

theorem startMotor_ok {c : Config} (hc : configOk c = true) {ax : AxisMotor} (h : RampOk c ax.dirPin ax.g) :
    RampOk c (startMotor c ax).dirPin (startMotor c ax).g := by
  unfold startMotor
  simp only
  split_ifs
  · exact setTargetPosition_ok hc _ h
  · exact setTargetPosition_ok hc _ h
  · exact setTargetPosition_ok hc _ (resetZero_ok h)

theorem stopMotor_ok {c : Config} (hc : configOk c = true) {ax : AxisMotor} (h : RampOk c ax.dirPin ax.g) :
    RampOk c (stopMotor c ax).dirPin (stopMotor c ax).g := setTargetPosition_ok hc _ h

theorem tickStep_ok {c : Config} (hc : configOk c = true) {ax : AxisMotor} (h : RampOk c ax.dirPin ax.g) :
    RampOk c (tickStep c ax).dirPin (tickStep c ax).g := by
  simp only [tickStep]
  split_ifs
  · exact computeNewSpeed_ok hc h.pin_level h.values.2
  · exact ⟨h.pin_level, h.sign, h.zero, h.nonzero, h.values⟩

end Sys2Proof.Machine
end

