-- ==== Sys2Proof/Laws/Exec.lean ====
section
/-! SUPPORT. What a command can do, said once: it writes at most the motor its axis selects (and, for `V`, the LED), then
sends one reply. -/

namespace Sys2Proof.Machine

/-- The registers a command can leave in the motor its axis selects. -/
inductive MotorEffect (c : Config) (i : Instr) (ax : AxisMotor) : AxisMotor → Prop where
  | none : MotorEffect c i ax ax
  | position {a v} (hi : i = .setPosition a v) (hm : ax.moving = false) :
      MotorEffect c i ax { ax with position := v }
  | mode {a t sp d} (hi : i = .setMotionMode a t sp d) (hm : ax.moving = false) :
      MotorEffect c i ax
        (setMs c (ustepOf c sp) { ax with slewType := t, slewSpeed := sp, slewDir := d })
  | target {t} (hi : i.opcode = .setGotoTarget ∨ i.opcode = .setGotoTargetIncrement) (hm : ax.moving = false) :
      MotorEffect c i ax { ax with target := t }
  | period {a v} (hi : i = .setStepPeriod a v) : MotorEffect c i ax { ax with stepPeriod := v }
  | start {a} (hi : i = .startMotion a) (hm : ax.moving = false) (hs : ax.slewSpeed ≠ .unset) :
      MotorEffect c i ax (startMotor c ax)
  | stop {a} (hi : i = .stopMotion a) (hm : ax.moving = true) : MotorEffect c i ax (stopMotor c ax)

/-- A gated command either answers MOTOR_NOT_STOPPED with no effect, or has its effect and answers Empty. -/
theorem whenStopped_cases (a : Axis) (f : AxisMotor → AxisMotor) (s : State) :
    ((motor (motorOf a) s).moving = true ∧ whenStopped a f s = send (.error .motorNotStopped) s) ∨
    ((motor (motorOf a) s).moving = false ∧
      whenStopped a f s = send .empty (setMotor (motorOf a) (f (motor (motorOf a) s)) s)) := by
  unfold whenStopped
  split_ifs with h
  · exact .inl ⟨h, rfl⟩
  · exact .inr ⟨by simpa using h, rfl⟩

/-- The replies SSC sends (R261: no error code but 2 and 4), with the nibbles of an admitted configuration. -/
def ReplySent (c : Config) : Reply → Prop
  | .empty => True
  | .data _ _ => True
  | .position _ => True
  | .status n0 n1 n2 => n0 < 16 ∧ n1 < 16 ∧ n2 < 16
  | .version n0 n1 n2 n3 => (n0, n1, n2, n3) = c.version
  | .extendedStatus n0 n1 n2 => (n0, n1, n2) = c.extStatus
  | .error code => code = .motorNotStopped ∨ code = .notInitialized

/-- One command, whole: an effect on the selected motor, the LED for `V` alone, and one reply. -/
theorem exec_cases (i : Instr) (s : State) :
    ∃ r ax, ReplySent s.cfg r ∧ MotorEffect s.cfg i (motor (motorOf i.axis) s) ax ∧
      (exec i s = .next (send r (setMotor (motorOf i.axis) ax s)) ∨
        ∃ a v, i = .setPolarLEDBrightness a v ∧ ax = motor (motorOf i.axis) s ∧
          exec i s = .next (send r { s with led := BitVec.ofNat 8 v, ledPort := some (BitVec.ofNat 8 v) })) := by
  have gated : ∀ (a : Axis) (f : AxisMotor → AxisMotor), i.axis = a → exec i s = .next (whenStopped a f s) →
      ((motor (motorOf a) s).moving = false → MotorEffect s.cfg i (motor (motorOf a) s) (f (motor (motorOf a) s))) →
      ∃ r ax, ReplySent s.cfg r ∧ MotorEffect s.cfg i (motor (motorOf i.axis) s) ax ∧
        exec i s = .next (send r (setMotor (motorOf i.axis) ax s)) := by
    intro a f ha he hf
    subst ha
    rcases whenStopped_cases i.axis f s with ⟨_, h⟩ | ⟨hm, h⟩
    · exact ⟨.error .motorNotStopped, _, Or.inl rfl, .none, by rw [he, h, setMotor_motor]⟩
    · exact ⟨.empty, _, trivial, hf hm, by rw [he, h]⟩
  have plain : ∀ r : Reply, ReplySent s.cfg r → exec i s = .next (send r s) →
      ∃ r ax, ReplySent s.cfg r ∧ MotorEffect s.cfg i (motor (motorOf i.axis) s) ax ∧
        exec i s = .next (send r (setMotor (motorOf i.axis) ax s)) :=
    fun r hr he => ⟨r, _, hr, .none, by rw [he, setMotor_motor]⟩
  have weaken : (∃ r ax, ReplySent s.cfg r ∧ MotorEffect s.cfg i (motor (motorOf i.axis) s) ax ∧
        exec i s = .next (send r (setMotor (motorOf i.axis) ax s))) →
      ∃ r ax, ReplySent s.cfg r ∧ MotorEffect s.cfg i (motor (motorOf i.axis) s) ax ∧
      (exec i s = .next (send r (setMotor (motorOf i.axis) ax s)) ∨
        ∃ a v, i = .setPolarLEDBrightness a v ∧ ax = motor (motorOf i.axis) s ∧
          exec i s = .next (send r { s with led := BitVec.ofNat 8 v, ledPort := some (BitVec.ofNat 8 v) })) :=
    fun ⟨r, ax, hr, hx, he⟩ => ⟨r, ax, hr, hx, .inl he⟩
  cases i with
  | setPosition a v => exact weaken (gated a _ rfl rfl fun hm => .position rfl hm)
  | setMotionMode a t sp d => exact weaken (gated a _ rfl rfl fun hm => .mode rfl hm)
  | setGotoTarget a v => exact weaken (gated a _ rfl rfl fun hm => .target (.inl rfl) hm)
  | setGotoTargetIncrement a v => exact weaken (gated a _ rfl rfl fun hm => .target (.inr rfl) hm)
  | setStepPeriod a v => exact ⟨.empty, _, trivial, .period rfl, .inl rfl⟩
  | startMotion a =>
    by_cases hs : (motor (motorOf a) s).slewSpeed = .unset
    · refine weaken (plain (.error .notInitialized) (.inr rfl) ?_)
      simp [exec, execStartMotion, hs, replyError]
    · refine weaken (gated a (startMotor s.cfg) rfl ?_ fun hm => .start rfl hm hs)
      simp [exec, execStartMotion, hs]
  | stopMotion a =>
    by_cases hm : (motor (motorOf a) s).moving = true
    · refine ⟨.empty, _, trivial, .stop rfl hm, .inl ?_⟩
      simp [exec, execStopMotion, hm, Instr.axis]
    · refine weaken (plain .empty trivial ?_)
      simp [exec, execStopMotion, hm]
  | setPolarLEDBrightness a b => exact ⟨.empty, _, trivial, .none, .inr ⟨a, b, rfl, rfl, rfl⟩⟩
  | getStatus a =>
    refine weaken (plain (.status _ _ _) ?_ rfl)
    simp only [ReplySent, statusNibble0, statusNibble1, statusNibble2]
    refine ⟨?_, ?_, ?_⟩ <;> split_ifs <;> omega
  | getVersion a => exact weaken (plain (.version _ _ _ _) rfl rfl)
  | getExtendedStatus a => exact weaken (plain (.extendedStatus _ _ _) rfl rfl)
  | initializationDone a => exact weaken (plain .empty trivial rfl)
  | setBreakpointIncrement a v => exact weaken (plain .empty trivial rfl)
  | instantStop a => exact weaken (plain .empty trivial rfl)
  | setSwitch a d => exact weaken (plain .empty trivial rfl)
  | setAutoguideSpeed a d => exact weaken (plain .empty trivial rfl)
  | getCountsPerRev a => exact weaken (plain (.data _ _) trivial rfl)
  | getTimerFreq a => exact weaken (plain (.data _ _) trivial rfl)
  | getGotoTarget a => exact weaken (plain (.position _) trivial rfl)
  | getStepPeriod a => exact weaken (plain (.data _ _) trivial rfl)
  | getPosition a => exact weaken (plain (.position _) trivial rfl)
  | getHighSpeedRatio a => exact weaken (plain (.data _ _) trivial rfl)
  | getSiderealPeriod a => exact weaken (plain (.data _ _) trivial rfl)
  | getAxisPosition a => exact weaken (plain (.position _) trivial rfl)
  | getPECPeriod a => exact weaken (plain (.data _ _) trivial rfl)

end Sys2Proof.Machine
end

