-- ==== Sys2Proof/Laws/PerInstr.lean ====
section
/-! SUPPORT. Facts of every command as syntax, one lemma per constructor: the fields of an encoded frame fill exactly the
default length (R81, R93). -/

namespace Sys2Proof.Laws.PayloadLength

/-- The encoded payload of a command, with the start marker, opcode and axis, has the length R92 gives its opcode. -/
def Statement (i : Instr) : Prop := 3 + (encodePayload i).length = i.opcode.defaultLen

theorem setPosition (a : Axis) (v : Nat) : Statement (.setPosition a v) := by
  simp [Statement, encodePayload, HexWidth.len, Instr.opcode, Opcode.defaultLen]
theorem initializationDone (a : Axis) : Statement (.initializationDone a) := rfl
theorem setMotionMode (a : Axis) (t : SlewType) (sp : SlewSpeed) (d : SlewDir) :
    Statement (.setMotionMode a t sp d) := rfl
theorem setGotoTarget (a : Axis) (v : Nat) : Statement (.setGotoTarget a v) := by
  simp [Statement, encodePayload, HexWidth.len, Instr.opcode, Opcode.defaultLen]
theorem setGotoTargetIncrement (a : Axis) (v : Nat) : Statement (.setGotoTargetIncrement a v) := by
  simp [Statement, encodePayload, HexWidth.len, Instr.opcode, Opcode.defaultLen]
theorem setBreakpointIncrement (a : Axis) (v : Nat) : Statement (.setBreakpointIncrement a v) := by
  simp [Statement, encodePayload, HexWidth.len, Instr.opcode, Opcode.defaultLen]
theorem setStepPeriod (a : Axis) (v : Nat) : Statement (.setStepPeriod a v) := by
  simp [Statement, encodePayload, HexWidth.len, Instr.opcode, Opcode.defaultLen]
theorem startMotion (a : Axis) : Statement (.startMotion a) := rfl
theorem stopMotion (a : Axis) : Statement (.stopMotion a) := rfl
theorem instantStop (a : Axis) : Statement (.instantStop a) := rfl
theorem setSwitch (a : Axis) (d : Nat) : Statement (.setSwitch a d) := rfl
theorem setAutoguideSpeed (a : Axis) (d : Nat) : Statement (.setAutoguideSpeed a d) := rfl
theorem setPolarLEDBrightness (a : Axis) (b : Nat) : Statement (.setPolarLEDBrightness a b) := by
  simp [Statement, encodePayload, HexWidth.len, Instr.opcode, Opcode.defaultLen]
theorem getCountsPerRev (a : Axis) : Statement (.getCountsPerRev a) := rfl
theorem getTimerFreq (a : Axis) : Statement (.getTimerFreq a) := rfl
theorem getGotoTarget (a : Axis) : Statement (.getGotoTarget a) := rfl
theorem getStepPeriod (a : Axis) : Statement (.getStepPeriod a) := rfl
theorem getPosition (a : Axis) : Statement (.getPosition a) := rfl
theorem getStatus (a : Axis) : Statement (.getStatus a) := rfl
theorem getHighSpeedRatio (a : Axis) : Statement (.getHighSpeedRatio a) := rfl
theorem getSiderealPeriod (a : Axis) : Statement (.getSiderealPeriod a) := rfl
theorem getAxisPosition (a : Axis) : Statement (.getAxisPosition a) := rfl
theorem getVersion (a : Axis) : Statement (.getVersion a) := rfl
theorem getPECPeriod (a : Axis) : Statement (.getPECPeriod a) := rfl
theorem getExtendedStatus (a : Axis) : Statement (.getExtendedStatus a) := rfl

end Sys2Proof.Laws.PayloadLength
end

