-- ==== Sys2Proof/Laws/Step.lean ====
section
/-! SUPPORT. What a byte, an event and a step can do, said once (R6, R67, R120, R121). -/

namespace Sys2Proof.Machine

/-- One byte restarts the frame, ends it, or is appended (R120). -/
theorem rxByte_cases (b : Byte) (s : State) :
    (b = chColon ∧ rxByte b s = .next (rxAppend chColon (clearFrame { s with lastRxMs := s.nowMs }))) ∨
    (b = chCR ∧ 2 < s.rxLen ∧ rxByte b s = finalize { s with lastRxMs := s.nowMs }) ∨
    (b ≠ chColon ∧ ¬ (b = chCR ∧ 2 < s.rxLen) ∧
      rxByte b s = .next (rxAppend b { s with lastRxMs := s.nowMs })) := by
  unfold rxByte
  simp only
  split_ifs with h1 h2
  · exact .inl ⟨h1, rfl⟩
  · exact .inr (.inl ⟨h2.1, h2.2, rfl⟩)
  · exact .inr (.inr ⟨h1, h2, rfl⟩)

/-- The end of a held frame: a dropped frame, or an executed command (R121). -/
theorem finalize_cases (s : State) :
    (∃ r, decode s.cfg (heldFrame s) = .error r ∧ finalize s = .next (clearFrame s)) ∨
    (∃ i, decode s.cfg (heldFrame s) = .ok i ∧ finalize s = clearAfter (exec i s)) := by
  unfold finalize
  cases decode s.cfg (heldFrame s) with
  | error r => exact .inl ⟨r, rfl, rfl⟩
  | ok i => exact .inr ⟨i, rfl, rfl⟩

/-- A tick is refused when its step would reach a sentinel, and otherwise does what the motor does (R240, R307). -/
theorem tick_cases (m : MotorId) (s : State) :
    (tickSteps (motor m s) = true ∧
      positionInRange s.cfg ((motor m s).g.position + dirValue (motor m s).g.dir) = false ∧
      tick m s = .refused .positionRange) ∨
    ((tickSteps (motor m s) = true →
      positionInRange s.cfg ((motor m s).g.position + dirValue (motor m s).g.dir) = true) ∧
      tick m s = .next (setMotor m (tickMotor s.cfg (motor m s)) s)) := by
  unfold tick
  split_ifs with h
  · exact .inl ⟨h.1, h.2, rfl⟩
  · exact .inr ⟨fun ht => by simpa [ht] using h, rfl⟩

/-- A step waits, or runs the first pending event, and only under an admitted configuration. -/
theorem step_cases {s t : State} (h : step s = .next t) :
    configOk s.cfg = true ∧ ((s.inputs = [] ∧ t = s) ∨
      ∃ a rest, s.inputs = a :: rest ∧ runEvent a.event (arrive a rest s) = .next t) := by
  unfold step at h
  split_ifs at h with hc
  refine ⟨hc, ?_⟩
  split at h
  · rename_i hi
    cases h
    exact .inl ⟨hi, rfl⟩
  · rename_i a rest hi
    exact .inr ⟨a, rest, hi, h⟩

/-- The step of a pending event. -/
theorem step_of_event {s : State} (hc : configOk s.cfg = true) {a : Arrival} {rest : List Arrival}
    (hi : s.inputs = a :: rest) : step s = runEvent a.event (arrive a rest s) := by
  simp [step, hc, hi]

/-- No step: the run answers its state. -/
theorem run_zero (s : State) : core.run 0 s = .next s := rfl

/-- A step that goes on is the first step of a run. -/
theorem run_succ {s t : State} (h : step s = .next t) (k : Nat) : core.run (k + 1) s = core.run k t := by
  have h' : core.step s = .next t := h
  simp only [Host.Core.run, h']

end Sys2Proof.Machine
end

