-- ==== Sys2Proof/Tests/Slice0.lean ====
section
/-! SUPPORT. The model's own tests: the checks of WellFormed, decoding of words written out from spec 30_encoding.md,
single steps with the results of spec 95_test_vectors.md, and a witness for the hypotheses of each statement. -/

namespace Sys2Proof.Tests

open Sys2Proof Sys2Proof.Machine

/-! ## Helpers -/

/-- The next state of an outcome, if it is one. -/
def nextOf : Host.Outcome State Fault Refusal → Option State
  | .next t => some t
  | .fault _ => none
  | .refused _ => none

/-- The state one step after the `\r` of a frame held by `s`. -/
def afterFrame (frame : List Byte) (s : State) : Option State := nextOf (step (holdFrame frame s))

/-- What one frame adds to an empty `tx`. -/
def replyTo (frame : List Byte) (s : State) : Option (List Byte) := (afterFrame frame s).map State.tx

/-- The reset state with another RA motor. -/
def withRa (ax : AxisMotor) : State := { State.reset with ra := ax }

/-- The RA motor at reset. -/
def idle : AxisMotor := State.reset.ra

/-- A motor at rest in a mode, its pins as `G` leaves them. -/
def inMode (t : SlewType) (sp : SlewSpeed) (d : SlewDir) : AxisMotor :=
  { idle with
    slewType := t
    slewSpeed := sp
    slewDir := d
    msPin := ustepLevels .drv8825 (if sp = .fast then 8 else 32) }

/-- A motor in SLOW tracking, clockwise, moving, with a step period and a tick count; program P2 line 7. -/
def slowTracking (period count : Nat) : AxisMotor :=
  { inMode .tracking .slow .cw with
    target := 0xFFFFFF
    moving := true
    stepPeriod := period
    tickCount := count
    g := { position := 0, target := 2147483647, speed := 25000 / 169, cn := 6760, n := 1, pps := 135, dir := .pos } }

/-- A motor cruising in FAST tracking, clockwise, after 25 pulses; program P4 line 3. -/
def cruising : AxisMotor :=
  { inMode .tracking .fast .cw with
    target := 0xFFFFFF
    moving := true
    position := 0x800064
    g := { position := 25, target := 2147483647, speed := 1000, cn := 1000, n := 26, pps := 20, dir := .pos } }

/-- A generator of the ramp tests: its target, speed, counter and direction, from position 0. -/
def ramping (target : Int) (speed : Rat) (n : Int) (dir : StepDir) : AxisMotor :=
  { idle with g := { position := 0, target := target, speed := speed, cn := 1000, n := n, pps := 20, dir := dir } }

/-- A state whose next event is `e`. -/
def pending (e : Event) (s : State) : State := { s with inputs := [⟨0, e⟩] }

/-! ## WellFormed refuses an ill-formed term for each check -/

theorem test_wf_hex6 :
    (Instr.setPosition .ra 0x1000000).wf = false ∧ (Instr.setGotoTarget .ra 0x1000000).wf = false ∧
    (Instr.setGotoTargetIncrement .ra 0x1000000).wf = false ∧
    (Instr.setBreakpointIncrement .ra 0x1000000).wf = false ∧ (Instr.setStepPeriod .ra 0x1000000).wf = false ∧
    (Instr.setPosition .ra 0xFFFFFF).wf = true := by decide

theorem test_wf_mode :
    (Instr.setMotionMode .ra .unset .slow .cw).wf = false ∧ (Instr.setMotionMode .ra .goto .unset .cw).wf = false ∧
    (Instr.setMotionMode .ra .goto .slow .unset).wf = false ∧ (Instr.setMotionMode .ra .goto .slow .ccw).wf = true := by
  decide

theorem test_wf_short :
    (Instr.setSwitch .ra 16).wf = false ∧ (Instr.setAutoguideSpeed .ra 16).wf = false ∧
    (Instr.setPolarLEDBrightness .ra 256).wf = false ∧ (Instr.setPolarLEDBrightness .ra 255).wf = true := by decide

/-! ## Decoding of frames written out from 30_encoding.md R80, R81, R91, R92 -/

/-- Bit by bit: `':'` 00111010, `'E'` 01000101, `'1'` 00110001, then the digits 5 6 3 4 1 2 (X2). -/
theorem test_decode_bits :
    decode Config.tc [0b00111010#8, 0b01000101#8, 0b00110001#8, 0b00110101#8, 0b00110110#8, 0b00110011#8,
      0b00110100#8, 0b00110001#8, 0b00110010#8] = .ok (.setPosition .ra 0x123456) := by decide

theorem test_decode_hex6 :
    decode Config.tc [0x3A#8, 0x45#8, 0x32#8, 0x46#8, 0x46#8, 0x46#8, 0x46#8, 0x46#8, 0x46#8]
      = .ok (.setPosition .dec 0xFFFFFF) ∧
    decode Config.tc [0x3A#8, 0x53#8, 0x31#8, 0x46#8, 0x45#8, 0x46#8, 0x46#8, 0x39#8, 0x46#8]
      = .ok (.setGotoTarget .ra 0x9FFFFE) ∧
    decode Config.tc [0x3A#8, 0x48#8, 0x31#8, 0x35#8, 0x30#8, 0x30#8, 0x30#8, 0x30#8, 0x30#8]
      = .ok (.setGotoTargetIncrement .ra 0x50) ∧
    decode Config.tc [0x3A#8, 0x4D#8, 0x31#8, 0x30#8, 0x30#8, 0x30#8, 0x30#8, 0x30#8, 0x30#8]
      = .ok (.setBreakpointIncrement .ra 0) ∧
    decode Config.tc [0x3A#8, 0x49#8, 0x32#8, 0x46#8, 0x46#8, 0x30#8, 0x30#8, 0x30#8, 0x30#8]
      = .ok (.setStepPeriod .dec 255) := by decide

theorem test_decode_mode :
    decode Config.tc [0x3A#8, 0x47#8, 0x31#8, 0x30#8, 0x30#8] = .ok (.setMotionMode .ra .goto .fast .cw) ∧
    decode Config.tc [0x3A#8, 0x47#8, 0x31#8, 0x31#8, 0x30#8] = .ok (.setMotionMode .ra .tracking .slow .cw) ∧
    decode Config.tc [0x3A#8, 0x47#8, 0x31#8, 0x32#8, 0x31#8] = .ok (.setMotionMode .ra .goto .slow .ccw) ∧
    decode Config.tc [0x3A#8, 0x47#8, 0x31#8, 0x33#8, 0x42#8] = .ok (.setMotionMode .ra .tracking .fast .ccw) ∧
    decode Config.tc [0x3A#8, 0x47#8, 0x31#8, 0x34#8, 0x30#8] = .error .badModeDigit := by decide

theorem test_decode_short :
    decode Config.tc [0x3A#8, 0x4F#8, 0x31#8, 0x31#8] = .ok (.setSwitch .ra 1) ∧
    decode Config.tc [0x3A#8, 0x50#8, 0x31#8, 0x32#8] = .ok (.setAutoguideSpeed .ra 2) ∧
    decode Config.tc [0x3A#8, 0x56#8, 0x32#8, 0x46#8, 0x46#8] = .ok (.setPolarLEDBrightness .dec 255) := by decide

theorem test_decode_motion :
    decode Config.tc [0x3A#8, 0x46#8, 0x33#8] = .ok (.initializationDone .both) ∧
    decode Config.tc [0x3A#8, 0x4A#8, 0x31#8] = .ok (.startMotion .ra) ∧
    decode Config.tc [0x3A#8, 0x4B#8, 0x32#8] = .ok (.stopMotion .dec) ∧
    decode Config.tc [0x3A#8, 0x4C#8, 0x39#8] = .ok (.instantStop .none) := by decide

theorem test_decode_getters :
    decode Config.tc [0x3A#8, 0x61#8, 0x31#8] = .ok (.getCountsPerRev .ra) ∧
    decode Config.tc [0x3A#8, 0x62#8, 0x31#8] = .ok (.getTimerFreq .ra) ∧
    decode Config.tc [0x3A#8, 0x68#8, 0x31#8] = .ok (.getGotoTarget .ra) ∧
    decode Config.tc [0x3A#8, 0x69#8, 0x31#8] = .ok (.getStepPeriod .ra) ∧
    decode Config.tc [0x3A#8, 0x6A#8, 0x31#8] = .ok (.getPosition .ra) ∧
    decode Config.tc [0x3A#8, 0x66#8, 0x31#8] = .ok (.getStatus .ra) ∧
    decode Config.tc [0x3A#8, 0x67#8, 0x31#8] = .ok (.getHighSpeedRatio .ra) ∧
    decode Config.tc [0x3A#8, 0x44#8, 0x31#8] = .ok (.getSiderealPeriod .ra) ∧
    decode Config.tc [0x3A#8, 0x64#8, 0x31#8] = .ok (.getAxisPosition .ra) ∧
    decode Config.tc [0x3A#8, 0x65#8, 0x31#8] = .ok (.getVersion .ra) ∧
    decode Config.tc [0x3A#8, 0x73#8, 0x31#8] = .ok (.getPECPeriod .ra) ∧
    decode Config.tc [0x3A#8, 0x71#8, 0x31#8] = .ok (.getExtendedStatus .ra) := by decide

/-- FR1, FR5, FR10, FR17. -/
theorem test_decode_rejects :
    decode Config.tc [0x3A#8, 0x5A#8, 0x31#8] = .error .unknownOpcode ∧
    decode Config.tc [0x3A#8, 0x45#8, 0x31#8, 0x38#8, 0x30#8, 0x30#8, 0x30#8, 0x30#8, 0x30#8, 0x31#8]
      = .error .badLength ∧
    decode Config.tc [0x61#8, 0x62#8, 0x63#8] = .error .badStart ∧
    decode Config.tc [0x3A#8, 0x71#8, 0x31#8, 0x30#8, 0x31#8, 0x30#8, 0x30#8, 0x30#8, 0x30#8]
      = .error .badLength := by decide

/-- X20, X22, X25, X26, X27. -/
theorem test_decodeHex_edges :
    decodeHex false [0x38#8, 0x5A#8, 0x30#8, 0x30#8, 0x30#8, 0x30#8] 6 = 0x80 ∧
    decodeHex false [0x67#8] 1 = 0 ∧ decodeHex false [0x31#8, 0x32#8, 0x33#8, 0x34#8, 0x35#8] 5 = 0 ∧
    decodeHex false [0x61#8, 0x62#8, 0x63#8, 0x64#8, 0x65#8, 0x66#8] 6 = 0 ∧
    decodeHex true [0x61#8, 0x62#8, 0x63#8, 0x64#8, 0x65#8, 0x66#8] 6 = 0xEFCDAB := by decide

/-- X4, X9, X10, X11. -/
theorem test_encodeHex_edges :
    encodeHex 0xAB .w2 = [0x41#8, 0x42#8] ∧
    encodeHex (-1) .w6 = [0x46#8, 0x46#8, 0x46#8, 0x46#8, 0x46#8, 0x46#8] ∧
    encodeHex (-16) .w6 = [0x46#8, 0x30#8, 0x46#8, 0x46#8, 0x46#8, 0x46#8] ∧
    encodeHex 0x1000005 .w6 = [0x30#8, 0x35#8, 0x30#8, 0x30#8, 0x30#8, 0x30#8] := by decide

/-! ## Table words and the step that fetches them (log 10) -/

theorem test_decodeTableWord :
    decodeTableWord 16 0x3A45 = some (.setPosition .none 0) ∧ decodeTableWord 16 0x3A6A = some (.getPosition .none) ∧
    decodeTableWord 24 0x323A6A = some (.getPosition .dec) ∧
    decodeTableWord 40 0x3031313A47 = some (.setMotionMode .ra .tracking .slow .cw) ∧
    decodeTableWord 16 0x3A47 = none := by decide

theorem test_withFetchWord :
    (nextOf (step (State.reset.withFetchWord 16 0x3A6A))).map State.tx
      = some [0x3D#8, 0x30#8, 0x30#8, 0x30#8, 0x30#8, 0x38#8, 0x30#8, 0x0D#8] := by decide

/-! ## One step per command; the expected bytes and registers are those of 95_test_vectors.md -/

/-- SE2. -/
theorem test_setPosition :
    (afterFrame [0x3A#8, 0x45#8, 0x31#8, 0x38#8, 0x30#8, 0x30#8, 0x30#8, 0x30#8, 0x30#8] State.reset).map
      (fun t => (t.ra.position, t.dec.position, t.rxLen, t.tx)) = some (0x80, 0x800000, 0, [0x3D#8, 0x0D#8]) := by decide

/-- Section 4, last paragraph. -/
theorem test_setPosition_moving :
    (afterFrame [0x3A#8, 0x45#8, 0x31#8, 0x38#8, 0x30#8, 0x30#8, 0x30#8, 0x30#8, 0x30#8]
      (withRa (slowTracking 3 0))).map (fun t => (t.ra, t.tx))
      = some (slowTracking 3 0, [0x21#8, 0x32#8, 0x0D#8]) := by decide +kernel

/-- GM4: mode, pins for 8 microsteps, reply. -/
theorem test_setMotionMode :
    (afterFrame [0x3A#8, 0x47#8, 0x31#8, 0x33#8, 0x31#8] State.reset).map
      (fun t => (t.ra.slewType, t.ra.slewSpeed, t.ra.slewDir, t.ra.msPin, t.tx))
      = some (.tracking, .fast, .ccw, ⟨true, true, false⟩, [0x3D#8, 0x0D#8]) := by decide

/-- FR15. -/
theorem test_setMotionMode_bad_digit :
    (afterFrame [0x3A#8, 0x47#8, 0x31#8, 0x34#8, 0x30#8] State.reset).map
      (fun t => (t.ra.slewSpeed, t.rxLen, t.tx)) = some (.unset, 0, []) := by decide

/-- T1. -/
theorem test_setGotoTarget :
    (afterFrame [0x3A#8, 0x53#8, 0x31#8, 0x46#8, 0x45#8, 0x46#8, 0x46#8, 0x39#8, 0x46#8] State.reset).map
      (fun t => (t.ra.target, t.tx)) = some (0x9FFFFE, [0x3D#8, 0x0D#8]) := by decide

/-- T5: below zero, not reduced. -/
theorem test_setGotoTargetIncrement_ccw :
    (afterFrame [0x3A#8, 0x48#8, 0x31#8, 0x30#8, 0x31#8, 0x30#8, 0x30#8, 0x30#8, 0x30#8]
      (withRa { inMode .goto .slow .ccw with position := 0 })).map (fun t => t.ra.target) = some (-1) := by decide

/-- T4: direction NONE adds. -/
theorem test_setGotoTargetIncrement_none :
    (afterFrame [0x3A#8, 0x48#8, 0x31#8, 0x31#8, 0x30#8, 0x30#8, 0x30#8, 0x30#8, 0x30#8] State.reset).map
      (fun t => t.ra.target) = some 0x800010 := by decide

/-- SP2. -/
theorem test_setStepPeriod :
    (afterFrame [0x3A#8, 0x49#8, 0x32#8, 0x46#8, 0x46#8, 0x30#8, 0x30#8, 0x30#8, 0x30#8] State.reset).map
      (fun t => (t.dec.stepPeriod, t.ra.stepPeriod, t.tx)) = some (255, 0, [0x3D#8, 0x0D#8]) := by decide

/-- SE5, M1, O1, AG1, LS1. -/
theorem test_no_ops :
    replyTo [0x3A#8, 0x46#8, 0x33#8] State.reset = some [0x3D#8, 0x0D#8] ∧
    replyTo [0x3A#8, 0x4D#8, 0x31#8, 0x30#8, 0x30#8, 0x30#8, 0x30#8, 0x30#8, 0x30#8] State.reset
      = some [0x3D#8, 0x0D#8] ∧
    replyTo [0x3A#8, 0x4F#8, 0x31#8, 0x31#8] State.reset = some [0x3D#8, 0x0D#8] ∧
    replyTo [0x3A#8, 0x50#8, 0x31#8, 0x32#8] State.reset = some [0x3D#8, 0x0D#8] ∧
    replyTo [0x3A#8, 0x4C#8, 0x31#8] State.reset = some [0x3D#8, 0x0D#8] := by decide

/-- P6 line 7: `L` stops nothing. -/
theorem test_instantStop_moving :
    (afterFrame [0x3A#8, 0x4C#8, 0x31#8] (withRa (slowTracking 3 0))).map (fun t => t.ra)
      = some (slowTracking 3 0) := by decide +kernel

/-- LED1. -/
theorem test_setPolarLEDBrightness :
    (afterFrame [0x3A#8, 0x56#8, 0x32#8, 0x46#8, 0x46#8] State.reset).map (fun t => (t.led, t.ledPort, t.tx))
      = some (255#8, some 255#8, [0x3D#8, 0x0D#8]) := by decide

/-- ST1. -/
theorem test_startMotion_no_mode :
    (afterFrame [0x3A#8, 0x4A#8, 0x31#8] State.reset).map (fun t => (t.ra.moving, t.tx))
      = some (false, [0x21#8, 0x34#8, 0x0D#8]) := by decide

/-- ST3. -/
theorem test_startMotion_tracking :
    (afterFrame [0x3A#8, 0x4A#8, 0x31#8] (withRa { inMode .tracking .slow .cw with stepPeriod := 3 })).map
      (fun t => t.ra) = some (slowTracking 3 0) := by decide +kernel

/-- KS1. -/
theorem test_stopMotion_idle :
    (afterFrame [0x3A#8, 0x4B#8, 0x31#8] State.reset).map (fun t => (t.ra.stopping, t.tx))
      = some (false, [0x3D#8, 0x0D#8]) := by decide

/-- KS3. -/
theorem test_stopMotion_cruising :
    (afterFrame [0x3A#8, 0x4B#8, 0x31#8] (withRa cruising)).map
      (fun t => (t.ra.stopping, t.ra.moving, t.ra.g.target, t.ra.g.n, t.ra.g.cn))
      = some (true, true, 50, -24, 101000 / 99) := by decide +kernel

/-- Section 6. -/
theorem test_constant_getters :
    replyTo [0x3A#8, 0x61#8, 0x33#8] State.reset
      = some [0x3D#8, 0x30#8, 0x30#8, 0x30#8, 0x30#8, 0x34#8, 0x30#8, 0x0D#8] ∧
    replyTo [0x3A#8, 0x62#8, 0x39#8] State.reset
      = some [0x3D#8, 0x32#8, 0x30#8, 0x34#8, 0x45#8, 0x30#8, 0x30#8, 0x0D#8] ∧
    replyTo [0x3A#8, 0x67#8, 0x31#8] State.reset = some [0x3D#8, 0x30#8, 0x34#8, 0x0D#8] ∧
    replyTo [0x3A#8, 0x44#8, 0x31#8] State.reset
      = some [0x3D#8, 0x36#8, 0x43#8, 0x30#8, 0x32#8, 0x30#8, 0x30#8, 0x0D#8] ∧
    replyTo [0x3A#8, 0x73#8, 0x31#8] State.reset
      = some [0x3D#8, 0x30#8, 0x30#8, 0x30#8, 0x30#8, 0x30#8, 0x30#8, 0x0D#8] := by decide

/-- Section 6: `e`, `q`. -/
theorem test_version_getters :
    replyTo [0x3A#8, 0x65#8, 0x31#8] State.reset
      = some [0x3D#8, 0x30#8, 0x33#8, 0x30#8, 0x31#8, 0x30#8, 0x30#8, 0x0D#8] ∧
    replyTo [0x3A#8, 0x71#8, 0x31#8] State.reset
      = some [0x3D#8, 0x30#8, 0x30#8, 0x30#8, 0x30#8, 0x30#8, 0x30#8, 0x0D#8] := by decide

/-- Section 6 and P2: `h`, `i`, `j`, `d`. -/
theorem test_register_getters :
    replyTo [0x3A#8, 0x68#8, 0x31#8] State.reset
      = some [0x3D#8, 0x30#8, 0x30#8, 0x30#8, 0x30#8, 0x38#8, 0x30#8, 0x0D#8] ∧
    replyTo [0x3A#8, 0x69#8, 0x31#8] (withRa (slowTracking 3 0))
      = some [0x3D#8, 0x30#8, 0x33#8, 0x30#8, 0x30#8, 0x30#8, 0x30#8, 0x0D#8] ∧
    replyTo [0x3A#8, 0x6A#8, 0x31#8] (withRa { idle with position := 0x80 })
      = some [0x3D#8, 0x38#8, 0x30#8, 0x30#8, 0x30#8, 0x30#8, 0x30#8, 0x0D#8] ∧
    replyTo [0x3A#8, 0x64#8, 0x32#8] (withRa { idle with position := 0x80 })
      = some [0x3D#8, 0x30#8, 0x30#8, 0x30#8, 0x30#8, 0x38#8, 0x30#8, 0x0D#8] := by decide +kernel

/-- GM4 and P2 line 9. -/
theorem test_getStatus :
    replyTo [0x3A#8, 0x66#8, 0x31#8] (withRa (inMode .tracking .fast .ccw))
      = some [0x3D#8, 0x37#8, 0x30#8, 0x31#8, 0x0D#8] ∧
    replyTo [0x3A#8, 0x66#8, 0x31#8] (withRa (slowTracking 3 0))
      = some [0x3D#8, 0x31#8, 0x31#8, 0x31#8, 0x0D#8] := by decide +kernel

/-! ## The other events -/

/-- FR2: `\r` with two bytes held is stored. -/
theorem test_rxByte_cr_stored :
    (nextOf (rxByte 0x0D#8 { State.reset with rxBuf := [(0, 0x3A#8), (1, 0x6A#8)], rxLen := 2 })).map
      (fun t => (t.rxBuf, t.rxLen, t.tx)) = some ([(0, 0x3A#8), (1, 0x6A#8), (2, 0x0D#8)], 3, []) := by decide

/-- FR7: `':'` restarts the frame. -/
theorem test_rxByte_colon_restarts :
    (nextOf (rxByte 0x3A#8 { State.reset with rxBuf := [(0, 0x3A#8), (1, 0x45#8), (2, 0x31#8)], rxLen := 3 })).map
      (fun t => (heldFrame t, t.tx)) = some ([0x3A#8], []) := by decide

/-- R20, log 7: a byte nothing has written reads as 0, and storing 0 keeps the canonical form. -/
theorem test_buffer_canonical :
    memRead [(1, 0x3A#8)] 0 = 0 ∧ memRead [(1, 0x3A#8)] 1 = 0x3A#8 ∧
    memWrite [(0, 0x3A#8), (1, 0x45#8)] 1 0 = [(0, 0x3A#8)] ∧
    memWrite [(0, 0x3A#8), (2, 0x31#8)] 1 0x45#8 = [(0, 0x3A#8), (1, 0x45#8), (2, 0x31#8)] := by decide

/-- R120: the frame held is what was stored, a zero byte too, whatever the buffer held before. -/
theorem test_frame_with_zero_byte :
    heldFrame (rxAppend 0#8 { State.reset with rxBuf := [(0, 0x3A#8), (1, 0x45#8)], rxLen := 1 }) = [0x3A#8, 0#8] := by
  decide

/-- W1, W2, W3: one step across or at a window boundary. -/
theorem test_tick_wraps :
    (tickMotor Config.tc { slowTracking 1 0 with position := 0x9FFFFF }).position = 0x600000 ∧
    (tickMotor Config.tc { slowTracking 1 0 with position := 0xA00000 }).position = 0x600001 ∧
    (tickMotor Config.tc { slowTracking 1 0 with
      position := 0x600000
      g := { (slowTracking 1 0).g with dir := .neg } }).position = 0x9FFFFF := by decide +kernel

/-- The tick divider table: the third tick of period 3 steps, period 0 never does. -/
theorem test_tick_divider :
    (tickMotor Config.tc (slowTracking 3 2)).position = 0x800001 ∧
    (tickMotor Config.tc (slowTracking 3 2)).tickCount = 0 ∧
    (tickMotor Config.tc (slowTracking 3 1)).position = 0x800000 ∧
    (tickMotor Config.tc (slowTracking 0 99)).tickCount = 100 := by decide +kernel

/-- R307, U6: the step onto the sentinel is refused, the step before it is not, and without a step nothing is. -/
theorem test_tick_at_sentinel :
    (tick .ra (withRa { slowTracking 3 2 with g := { (slowTracking 3 2).g with position := 2147483646 } })
      = .refused .positionRange) ∧
    (nextOf (tick .ra (withRa { slowTracking 3 2 with g := { (slowTracking 3 2).g with position := 2147483645 } }))).map
      (fun t => t.ra.g.position) = some 2147483646 ∧
    (nextOf (tick .ra (withRa { slowTracking 3 1 with g := { (slowTracking 3 1).g with position := 2147483646 } }))).map
      (fun t => t.ra.g.position) = some 2147483646 := ⟨rfl, by decide +kernel⟩

/-- GD2, GD4, GD6, GD7. -/
theorem test_gotoSteps :
    gotoSteps Config.tc { inMode .goto .slow .cw with position := 0x800050, target := 0x800000 } = 4194224 ∧
    gotoSteps Config.tc { inMode .goto .slow .ccw with position := 0x600002, target := 0x9FFFFE } = -4 ∧
    gotoSteps Config.tc { inMode .goto .fast .cw with target := 0x800053 } = 20 ∧
    gotoSteps Config.tc { inMode .goto .fast .ccw with target := 0x7FFFAD } = -20 := by decide

/-- P3 pulse 1: the recurrence from `C0`. -/
theorem test_ramp_second_step :
    (computeNewSpeed Config.tc (run { slowTracking 0 0 with g := { (slowTracking 0 0).g with target := 20 } })).g
      = { position := 1, target := 20, speed := 1000000 / 4056, cn := 4056, n := 2, pps := 81, dir := .pos } := by
  decide +kernel

/-- P2 lines 13 and 15: the slow stop, and the long tick that ends it. -/
theorem test_slow_stop :
    (stopMotor Config.tc (slowTracking 3 1)).g
      = { position := 0, target := 0, speed := 0, cn := 6760, n := 0, pps := 0, dir := .pos } ∧
    (longTickMotor { slowTracking 3 1 with stopping := true }).moving = false ∧
    (longTickMotor (slowTracking 3 1)).moving = true := by decide +kernel

/-- WD1, WD2. -/
theorem test_watchdog :
    (pollTimeout { State.reset with nowMs := 5000 }).ra.stopping = false ∧
    (pollTimeout { State.reset with nowMs := 5001 }).ra.stopping = true ∧
    (pollTimeout { State.reset with nowMs := 5001 }).dec.stopping = true := by decide +kernel

/-- R39: the registers of the reset table. -/
theorem test_reset :
    State.reset.rxLen = 0 ∧ State.reset.ra.position = 0x800000 ∧ State.reset.dec.target = 0x800000 ∧
    State.reset.ra.slewSpeed = .unset ∧ State.reset.ra.msPin = ⟨true, false, true⟩ ∧ State.reset.ra.dirPin = true := by
  decide

/-- S16 and R200: `C0` squared is `(0.676 * 1000000)^2 * 2 / ACCEL`, and `CMIN` is `1000000 / MAX_SPEED`. -/
theorem test_ramp_constants :
    Config.tc.c0 * Config.tc.c0 * Config.tc.accel = 676000 * 676000 * 2 ∧
    Config.tc.cmin * Config.tc.maxSpeed = 1000000 := by decide +kernel

/-- One tenth in 24 bits is 13421773 / 2^27 (IEEE 754 binary32). -/
theorem test_roundBinary :
    roundBinary 24 (1 / 10) = 13421773 / 134217728 ∧ roundBinary 24 16777217 = 16777216 := by decide +kernel

/-- Log 24: the first interval of a ramp is a value of the format; 6760.1 in 24 bits is 13844685 / 2^11 (IEEE 754). -/
theorem test_first_interval_rounded :
    (computeNewSpeed { Config.tc with c0 := 67601 / 10, fp := .binary 24 } (ramping 1 0 0 .pos)).g.cn
      = 13844685 / 2048 := by decide +kernel

/-! ## Witnesses: each theorem meets the hypotheses of the statement it names, each clause at a boundary -/

theorem witness_HexRoundTrip :
    0xFF < 16 ^ HexWidth.w2.len ∧ 0xFFFF < 16 ^ HexWidth.w4.len ∧ 0xFFFFFF < 16 ^ HexWidth.w6.len := by decide

theorem witness_EncodedDigitOrder :
    2 * 0 < HexWidth.w2.len ∧ 2 * 1 < HexWidth.w4.len ∧ 2 * 2 < HexWidth.w6.len := by decide

/-- The first and last digit of each range and the bytes beside them. -/
theorem witness_FieldPairsAreBytes :
    (0x30 ≤ (0x30#8).toNat ∧ (0x39#8).toNat ≤ 0x39 ∧ 0x41 ≤ (0x41#8).toNat ∧ (0x46#8).toNat ≤ 0x46 ∧
      0x61 ≤ (0x61#8).toNat ∧ (0x66#8).toNat ≤ 0x66) ∧
    ∀ b ∈ [0x00#8, 0x2F#8, 0x3A#8, 0x40#8, 0x47#8, 0x60#8, 0x67#8, 0xFF#8],
      b.toNat < 0x30 ∨ (0x39 < b.toNat ∧ b.toNat < 0x41) ∨ (0x46 < b.toNat ∧ b.toNat < 0x61) ∨ 0x66 < b.toNat := by
  decide

theorem witness_DecodeOfEncode :
    configOk Config.tc = true ∧ (Instr.setPosition .none 0xFFFFFF).wf = true ∧
    (Instr.setMotionMode .both .goto .slow .ccw).wf = true ∧ (Instr.setSwitch .ra 15).wf = true ∧
    (Instr.setPolarLEDBrightness .dec 255).wf = true ∧ (Instr.getStatus .ra).wf = true := by decide

theorem witness_FactoryTotality :
    [0x3A#8].length < 2 ∧ 2 ≤ [0x3A#8, 0x45#8].length ∧ 2 ≤ [0x3A#8, 0x5A#8].length ∧
    identify [0x3A#8, 0x45#8] = some .setPosition ∧ identify [0x3A#8, 0x5A#8] = none := by decide

/-- One parsed frame for each shape of payload; `F` as the direction byte is counter-clockwise, a byte that is no digit
clockwise. -/
theorem witness_ParseChecks :
    parse Config.tc .setMotionMode [0x3A#8, 0x47#8, 0x31#8, 0x33#8, 0x46#8]
      = .ok (.setMotionMode .ra .tracking .fast .ccw) ∧
    parse Config.tc .setMotionMode [0x3A#8, 0x47#8, 0x31#8, 0x30#8, 0x5A#8]
      = .ok (.setMotionMode .ra .goto .fast .cw) ∧
    parse Config.tc .getPosition [0x3A#8, 0x6A#8, 0x31#8] = .ok (.getPosition .ra) ∧
    parse Config.tc .setStepPeriod [0x3A#8, 0x49#8, 0x32#8, 0x46#8, 0x46#8, 0x30#8, 0x30#8, 0x30#8, 0x31#8]
      = .ok (.setStepPeriod .dec 0x0100FF) ∧
    parse Config.tc .setPolarLEDBrightness [0x3A#8, 0x56#8, 0x39#8, 0x46#8, 0x30#8]
      = .ok (.setPolarLEDBrightness .none 0xF0) ∧
    parse Config.tc .setAutoguideSpeed [0x3A#8, 0x50#8, 0x33#8, 0x46#8] = .ok (.setAutoguideSpeed .both 15) := by decide

theorem witness_DecodedIsWellFormed :
    decode Config.tc [0x3A#8, 0x56#8, 0x31#8, 0x46#8, 0x46#8] = .ok (.setPolarLEDBrightness .ra 255) := by decide

theorem witness_AxisByteRoutes :
    (0x30#8 ≠ 0x31#8 ∧ 0x30#8 ≠ 0x32#8 ∧ 0x30#8 ≠ 0x33#8) ∧ (0x34#8 ≠ 0x31#8 ∧ 0x34#8 ≠ 0x32#8 ∧ 0x34#8 ≠ 0x33#8) := by
  decide

theorem witness_RxAppendStoresOrDrops :
    ({ State.reset with rxLen := 15 } : State).rxLen < State.reset.cfg.rxBufCap ∧
    State.reset.cfg.rxBufCap ≤ ({ State.reset with rxLen := 16 } : State).rxLen := by decide

theorem witness_RxByteStores :
    configOk State.reset.cfg = true ∧
    (0x0D#8 ≠ 0x3A#8 ∧ ¬ (0x0D#8 = 0x0D#8 ∧ 2 < 2) ∧ 2 < State.reset.cfg.rxBufCap) ∧
    (0x30#8 ≠ 0x3A#8 ∧ ¬ (0x30#8 = 0x0D#8 ∧ 2 < 15) ∧ 15 < State.reset.cfg.rxBufCap) ∧
    (0x30#8 ≠ 0x3A#8 ∧ ¬ (0x30#8 = 0x0D#8 ∧ 2 < 16) ∧ State.reset.cfg.rxBufCap ≤ 16) := by decide

/-- One frame for each of the four reasons: no opcode, a wrong length, no start marker, a bad mode digit. -/
theorem witness_BadFrameIsSilent :
    (heldFrame (holdFrame [0x3A#8, 0x5A#8, 0x31#8] State.reset) = [0x3A#8, 0x5A#8, 0x31#8] ∧
      2 < (holdFrame [0x3A#8, 0x5A#8, 0x31#8] State.reset).rxLen ∧ ∀ op ∈ opcodeTable, op.byte ≠ 0x5A#8) ∧
    (Opcode.getPosition.byte = 0x6A#8 ∧ [0x3A#8, 0x6A#8, 0x31#8, 0x32#8].length ≠ requiredLen Config.tc .getPosition) ∧
    (Opcode.getTimerFreq.byte = 0x62#8 ∧ [0x61#8, 0x62#8, 0x63#8].getD 0 0 ≠ 0x3A#8) ∧
    (Opcode.setMotionMode.byte = 0x47#8 ∧
      [0x3A#8, 0x47#8, 0x31#8, 0x34#8, 0x30#8].getD 3 0 ∉ [0x30#8, 0x31#8, 0x32#8, 0x33#8]) := by decide

theorem witness_StepRunsDecodedCommand :
    let s := holdFrame [0x3A#8, 0x6A#8, 0x31#8] State.reset
    configOk s.cfg = true ∧ s.inputs = [⟨0, .rxByte 0x0D#8⟩] ∧ 2 < s.rxLen ∧
    decode s.cfg (heldFrame s) = .ok (.getPosition .ra) ∧
    (nextOf (exec (.getPosition .ra)
      { s with inputs := [], nowMs := s.nowMs + 0, lastRxMs := s.nowMs + 0 })).isSome = true := by decide

theorem witness_StepRunsEvents :
    configOk State.reset.cfg = true ∧ State.reset.inputs = [] ∧
    (∀ e ∈ [.rxByte 0x3A#8, .pollTimeout, .longTick .ra, .tick .dec, .reset],
      (pending e State.reset).inputs = [⟨0, e⟩]) := by decide

theorem witness_WireCommandExecutes :
    configOk State.reset.cfg = true ∧ (Instr.setGotoTarget .dec 0x9FFFFE).wf = true := by decide

/-- Both cases of the gated commands `E`, `S`, `G`, `H`. -/
theorem witness_gated_effects :
    (motor (motorOf .ra) (withRa (slowTracking 3 0))).moving = true ∧ (motor (motorOf .dec) State.reset).moving = false ∧
    (motor (motorOf .none) (withRa (inMode .goto .slow .ccw))).moving = false := by decide

theorem witness_NoOpCommandsReplyEmpty :
    Instr.setSwitch .ra 15 ∈ [.initializationDone .ra, .setBreakpointIncrement .ra 15, .setSwitch .ra 15,
      .setAutoguideSpeed .ra 15, .instantStop .ra] := by decide

theorem witness_SetLedEffect : 255 < 256 := by decide

theorem witness_PreconditionErrorsHaveNoEffect :
    (motor (motorOf (Instr.setPosition .ra 0).axis) (withRa (slowTracking 3 0))).moving = true ∧
    (motor (motorOf (Instr.startMotion .both).axis) (withRa (slowTracking 3 0))).slewSpeed ≠ .unset ∧
    (Instr.setGotoTargetIncrement .ra 1).opcode
      ∈ [.setPosition, .setMotionMode, .setGotoTarget, .setGotoTargetIncrement] ∧
    (motor (motorOf (Instr.startMotion .dec).axis) State.reset).slewSpeed = .unset := by decide

/-- Both directions. -/
theorem witness_StartTrackingEffect :
    ∀ d ∈ [SlewDir.cw, .ccw],
      let s := withRa (inMode .tracking .slow d)
      configOk s.cfg = true ∧ (motor (motorOf .ra) s).slewType = .tracking ∧
      (motor (motorOf .ra) s).slewSpeed ≠ .unset ∧ (motor (motorOf .ra) s).moving = false ∧
      (motor (motorOf .ra) s).g.position = 0 ∧ (motor (motorOf .ra) s).g.target = 0 ∧
      (motor (motorOf .ra) s).g.speed = 0 ∧ (motor (motorOf .ra) s).g.n = 0 := by decide +kernel

/-- GD8, GD1, GD4. -/
theorem witness_StartGotoEffect :
    let s0 := withRa (inMode .goto .fast .cw)
    let s1 := withRa { inMode .goto .slow .cw with target := 0x800001 }
    let s2 := withRa { inMode .goto .slow .ccw with target := 0x7FFFFF }
    (∀ s ∈ [s0, s1, s2], configOk s.cfg = true ∧ (motor (motorOf .ra) s).slewType = .goto ∧
      (motor (motorOf .ra) s).slewSpeed ≠ .unset ∧ (motor (motorOf .ra) s).moving = false) ∧
    statedGotoSteps s0.cfg s0.ra = 0 ∧ statedGotoSteps s1.cfg s1.ra = 1 ∧ statedGotoSteps s2.cfg s2.ra = -1 := by
  decide +kernel

/-- At rest, and moving with a stop point that is not the target (a cruise) and one that is (an idle generator). -/
theorem witness_StopMotionEffect :
    (motor (motorOf .ra) State.reset).moving = false ∧
    ((motor (motorOf .ra) (withRa cruising)).moving = true ∧ 25 + 1 * (stepsToStop Config.tc cruising.g : Int) ≠ 2147483647) ∧
    ((motor (motorOf .ra) (withRa { idle with moving := true })).moving = true ∧
      0 + 1 * (stepsToStop Config.tc idle.g : Int) = idle.g.target) := by
  decide +kernel

theorem witness_StopOfSlowGeneratorIdlesIt :
    configOk Config.tc = true ∧ stepsToStop Config.tc (slowTracking 3 0).g = 0 ∧
    (slowTracking 3 0).g.target ≠ (slowTracking 3 0).g.position ∧
    Config.tc.genNegInf < (slowTracking 3 0).g.position ∧ (slowTracking 3 0).g.position < Config.tc.genPosInf := by
  decide +kernel

theorem witness_VersionAndExtendedStatusGetters :
    State.reset.cfg.version = (0, 3, 0, 1) ∧ State.reset.cfg.extStatus = (0, 0, 0) := by decide

theorem witness_EveryCommandSendsOneReply : configOk (withRa cruising).cfg = true := by decide

theorem witness_CommandIsLocal :
    (nextOf (exec (.startMotion .ra) (withRa (inMode .tracking .slow .cw)))).isSome = true ∧
    MotorId.dec ≠ motorOf (Instr.startMotion .ra).axis ∧
    (Instr.startMotion .ra).opcode ≠ .setPolarLEDBrightness := by decide +kernel

theorem witness_ConfigurationIsConstant : (nextOf (step (pending (.rxByte 0x3A#8) State.reset))).isSome = true := by
  decide

theorem witness_ModeFixedWhileMoving :
    let s := pending (.tick .ra) (withRa (slowTracking 3 2))
    (nextOf (step s)).isSome = true ∧ (motor .ra s).moving = true ∧
    ∀ a ∈ s.inputs, a.event ≠ .reset := by decide +kernel

/-- A long tick ends the motion, and so does power-on. -/
theorem witness_OnlyLongTickEndsMotion :
    ∀ e ∈ [Event.longTick .ra, .reset],
      let s := pending e (withRa { slowTracking 3 0 with stopping := true })
      (motor .ra s).moving = true ∧ (nextOf (step s)).map (fun t => (motor .ra t).moving) = some false := by
  decide +kernel

theorem witness_NothingUnsolicited :
    (∀ e ∈ [Event.pollTimeout, .rxByte 0x3A#8, .rxByte 0x0D#8],
      (nextOf (step (pending e State.reset))).isSome = true ∧ e ≠ .reset) ∧
    Event.pollTimeout ≠ .rxByte 0x0D#8 := by decide +kernel

theorem witness_ClampedDistance :
    configOk Config.tc = true ∧ Config.tc.genPosInf ≤ (ramping 2147483647 0 0 .pos).g.target ∧
    (ramping (-2147483647) 0 0 .pos).g.target ≤ Config.tc.genNegInf ∧
    (Config.tc.genNegInf < (ramping 2147483646 0 0 .pos).g.target ∧
      (ramping 2147483646 0 0 .pos).g.target < Config.tc.genPosInf) ∧
    Config.tc.genNegInf < (ramping (-2147483646) 0 0 .pos).g.target := by decide

theorem witness_StoppingDistance : configOk Config.tc = true ∧ Config.tc.fp = .exact := by decide

theorem witness_SetTargetRecomputes : 20 = (ramping 20 0 0 .pos).g.target ∧ 21 ≠ (ramping 20 0 0 .pos).g.target := by
  decide

/-- The stopping distance is 1 at speed 200, 2 at 283 and 25 at 1000 (R203). -/
theorem witness_RampPhaseDecision :
    (∀ ax ∈ [ramping 0 200 (-1) .pos], clampedDistanceToGo Config.tc ax.g = 0 ∧ stepsToStop Config.tc ax.g ≤ 1) ∧
    (∀ ax ∈ [ramping 0 283 (-1) .pos], clampedDistanceToGo Config.tc ax.g = 0 ∧ 1 < stepsToStop Config.tc ax.g) ∧
    (∀ ax ∈ [ramping 1 0 0 .pos], clampedDistanceToGo Config.tc ax.g ≠ 0 ∧ ax.g.n = 0) ∧
    (∀ ax ∈ [ramping 25 1000 1 .pos, ramping 26 1000 1 .neg], 0 < clampedDistanceToGo Config.tc ax.g ∧ 0 < ax.g.n ∧
      (clampedDistanceToGo Config.tc ax.g ≤ stepsToStop Config.tc ax.g ∨ ax.g.dir = .neg)) ∧
    (∀ ax ∈ [ramping 26 1000 1 .pos], 0 < clampedDistanceToGo Config.tc ax.g ∧ 0 < ax.g.n ∧
      stepsToStop Config.tc ax.g < clampedDistanceToGo Config.tc ax.g ∧ ax.g.dir = .pos) ∧
    (∀ ax ∈ [ramping 26 1000 (-1) .pos], 0 < clampedDistanceToGo Config.tc ax.g ∧ ax.g.n < 0 ∧
      stepsToStop Config.tc ax.g < clampedDistanceToGo Config.tc ax.g ∧ ax.g.dir = .pos) ∧
    (∀ ax ∈ [ramping 25 1000 (-1) .pos, ramping 26 1000 (-1) .neg], 0 < clampedDistanceToGo Config.tc ax.g ∧
      ax.g.n < 0 ∧ (clampedDistanceToGo Config.tc ax.g ≤ stepsToStop Config.tc ax.g ∨ ax.g.dir = .neg)) := by
  decide +kernel

theorem witness_RampPhaseDecision_negative :
    (∀ ax ∈ [ramping (-25) 1000 1 .neg, ramping (-26) 1000 1 .pos], clampedDistanceToGo Config.tc ax.g < 0 ∧
      0 < ax.g.n ∧ (-clampedDistanceToGo Config.tc ax.g ≤ stepsToStop Config.tc ax.g ∨ ax.g.dir = .pos)) ∧
    (∀ ax ∈ [ramping (-26) 1000 1 .neg], clampedDistanceToGo Config.tc ax.g < 0 ∧ 0 < ax.g.n ∧
      stepsToStop Config.tc ax.g < -clampedDistanceToGo Config.tc ax.g ∧ ax.g.dir = .neg) ∧
    (∀ ax ∈ [ramping (-26) 1000 (-1) .neg], clampedDistanceToGo Config.tc ax.g < 0 ∧ ax.g.n < 0 ∧
      stepsToStop Config.tc ax.g < -clampedDistanceToGo Config.tc ax.g ∧ ax.g.dir = .neg) ∧
    (∀ ax ∈ [ramping (-25) 1000 (-1) .neg, ramping (-26) 1000 (-1) .pos], clampedDistanceToGo Config.tc ax.g < 0 ∧
      ax.g.n < 0 ∧ (-clampedDistanceToGo Config.tc ax.g ≤ stepsToStop Config.tc ax.g ∨ ax.g.dir = .pos)) := by
  decide +kernel

/-- A ramp that starts, and one that goes on. -/
theorem witness_RampIntervalAndSpeed :
    (∀ ax ∈ [ramping 1 0 0 .pos, ramping 26 1000 1 .pos],
      ¬ (clampedDistanceToGo Config.tc ax.g = 0 ∧ stepsToStop Config.tc ax.g ≤ 1)) ∧
    (computeNewSpeed Config.tc (ramping 1 0 0 .pos)).g.n = 1 ∧
    (computeNewSpeed Config.tc (ramping 26 1000 1 .pos)).g.n = 2 := by decide +kernel

theorem witness_ShortRampsTerminate :
    (0 < |(1 : Int)| ∧ |(1 : Int)| ≤ 60 ∧ 0 < |(-60 : Int)| ∧ |(-60 : Int)| ≤ 60) ∧
    idle.g.position = 0 ∧ idle.g.target = 0 ∧ idle.g.speed = 0 ∧ idle.g.n = 0 := by decide +kernel

theorem witness_WrapOneRevolution :
    configOk Config.tc = true ∧ windowHigh Config.tc ≤ 0xA00000 ∧ 0x5FFFFF < windowLow Config.tc ∧
    (windowLow Config.tc ≤ 0x600000 ∧ 0x9FFFFF < windowHigh Config.tc) ∧
    windowLow Config.tc - Config.tc.rev ≤ 0x200000 ∧ 0xDFFFFF < windowHigh Config.tc + Config.tc.rev := by decide

theorem witness_MicrostepPatterns :
    configOk Config.tc = true ∧ 1 ∈ [1, 2, 4, 8, 16, 32] ∧ 32 ∈ [1, 2, 4, 8, 16, 32] ∧
    ustepLevels Config.tc.ustepPattern 8 = ustepLevels Config.tc.ustepPattern 8 ∧ 0 ∉ [1, 2, 4, 8, 16, 32] ∧
    64 ∉ [1, 2, 4, 8, 16, 32] := by decide

/-- At rest; period 0; one tick before the period; and the same with acceleration. -/
theorem witness_TickWithoutStep :
    (motor .ra State.reset).moving = false ∧ (motor .ra (withRa (slowTracking 0 7))).moving = true ∧
    (slowTracking 0 7).stepPeriod = 0 ∧ (motor .ra (withRa (slowTracking 3 1))).moving = true ∧
    (slowTracking 3 1).tickCount + 1 < (slowTracking 3 1).stepPeriod ∧
    (motor .ra (withRa { cruising with tickCount := 18 })).moving = true ∧ 18 + 1 < cruising.g.pps := by decide

/-- On the period, without and with acceleration; the last position in range and the first one refused. -/
theorem witness_TickWithStep :
    (motor .ra (withRa (slowTracking 3 2))).moving = true ∧ 0 < (slowTracking 3 2).stepPeriod ∧
    (slowTracking 3 2).stepPeriod ≤ (slowTracking 3 2).tickCount + 1 ∧ (slowTracking 3 2).slewType ≠ .goto ∧
    (motor .ra (withRa { cruising with tickCount := 19 })).moving = true ∧ 0 < cruising.g.pps ∧
    cruising.g.pps ≤ ({ cruising with tickCount := 19 } : AxisMotor).tickCount + 1 ∧ cruising.slewSpeed = .fast ∧
    (Config.tc.genNegInf < 2147483645 + 1 ∧ 2147483645 + 1 < Config.tc.genPosInf) ∧
    (Config.tc.genNegInf < -2147483645 + -1 ∧ -2147483645 + -1 < Config.tc.genPosInf) ∧
    Config.tc.genPosInf ≤ 2147483646 + 1 ∧ -2147483646 + -1 ≤ Config.tc.genNegInf := by decide

theorem witness_TickKeepsWindow :
    let s := withRa { cruising with position := 0x9FFFFF, tickCount := 19 }
    configOk s.cfg = true ∧ s.cfg.kFast ≤ s.cfg.rev ∧ windowLow s.cfg ≤ (motor .ra s).position ∧
    (motor .ra s).position < windowHigh s.cfg ∧ (nextOf (tick .ra s)).isSome = true := by decide +kernel

/-- A tick that steps, and one that does not. -/
theorem witness_PositionFollowsPulses :
    (nextOf (tick .ra (withRa { cruising with tickCount := 19 }))).map (fun t => t.ra.pulses) = some 1 ∧
    (nextOf (tick .dec State.reset)).map (fun t => t.dec.pulses) = some 0 := by decide +kernel

/-- A pending slow stop; an idle generator; a running one. -/
theorem witness_LongTickEndsFinishedMotion :
    (({ slowTracking 3 0 with stopping := true } : AxisMotor).stopping = true ∧ (slowTracking 3 0).slewType ≠ .goto ∧
      (slowTracking 3 0).slewSpeed ≠ .fast) ∧
    (idle.g.speed = 0 ∧ idle.g.position = idle.g.target) ∧
    (cruising.stopping = false ∧ cruising.g.speed ≠ 0) := by decide +kernel

theorem witness_WatchdogStopsBothAxes :
    5000 ≤ State.reset.lastRxMs + State.reset.cfg.serialTimeoutMs ∧
    State.reset.lastRxMs + State.reset.cfg.serialTimeoutMs < 5001 := by decide

theorem idle_inv : AxisInv Config.tc idle := by
  refine ⟨rfl, rfl, rfl, ?_, ?_, ?_, ?_, ?_, ?_, ?_, ?_, ?_⟩ <;> decide +kernel

theorem witness_WatchdogOnIdleAxis :
    let s : State := { State.reset with nowMs := 5001 }
    (∀ m, AxisInv s.cfg (motor m s) ∧ (motor m s).moving = false) ∧ s.lastRxMs + s.cfg.serialTimeoutMs < s.nowMs :=
  ⟨fun m => by cases m <;> exact ⟨idle_inv, rfl⟩, by decide⟩

/-- A state in the middle of a frame meets the invariant and steps. -/
theorem witness_StepKeepsInvariant :
    let s : State := { State.reset with rxBuf := [(0, 0x3A#8)], rxLen := 1, nowMs := 1 }
    Inv s ∧ ∃ t, step s = .next t := by
  refine ⟨⟨by decide, by decide, by decide, by decide, by decide, .inl rfl, by decide, idle_inv, idle_inv⟩, ?_⟩
  exact ⟨_, by simp [step, show configOk State.reset.cfg = true by decide, show State.reset.inputs = [] from rfl]; rfl⟩

/-- A step event; a tick at rest; a tick of a generator two steps from a sentinel. -/
theorem witness_StepNeverStops :
    configOk State.reset.cfg = true ∧ (pending (.rxByte 0x3A#8) State.reset).inputs = [⟨0, .rxByte 0x3A#8⟩] ∧
    (pending (.tick .ra) State.reset).inputs = [⟨0, .tick .ra⟩] ∧
    ∀ p ∈ [(2147483645 : Int), -2147483645], Config.tc.genNegInf + 1 < p ∧ p + 1 < Config.tc.genPosInf := by decide

/-- One configuration for each constraint. -/
theorem witness_BadConfigurationIsRefused :
    (({ Config.tc with tickUs := 0 } : Config).tickUs = 0 ∧
      ({ Config.tc with serialTimeoutMs := 0 } : Config).serialTimeoutMs = 0 ∧
      ({ Config.tc with rxBufCap := 9 } : Config).rxBufCap < 10) ∧
    (({ Config.tc with rev := 0x400001 } : Config).rev % 2 = 1 ∧ ({ Config.tc with rev := 0 } : Config).rev = 0 ∧
      2 ^ 24 ≤ ({ Config.tc with rev := 0x1000000 } : Config).rev ∧
      ({ Config.tc with startPos := 0x1FFFFF } : Config).startPos < Config.tc.rev / 2 ∧
      2 ^ 24 < ({ Config.tc with startPos := 0xE00001 } : Config).startPos + Config.tc.rev / 2) ∧
    (({ Config.tc with ustepSlow := 64 } : Config).ustepSlow ∉ [1, 2, 4, 8, 16, 32] ∧
      ({ Config.tc with ustepFast := 0 } : Config).ustepFast ∉ [1, 2, 4, 8, 16, 32] ∧
      ¬ ({ Config.tc with ustepFast := 32, ustepSlow := 16 } : Config).ustepFast ∣ 16 ∧
      ¬ [UstepTable.drv8825.p1, UstepTable.drv8825.p1].Nodup) ∧
    (256 ≤ ({ Config.tc with highSpeedRatio := 256 } : Config).highSpeedRatio ∧ 16 ∈ [0, 3, 16, 1] ∧ 16 ∈ [16, 0, 0]) ∧
    (({ Config.tc with accel := 0 } : Config).accel ≤ 0 ∧ ({ Config.tc with maxSpeed := 0 } : Config).maxSpeed ≤ 0 ∧
      ({ Config.tc with cmin := 0 } : Config).cmin ≤ 0 ∧ ({ Config.tc with c0 := 999 } : Config).c0 < Config.tc.cmin) ∧
    (0 ≤ ({ Config.tc with genNegInf := 0 } : Config).genNegInf ∧
      ({ Config.tc with genPosInf := 0 } : Config).genPosInf ≤ 0 ∧
      (({ Config.tc with distInf := 26 } : Config).distInf : Rat) ≤
        Config.tc.maxSpeed ^ 2 / (2 * Config.tc.accel) + 1) := by
  decide +kernel

end Sys2Proof.Tests
end

section
/-! SUPPORT. The constraints of R7 that `configOk` gives beside those of Laws/Config.lean, and the two steps that run no
event. -/

namespace Sys2Proof.Machine

theorem configOk_rev_lt {c : Config} (h : configOk c = true) : c.rev < 2 ^ 24 :=
  of_decide_eq_true (configOk_check h (by simp [boundsChecks]))

theorem configOk_startPos {c : Config} (h : configOk c = true) :
    c.rev / 2 ≤ c.startPos ∧ c.startPos + c.rev / 2 ≤ 2 ^ 24 :=
  ⟨of_decide_eq_true (configOk_check h (by simp [boundsChecks])),
    of_decide_eq_true (configOk_check h (by simp [boundsChecks]))⟩

theorem configOk_ustepSlow {c : Config} (h : configOk c = true) : c.ustepSlow ∈ ustepCounts :=
  of_decide_eq_true (configOk_check h (by simp [boundsChecks]))

theorem configOk_ustepFast {c : Config} (h : configOk c = true) : c.ustepFast ∈ ustepCounts :=
  of_decide_eq_true (configOk_check h (by simp [boundsChecks]))

/-- `K_FAST` is a whole number (R7, D18). -/
theorem configOk_ustepFast_dvd {c : Config} (h : configOk c = true) : c.ustepFast ∣ c.ustepSlow :=
  Nat.dvd_of_mod_eq_zero (of_decide_eq_true (configOk_check h (by simp [boundsChecks])))

theorem configOk_highSpeedRatio {c : Config} (h : configOk c = true) : c.highSpeedRatio < 256 :=
  of_decide_eq_true (configOk_check h (by simp [reportChecks]))

theorem configOk_timerFreq {c : Config} (h : configOk c = true) : c.timerFreq < 2 ^ 24 :=
  of_decide_eq_true (configOk_check h (by simp [reportChecks]))

theorem configOk_siderealPeriod {c : Config} (h : configOk c = true) : c.siderealPeriod < 2 ^ 24 :=
  of_decide_eq_true (configOk_check h (by simp [reportChecks]))

theorem configOk_c0_pos {c : Config} (h : configOk c = true) : 0 < c.c0 :=
  (configOk_cmin_pos h).trans_le (configOk_cmin_le_c0 h)

/-- A configuration that breaks R7 is refused before any event is looked at (U27, log 8). -/
theorem step_of_badConfig {s : State} (h : ¬ configOk s.cfg = true) : step s = .refused .badConfig := by
  simp [step, h]

/-- With no event pending SSC waits (R290, log 4). -/
theorem step_of_no_event {s : State} (hc : configOk s.cfg = true) (hi : s.inputs = []) : step s = .next s := by
  simp [step, hc, hi]

end Sys2Proof.Machine
end

section
/-! The obligations of 00_scope.md: the constraints of R7 and the events of R6. -/

namespace Sys2Proof.Machine

/-- Settles O60: each way to break R7 contradicts the fact that `configOk` gives for that constraint. -/
theorem badConfigurationIsRefused : Obligations.BadConfigurationIsRefused := by
  intro s c hbad
  refine step_of_badConfig fun hc : configOk c = true => ?_
  rcases hbad with timing | position | microsteps | reported | ramp | sentinels
  · have := configOk_tickUs hc
    have := configOk_timeout hc
    have := configOk_rxBufCap hc
    omega
  · have := configOk_rev_even hc
    have := configOk_rev_pos hc
    have := configOk_rev_lt hc
    have := configOk_startPos hc
    omega
  · rcases microsteps with slow | fast | ratio | pattern
    · exact slow (configOk_ustepSlow hc)
    · exact fast (configOk_ustepFast hc)
    · exact ratio (configOk_ustepFast_dvd hc)
    · exact pattern (of_decide_eq_true (configOk_ustep hc))
  · rcases reported with h | h | h | h | ⟨v, hv, h⟩ | ⟨e, he, h⟩
    · exact h.not_gt (configOk_highSpeedRatio hc)
    · exact h.not_gt (configOk_timerFreq hc)
    · exact h.not_gt (configOk_siderealPeriod hc)
    · exact h.not_gt (configOk_stepPeriodInit hc)
    · have := configOk_version hc
      simp only [List.mem_cons, List.not_mem_nil, or_false] at hv
      omega
    · have := configOk_extStatus hc
      simp only [List.mem_cons, List.not_mem_nil, or_false] at he
      omega
  · rcases ramp with h | h | h | h | h
    · exact h.not_gt (configOk_accel_pos hc)
    · exact h.not_gt (configOk_maxSpeed_pos hc)
    · exact h.not_gt (configOk_c0_pos hc)
    · exact h.not_gt (configOk_cmin_pos hc)
    · exact h.not_ge (configOk_cmin_le_c0 hc)
  · rcases sentinels with h | h | h
    · exact h.not_gt (configOk_genNegInf hc)
    · exact h.not_gt (configOk_genPosInf hc)
    · exact h.not_gt (configOk_distInf hc)

/-- Settles O14: an admitted configuration with an event pending runs exactly that event's meaning. -/
theorem stepRunsEvents : Obligations.StepRunsEvents := by
  intro s hc
  refine ⟨step_of_no_event hc, fun a rest hi => ?_⟩
  have runs : ∀ e, a.event = e → step s = runEvent e (arrive a rest s) := by
    rintro e rfl
    exact step_of_event hc hi
  exact ⟨fun b => runs (.rxByte b), runs .pollTimeout, fun m => runs (.longTick m), fun m => runs (.tick m),
    runs .reset⟩

end Sys2Proof.Machine
end

section
/-! SUPPORT. The reset registers meet the invariants (R39), and the wrap window under one step (R25, R242). -/

namespace Sys2Proof.Machine

/-- An axis motor at reset meets the axis invariant under every admitted configuration (R39). -/
theorem reset_axisInv {c : Config} (hc : configOk c = true) : AxisInv c (AxisMotor.reset c) where
  dirPin_level := rfl
  stepPin_low := rfl
  msPin_speed := rfl
  speed_sign := by simp [AxisMotor.reset, StepGen.reset]
  speed_zero := by simp [AxisMotor.reset, StepGen.reset]
  speed_nonzero := by simp [AxisMotor.reset, StepGen.reset]
  fp_values := by simp [AxisMotor.reset, StepGen.reset]
  position_range := ⟨configOk_genNegInf hc, configOk_genPosInf hc⟩
  mode_together := by simp [AxisMotor.reset]
  moving_mode := by simp [AxisMotor.reset]
  still_idle := by simp [AxisMotor.reset, StepGen.reset]
  stepPeriod_bound := configOk_stepPeriodInit hc

/-- The state after a reset event meets the machine invariant under every admitted configuration (R39, R290). -/
theorem powerOn_inv {c : Config} (hc : configOk c = true) (now : Nat) (rest : List Arrival) :
    Inv (State.powerOn c now rest) where
  cfg_ok := hc
  buf_wf := by simp [Memory.wf]
  buf_cap := by simp
  len_cap := by simp
  last_past := le_rfl
  led_port := .inl rfl
  tx_alphabet := by simp
  ra_ok := reset_axisInv hc
  dec_ok := reset_axisInv hc

/-- Within a revolution of the window, wrap lands in the window: an even `REV` makes the window one revolution wide. -/
theorem inWindow_wrapPosition {c : Config} (hc : configOk c = true) {p : Int} (hlow : windowLow c - c.rev ≤ p)
    (hhigh : p < windowHigh c + c.rev) : InWindow c (wrapPosition c p) := by
  have heven := configOk_rev_even hc
  simp only [InWindow, wrapPosition, windowLow, windowHigh] at *
  split_ifs <;> omega

/-- A step moves the reference position by at most a revolution when `K_FAST` does not exceed `REV`. -/
theorem ratio_le_rev {c : Config} (hc : configOk c = true) (hk : c.kFast ≤ c.rev) (ax : AxisMotor) :
    ratio c ax ≤ c.rev := by
  unfold ratio
  cases ax.slewSpeed with
  | fast => exact hk
  | slow => exact configOk_rev_pos hc
  | unset => exact configOk_rev_pos hc

/-- Only the step of a tick moves the reference position, by the ratio and a wrap (R240, R242). -/
theorem tickMotor_position (c : Config) (ax : AxisMotor) :
    (tickMotor c ax).position =
      if tickSteps ax = true then wrapPosition c (ax.position + dirValue ax.g.dir * ratio c ax) else ax.position := by
  rcases tickMotor_cases c ax with ⟨hm, h⟩ | ⟨_, hs, h⟩ | ⟨hs, h⟩
  · simp [h, tickSteps, hm]
  · simp [h, hs]
  · obtain ⟨pin, g, hstep, -, -⟩ := tickStep_frame c ax
    simp [h, hs, hstep]

/-- A tick of the motor keeps the reference position in the window. -/
theorem tickMotor_inWindow {c : Config} (hc : configOk c = true) (hk : c.kFast ≤ c.rev) {ax : AxisMotor}
    (hw : InWindow c ax.position) : InWindow c (tickMotor c ax).position := by
  rw [tickMotor_position]
  split_ifs
  · have hr := ratio_le_rev hc hk ax
    obtain ⟨hlow, hhigh⟩ := hw
    cases ax.g.dir with
    | pos => exact inWindow_wrapPosition hc (by simp only [dirValue]; omega) (by simp only [dirValue]; omega)
    | neg => exact inWindow_wrapPosition hc (by simp only [dirValue]; omega) (by simp only [dirValue]; omega)
  · exact hw

end Sys2Proof.Machine
end

section
/-! The obligations of 10_state.md: the wrap window, and the registers at reset. -/

namespace Sys2Proof.Machine

/-- Settles O50: a tick that goes on is a tick of the motor, which moves the position by at most a revolution and wraps. -/
theorem tickKeepsWindow : Obligations.TickKeepsWindow := by
  intro m s t hc hk hw ht
  rcases tick_cases m s with ⟨_, _, hrefused⟩ | ⟨_, hnext⟩
  · exact absurd (hrefused.symm.trans ht) (by simp)
  · obtain rfl : setMotor m (tickMotor s.cfg (motor m s)) s = t := by simpa using hnext.symm.trans ht
    simpa using tickMotor_inWindow hc hk hw

/-- Settles O56: both axes get the reset registers of R39 under the configuration that the event keeps. -/
theorem resetEventRestoresTable : Obligations.ResetEventRestoresTable := by
  intro s
  refine ⟨AxisMotor.reset s.cfg, rfl, ?_⟩
  simp [AxisMotor.reset, StepGen.reset]

/-- Settles O58: TC is an admitted configuration, and every power-on under one meets the invariant. -/
theorem resetMeetsInvariant : Obligations.ResetMeetsInvariant :=
  powerOn_inv (by decide) 0 []

end Sys2Proof.Machine
end

section
/-! SUPPORT. The append of a byte by its two cases (R61), the configuration under every event (R70), and two updates of
different motors in either order (R67). -/

namespace Sys2Proof.Machine

/-- While there is room the byte is stored at `rx_len`, which grows by one (R61). -/
theorem rxAppend_of_lt {s : State} (h : s.rxLen < s.cfg.rxBufCap) (b : Byte) :
    rxAppend b s = { s with rxBuf := memWrite s.rxBuf s.rxLen b, rxLen := s.rxLen + 1 } := by
  simp [rxAppend, h]

/-- Into a full buffer nothing is stored (R61). -/
theorem rxAppend_of_full {s : State} (h : s.cfg.rxBufCap ≤ s.rxLen) (b : Byte) : rxAppend b s = s := by
  simp [rxAppend, h]

/-- No command writes the configuration: it writes a motor or the LED, and sends (R70). -/
theorem exec_cfg {i : Instr} {s t : State} (h : exec i s = .next t) : t.cfg = s.cfg := by
  obtain ⟨r, ax, -, -, hmotor | ⟨a, v, -, -, hled⟩⟩ := exec_cases i s
  · obtain rfl := Host.Outcome.next.inj (hmotor.symm.trans h)
    simp
  · obtain rfl := Host.Outcome.next.inj (hled.symm.trans h)
    rfl

/-- What goes on after the clearing is the cleared state of a command that went on. -/
theorem clearAfter_eq_next {o : Host.Outcome State Fault Refusal} {t : State} (h : clearAfter o = .next t) :
    ∃ u, o = .next u ∧ clearFrame u = t := by
  cases o with
  | next u => exact ⟨u, rfl, Host.Outcome.next.inj h⟩
  | fault r => simp [clearAfter] at h
  | refused r => simp [clearAfter] at h

/-- The end of a frame keeps the configuration, dropped or executed. -/
theorem finalize_cfg {s t : State} (h : finalize s = .next t) : t.cfg = s.cfg := by
  rcases finalize_cases s with ⟨_, -, hdropped⟩ | ⟨i, -, hexec⟩
  · obtain rfl := Host.Outcome.next.inj (hdropped.symm.trans h)
    rfl
  · obtain ⟨u, hu, rfl⟩ := clearAfter_eq_next (hexec.symm.trans h)
    simpa using exec_cfg hu

/-- A received byte keeps the configuration. -/
theorem rxByte_cfg {b : Byte} {s t : State} (h : rxByte b s = .next t) : t.cfg = s.cfg := by
  rcases rxByte_cases b s with ⟨-, hstart⟩ | ⟨-, -, hend⟩ | ⟨-, -, hstored⟩
  · obtain rfl := Host.Outcome.next.inj (hstart.symm.trans h)
    simp
  · simpa using finalize_cfg (hend.symm.trans h)
  · obtain rfl := Host.Outcome.next.inj (hstored.symm.trans h)
    simp

@[simp] theorem pollTimeout_cfg (s : State) : (pollTimeout s).cfg = s.cfg := by
  unfold pollTimeout
  split_ifs <;> rfl

@[simp] theorem longTick_cfg (m : MotorId) (s : State) : (longTick m s).cfg = s.cfg := by simp [longTick]

/-- A tick goes on exactly when its step, if it takes one, stays between the sentinels, and then it is a tick of the
motor (R240, R307). -/
theorem tick_eq_next_iff (m : MotorId) (s t : State) :
    tick m s = .next t ↔
      (tickSteps (motor m s) = true →
        positionInRange s.cfg ((motor m s).g.position + dirValue (motor m s).g.dir) = true) ∧
      setMotor m (tickMotor s.cfg (motor m s)) s = t := by
  rcases tick_cases m s with ⟨hstep, hout, hrefused⟩ | ⟨hin, hnext⟩
  · simp [hrefused, hstep, hout]
  · simpa [hnext] using fun _ => hin

/-- No event writes the configuration: a reset keeps it too (R70, R39). -/
theorem runEvent_cfg {e : Event} {s t : State} (h : runEvent e s = .next t) : t.cfg = s.cfg := by
  cases e with
  | rxByte b => exact rxByte_cfg h
  | pollTimeout =>
    obtain rfl := Host.Outcome.next.inj h
    exact pollTimeout_cfg s
  | longTick m =>
    obtain rfl := Host.Outcome.next.inj h
    exact longTick_cfg m s
  | tick m =>
    obtain ⟨-, rfl⟩ := (tick_eq_next_iff m s t).mp h
    simp
  | reset =>
    obtain rfl := Host.Outcome.next.inj h
    rfl

/-- Writes of two different motors can be exchanged: RA and DEC share no register (R67). -/
theorem setMotor_comm {m k : MotorId} (h : m ≠ k) (ax bx : AxisMotor) (s : State) :
    setMotor m ax (setMotor k bx s) = setMotor k bx (setMotor m ax s) := by
  cases m with
  | ra =>
    cases k with
    | ra => exact absurd rfl h
    | dec => rfl
  | dec =>
    cases k with
    | ra => rfl
    | dec => exact absurd rfl h

/-- Ticks of two different motors that go on one after the other go on in the other order too, to the same state: each
reads and writes its own motor and the configuration alone (R67, R271). -/
theorem tick_tick_swap {m k : MotorId} (h : m ≠ k) {s u t : State} (hm : tick m s = .next u)
    (hk : tick k u = .next t) : ∃ v, tick k s = .next v ∧ tick m v = .next t := by
  obtain ⟨hmRange, rfl⟩ := (tick_eq_next_iff m s u).mp hm
  obtain ⟨hkRange, rfl⟩ := (tick_eq_next_iff k _ t).mp hk
  simp only [motor_setMotor_of_ne h.symm, setMotor_cfg] at hkRange ⊢
  refine ⟨_, (tick_eq_next_iff k s _).mpr ⟨hkRange, rfl⟩, (tick_eq_next_iff m _ _).mpr ?_⟩
  simp only [motor_setMotor_of_ne h, setMotor_cfg]
  exact ⟨hmRange, setMotor_comm h _ _ s⟩

end Sys2Proof.Machine
end

section
/-! The obligations of 20_memory.md: the receive buffer's append, the constant configuration, and the ticks' order. -/

namespace Sys2Proof.Machine

/-- Settles O10: with room the append is one write to the buffer, read back at its index alone; without room it is the
state itself. -/
theorem rxAppendStoresOrDrops : Obligations.RxAppendStoresOrDrops := by
  refine fun b s => ⟨fun hroom => ?_, fun hfull => rxAppend_of_full hfull b⟩
  rw [rxAppend_of_lt hroom]
  exact ⟨rfl, memRead_memWrite_self _ _ _, fun i hi => memRead_memWrite_of_ne hi _ _, rfl⟩

/-- Settles O35: a step waits or runs one event, after an arrival that keeps the configuration. -/
theorem configurationIsConstant : Obligations.ConfigurationIsConstant := by
  intro s t h
  obtain ⟨-, ⟨-, rfl⟩ | ⟨a, rest, -, hrun⟩⟩ := step_cases h
  · rfl
  · simpa using runEvent_cfg hrun

/-- Settles O53: the ticks of RA and DEC exchange, in both directions. -/
theorem ticksOfBothAxesCommute : Obligations.TicksOfBothAxesCommute := by
  refine fun s t => ⟨?_, ?_⟩
  · rintro ⟨u, hra, hdec⟩
    exact tick_tick_swap (by decide) hra hdec
  · rintro ⟨u, hdec, hra⟩
    exact tick_tick_swap (by decide) hdec hra

end Sys2Proof.Machine
end

section
/-! SUPPORT. The hex codec by its byte pairs (R64, R65, R85, R86), what a digit byte reads as (R83), the axis byte of no
axis (R91), and the form of a reply frame (R96, R261). -/

namespace Sys2Proof

/-! ## What a digit byte reads as -/

theorem hexDigitToValue_of_decimal (lower : Bool) {b : Byte} (h0 : 0x30 ≤ b.toNat) (h9 : b.toNat ≤ 0x39) :
    hexDigitToValue lower b = b.toNat - 0x30 :=
  if_pos ⟨h0, h9⟩

theorem hexDigitToValue_of_upper (lower : Bool) {b : Byte} (hA : 0x41 ≤ b.toNat) (hF : b.toNat ≤ 0x46) :
    hexDigitToValue lower b = b.toNat - 0x41 + 10 := by
  have hdecimal : ¬ (0x30 ≤ b.toNat ∧ b.toNat ≤ 0x39) := by omega
  simp only [hexDigitToValue, if_neg hdecimal, if_pos (And.intro hA hF)]

/-- Outside the decimal and upper-case digits only a lower-case letter can be a digit, and only under `HEX_LOWERCASE`. -/
theorem hexDigitToValue_of_not_decimal_of_not_upper (lower : Bool) {b : Byte}
    (hdecimal : ¬ (0x30 ≤ b.toNat ∧ b.toNat ≤ 0x39)) (hupper : ¬ (0x41 ≤ b.toNat ∧ b.toNat ≤ 0x46)) :
    hexDigitToValue lower b = if lower = true ∧ 0x61 ≤ b.toNat ∧ b.toNat ≤ 0x66 then b.toNat - 0x61 + 10 else 0 := by
  simp only [hexDigitToValue, if_neg hdecimal, if_neg hupper]

theorem hexDigitToValue_of_lower (lower : Bool) {b : Byte} (ha : 0x61 ≤ b.toNat) (hf : b.toNat ≤ 0x66) :
    hexDigitToValue lower b = if lower = true then b.toNat - 0x61 + 10 else 0 := by
  rw [hexDigitToValue_of_not_decimal_of_not_upper lower (by omega) (by omega)]
  simp only [ha, hf, and_true]

theorem hexDigitToValue_of_no_digit (lower : Bool) {b : Byte}
    (h : b.toNat < 0x30 ∨ (0x39 < b.toNat ∧ b.toNat < 0x41) ∨ (0x46 < b.toNat ∧ b.toNat < 0x61) ∨ 0x66 < b.toNat) :
    hexDigitToValue lower b = 0 := by
  rw [hexDigitToValue_of_not_decimal_of_not_upper lower (by omega) (by omega), if_neg (by omega)]

/-! ## The byte pairs of a field -/

theorem decodeHex_two (lower : Bool) (s : List Byte) :
    decodeHex lower s 2 = 16 * hexDigitToValue lower (s.getD 0 0) + hexDigitToValue lower (s.getD 1 0) := rfl

/-- A pair of digits is a byte. -/
theorem decodeHex_two_lt (lower : Bool) (s : List Byte) : decodeHex lower s 2 < 256 := by
  have high := hexDigitToValue_lt lower (s.getD 0 0)
  have low := hexDigitToValue_lt lower (s.getD 1 0)
  rw [decodeHex_two]
  omega

theorem decodeHex_four (lower : Bool) (s : List Byte) :
    decodeHex lower s 4 = decodeHex lower s 2 + 256 * decodeHex lower (s.drop 2) 2 := by
  simp [decodeHex]

theorem decodeHex_six (lower : Bool) (s : List Byte) :
    decodeHex lower s 6 =
      decodeHex lower s 2 + 256 * decodeHex lower (s.drop 2) 2 + 65536 * decodeHex lower (s.drop 4) 2 := by
  simp [decodeHex]

/-- The first pair of encoded digits reads back as the low byte. -/
theorem decodeHex_two_encodeBytes (lower : Bool) (k n : Nat) :
    decodeHex lower (encodeBytes (k + 1) n) 2 = n % 256 := by
  have high : n % 256 / 16 < 16 := by omega
  have low : n % 256 % 16 < 16 := by omega
  simp only [decodeHex_two, encodeBytes, List.getD_cons_zero, List.getD_cons_succ,
    hexDigitToValue_hexdigit lower high, hexDigitToValue_hexdigit lower low]
  omega

/-- Behind the first pair stand the digits of the bytes above it. -/
theorem drop_two_encodeBytes (k n : Nat) : (encodeBytes (k + 1) n).drop 2 = encodeBytes k (n / 256) := rfl

/-- A representable value is encoded unreduced. -/
theorem encodeHex_of_lt {v : Nat} {w : HexWidth} (h : v < 16 ^ w.len) :
    encodeHex v w = encodeBytes (w.len / 2) v := by
  have hreduced : ((v : Int) % 16 ^ w.len).toNat = v := by
    rw [Int.emod_eq_of_lt (Int.natCast_nonneg v) (by exact_mod_cast h), Int.toNat_natCast]
  rw [encodeHex, hreduced]

/-! ## The axis byte -/

/-- Every byte but `'1'`, `'2'` and `'3'` names no axis, without an error (R91). -/
theorem parseAxis_of_ne {b : Byte} (h1 : b ≠ 0x31#8) (h2 : b ≠ 0x32#8) (h3 : b ≠ 0x33#8) : parseAxis b = .none := by
  simp [parseAxis, h1, h2, h3]

end Sys2Proof

namespace Sys2Proof.Machine

/-! ## The form of a reply frame -/

/-- The bytes between `=` and `\r`: hex digits, in one of the lengths of R190 to R195. -/
def ReplyBody (body : List Byte) : Prop :=
  body.length ∈ [0, 2, 3, 6] ∧ ∀ b ∈ body, ∃ v, v < 16 ∧ b = hexdigit v

theorem replyBody_encodeHex (v : Int) (w : DataWidth) : ReplyBody (encodeHex v (dataHexWidth w)) := by
  refine ⟨?_, fun b hb => mem_encodeBytes hb⟩
  rw [encodeHex_length]
  cases w <;> decide

theorem replyBody_map_hexdigit {nibbles : List Nat} (hlen : nibbles.length ∈ [0, 2, 3, 6])
    (hlt : ∀ n ∈ nibbles, n < 16) : ReplyBody (nibbles.map hexdigit) := by
  refine ⟨by rwa [List.length_map], fun b hb => ?_⟩
  obtain ⟨n, hn, rfl⟩ := List.mem_map.mp hb
  exact ⟨n, hlt n hn, rfl⟩

/-- A reply that SSC sends is one of the two errors or a success frame around hex digits: the nibbles of a version and of
an extended status are digits because the configuration is admitted (R96, R190 to R196, R261). -/
theorem replyBytes_form {c : Config} (hc : configOk c = true) {r : Reply} (hr : ReplySent c r) :
    replyBytes r = [0x21#8, 0x32#8, 0x0D#8] ∨ replyBytes r = [0x21#8, 0x34#8, 0x0D#8] ∨
      ∃ body, replyBytes r = 0x3D#8 :: body ++ [0x0D#8] ∧ ReplyBody body := by
  cases r with
  | empty => exact .inr (.inr ⟨[], rfl, replyBody_map_hexdigit (nibbles := []) (by decide) (by simp)⟩)
  | data v w => exact .inr (.inr ⟨_, rfl, replyBody_encodeHex v w⟩)
  | position v => exact .inr (.inr ⟨_, rfl, replyBody_encodeHex v .six⟩)
  | status n0 n1 n2 =>
    obtain ⟨h0, h1, h2⟩ := hr
    refine .inr (.inr ⟨_, rfl, replyBody_map_hexdigit (nibbles := [n0, n1, n2]) (by simp) ?_⟩)
    simp [h0, h1, h2]
  | version n0 n1 n2 n3 =>
    have hversion := configOk_version hc
    rw [← show (n0, n1, n2, n3) = c.version from hr] at hversion
    refine .inr (.inr ⟨_, rfl, replyBody_map_hexdigit (nibbles := [n0, n1, n2, n3, 0, 0]) (by simp) ?_⟩)
    simp [hversion]
  | extendedStatus n0 n1 n2 =>
    have hextended := configOk_extStatus hc
    rw [← show (n0, n1, n2) = c.extStatus from hr] at hextended
    refine .inr (.inr ⟨_, rfl, replyBody_map_hexdigit (nibbles := [n0, n1, n2, 0, 0, 0]) (by simp) ?_⟩)
    simp [hextended]
  | error code =>
    rcases hr with rfl | rfl
    · exact .inl rfl
    · exact .inr (.inl rfl)

/-- Every command goes on, and sends one reply behind what was sent before. -/
theorem exec_sends_one_reply (i : Instr) (s : State) :
    ∃ t r, exec i s = .next t ∧ ReplySent s.cfg r ∧ t.tx = s.tx ++ replyBytes r := by
  obtain ⟨r, ax, hr, -, hmotor | ⟨a, v, -, -, hled⟩⟩ := exec_cases i s
  · exact ⟨_, r, hmotor, hr, by simp⟩
  · exact ⟨_, r, hled, hr, rfl⟩

end Sys2Proof.Machine
end

section
/-! The obligations of 30_encoding.md: the hex codec, the written frames, the axis byte, and the reply of a command. -/

namespace Sys2Proof.Machine

/-- Settles O1: each pair of digits reads back as the byte it encodes, and the bytes make up the value. -/
theorem hexRoundTrip : Obligations.HexRoundTrip := by
  intro lower w v hv
  rw [encodeHex_of_lt hv]
  cases w with
  | w2 =>
    have hbyte : v < 256 := hv
    calc decodeHex lower (encodeBytes 1 v) 2 = v % 256 := decodeHex_two_encodeBytes lower 0 v
      _ = v := Nat.mod_eq_of_lt hbyte
  | w4 =>
    have hword : v < 65536 := hv
    calc decodeHex lower (encodeBytes 2 v) 4 = v % 256 + 256 * (v / 256 % 256) := by
          simp only [decodeHex_four, drop_two_encodeBytes, decodeHex_two_encodeBytes]
      _ = v := by omega
  | w6 =>
    have hfield : v < 16777216 := hv
    have hthird : (encodeBytes 3 v).drop 4 = encodeBytes 1 (v / 256 / 256) := rfl
    calc decodeHex lower (encodeBytes 3 v) 6
        = v % 256 + 256 * (v / 256 % 256) + 65536 * (v / 256 / 256 % 256) := by
          simp only [decodeHex_six, hthird, drop_two_encodeBytes, decodeHex_two_encodeBytes]
      _ = v := by omega

/-- Settles O3: a 6-digit field is the sum of its three pairs, each below 256, and the four ranges of a byte are
disjoint. -/
theorem fieldPairsAreBytes : Obligations.FieldPairsAreBytes := by
  intro lower s
  refine ⟨?_, decodeHex_two lower s, fun b => ⟨hexDigitToValue_of_decimal lower, hexDigitToValue_of_upper lower,
    hexDigitToValue_of_lower lower, hexDigitToValue_of_no_digit lower⟩⟩
  have hlow := decodeHex_two_lt lower s
  have hmiddle := decodeHex_two_lt lower (s.drop 2)
  rw [decodeHex_six]
  omega

/-- Settles O33: the one reply of the command has one of the three forms. -/
theorem everyCommandSendsOneReply : Obligations.EveryCommandSendsOneReply := by
  intro i s hc
  obtain ⟨t, r, hnext, hr, htx⟩ := exec_sends_one_reply i s
  exact ⟨t, replyBytes r, hnext, htx, replyBytes_form hc hr⟩

/-- Settles O5: the decoder is run on each of the 25 frames. -/
theorem writtenFramesDecode : Obligations.WrittenFramesDecode := by
  unfold Obligations.WrittenFramesDecode
  decide

/-- Settles O9: the three digits are read as they stand, any other byte as NONE, and only DEC routes to the DEC motor. -/
theorem axisByteRoutes : Obligations.AxisByteRoutes := by
  refine ⟨rfl, rfl, rfl, fun b => parseAxis_of_ne, fun a => ?_, fun s => ⟨motor_ra s, motor_dec s⟩⟩
  cases a <;> rfl

end Sys2Proof.Machine
end

section
/-! SUPPORT. The factory by the length of its buffer (R123), the mode digit of `G` (R94), what parsing the fields of a
frame succeeds on and takes from it (R124 to R127), and a byte that ends no frame as a whole next state (R120). -/

namespace Sys2Proof

/-! ## The factory -/

/-- The factory looks at no buffer of fewer than two bytes (R123). -/
theorem identify_of_lt {buf : List Byte} (h : buf.length < 2) : identify buf = none := if_pos h

/-- In a longer buffer the factory looks at index 1 only (R123). -/
theorem identify_of_le {buf : List Byte} (h : 2 ≤ buf.length) : identify buf = opcodeOfByte (buf.getD 1 0) :=
  if_neg h.not_gt

/-! ## The mode digit -/

/-- The table of R94, row by row. -/
theorem parseMode_eq_some_iff {b : Byte} {t : SlewType} {sp : SlewSpeed} :
    parseMode b = some (t, sp) ↔
      (b, t, sp) ∈ [(0x30#8, .goto, .fast), (0x31#8, .tracking, .slow), (0x32#8, .goto, .slow),
        (0x33#8, .tracking, .fast)] := by
  unfold parseMode
  split_ifs <;> simp_all [eq_comm]

/-- A byte is a mode digit exactly when it is one of the four characters (R94). -/
theorem exists_parseMode_iff {b : Byte} :
    (∃ m, parseMode b = some m) ↔ b ∈ [0x30#8, 0x31#8, 0x32#8, 0x33#8] := by
  simp [parseMode_eq_some_iff, exists_or]

/-! ## The fields of a frame -/

theorem parse_eq_ok_iff {c : Config} {op : Opcode} {buf : List Byte} {i : Instr} :
    parse c op buf = .ok i ↔
      buf.length = requiredLen c op ∧ buf.getD 0 0 = chColon ∧ buf.getD 1 0 = op.byte ∧ 3 ≤ buf.length ∧
        parsePayload c.hexLowercase op buf = .ok i := by
  refine ⟨parse_ok, ?_⟩
  rintro ⟨hlen, hstart, hop, haxis, hfields⟩
  rw [parse_of_checks hlen hstart hop haxis, hfields]

/-- The fields of `G` parse to its mode and direction when the mode digit names a mode, and only then. -/
theorem parsePayload_setMotionMode_eq_ok_iff {lower : Bool} {buf : List Byte} {i : Instr} :
    parsePayload lower .setMotionMode buf = .ok i ↔
      ∃ t sp, parseMode (buf.getD 3 0) = some (t, sp) ∧
        i = .setMotionMode (parseAxis (buf.getD 2 0)) t sp (parseDir lower (buf.getD 4 0)) := by
  simp only [parsePayload]
  cases parseMode (buf.getD 3 0) with
  | none => simp
  | some mode => simp [eq_comm, Prod.ext_iff]

/-- The mode digit of `G` is the only field that can be refused (R127). -/
theorem exists_parsePayload_iff {lower : Bool} {op : Opcode} {buf : List Byte} :
    (∃ i, parsePayload lower op buf = .ok i) ↔
      (op = .setMotionMode → buf.getD 3 0 ∈ [0x30#8, 0x31#8, 0x32#8, 0x33#8]) := by
  rw [← exists_parseMode_iff]
  constructor
  · rintro ⟨i, hi⟩ rfl
    obtain ⟨t, sp, hmode, -⟩ := parsePayload_setMotionMode_eq_ok_iff.mp hi
    exact ⟨(t, sp), hmode⟩
  · intro hdigit
    cases hfields : parsePayload lower op buf with
    | ok i => exact ⟨i, rfl⟩
    | error r =>
      obtain ⟨hop, hnone, -⟩ := parsePayload_fails hfields
      obtain ⟨m, hm⟩ := hdigit hop
      exact absurd (hnone.symm.trans hm) (by simp)

/-- Parsed fields are those of the command's own variant. -/
theorem parsePayload_opcode {lower : Bool} {op : Opcode} {buf : List Byte} {i : Instr}
    (h : parsePayload lower op buf = .ok i) : parsePayload lower i.opcode buf = .ok i := by
  rwa [(parsePayload_ok h).1]

theorem decodeHex_one (lower : Bool) (s : List Byte) : decodeHex lower s 1 = hexDigitToValue lower (s.getD 0 0) := rfl

section
variable {lower : Bool} {op : Opcode} {buf : List Byte} {i : Instr}

/-- `E`, `S`, `H`, `M` and `I` carry the six digits behind the axis byte (R125). -/
theorem parsePayload_hex6 {a : Axis} {v : Nat} (h : parsePayload lower op buf = .ok i)
    (hi : i ∈ [.setPosition a v, .setGotoTarget a v, .setGotoTargetIncrement a v, .setBreakpointIncrement a v,
      .setStepPeriod a v]) : v = decodeHex lower (buf.drop 3) 6 := by
  have hown := parsePayload_opcode h
  simp only [List.mem_cons, List.not_mem_nil, or_false] at hi
  rcases hi with rfl | rfl | rfl | rfl | rfl <;> (cases hown; rfl)

/-- `V` carries the two digits behind the axis byte (R126). -/
theorem parsePayload_hex2 {a : Axis} {v : Nat} (h : parsePayload lower op buf = .ok (.setPolarLEDBrightness a v)) :
    v = decodeHex lower (buf.drop 3) 2 := by
  cases parsePayload_opcode h
  rfl

/-- `O` and `P` carry the digit behind the axis byte (R126). -/
theorem parsePayload_digit {a : Axis} {v : Nat} (h : parsePayload lower op buf = .ok i)
    (hi : i ∈ [.setSwitch a v, .setAutoguideSpeed a v]) : v = hexDigitToValue lower (buf.getD 3 0) := by
  have hown := parsePayload_opcode h
  have hdigit : decodeHex lower (buf.drop 3) 1 = hexDigitToValue lower (buf.getD 3 0) := by simp [decodeHex_one]
  rw [← hdigit]
  simp only [List.mem_cons, List.not_mem_nil, or_false] at hi
  rcases hi with rfl | rfl <;> (cases hown; rfl)

/-- `G` carries the mode of its mode digit and the direction of the byte behind it (R127, R94, R95). -/
theorem parsePayload_mode {a : Axis} {t : SlewType} {sp : SlewSpeed} {d : SlewDir}
    (h : parsePayload lower op buf = .ok (.setMotionMode a t sp d)) :
    parseMode (buf.getD 3 0) = some (t, sp) ∧ d = parseDir lower (buf.getD 4 0) := by
  obtain ⟨_, _, hmode, hinstr⟩ := parsePayload_setMotionMode_eq_ok_iff.mp (parsePayload_opcode h)
  cases hinstr
  exact ⟨hmode, rfl⟩

end

end Sys2Proof

namespace Sys2Proof.Machine

/-! ## A byte that ends no frame -/

/-- The start marker drops what is held and is stored at index 0 (R120, D4). -/
theorem rxByte_colon {s : State} (hcap : 0 < s.cfg.rxBufCap) :
    rxByte chColon s =
      .next { s with lastRxMs := s.nowMs, rxBuf := memWrite s.rxBuf 0 chColon, rxLen := 1 } := by
  have hroom : (clearFrame { s with lastRxMs := s.nowMs }).rxLen < s.cfg.rxBufCap := hcap
  rw [rxByte, if_pos rfl, rxAppend_of_lt hroom]
  rfl

/-- Any other byte that does not end the frame is appended (R120, D5). -/
theorem rxByte_of_append {b : Byte} {s : State} (hstart : b ≠ chColon) (hend : ¬ (b = chCR ∧ 2 < s.rxLen)) :
    rxByte b s = .next (rxAppend b { s with lastRxMs := s.nowMs }) := by
  rw [rxByte, if_neg hstart, if_neg hend]

end Sys2Proof.Machine
end

section
/-! The obligations of 40_framer.md: the factory, parse, and a byte that ends no frame. -/

namespace Sys2Proof.Machine

/-- Settles O6: the byte at index 1 selects a variant by that variant's byte, or is no variant's. -/
theorem factoryTotality : Obligations.FactoryTotality := by
  refine fun buf => ⟨identify_of_lt, fun hlen => ?_⟩
  rw [identify_of_le hlen]
  cases hop : opcodeOfByte (buf.getD 1 0) with
  | none => exact .inr ⟨rfl, opcodeOfByte_none hop⟩
  | some op => exact .inl ⟨op, rfl, opcodeOfByte_some hop⟩

/-- Settles O7: the common checks leave the fields, which only a mode digit can refuse, and each field is read where its
variant puts it. -/
theorem parseChecks : Obligations.ParseChecks := by
  refine fun c op buf => ⟨?_, fun i hi => ?_⟩
  · simp only [parse_eq_ok_iff, exists_and_left, exists_parsePayload_iff]
  · obtain ⟨-, -, -, -, hfields⟩ := parse_eq_ok_iff.mp hi
    obtain ⟨hop, haxis⟩ := parsePayload_ok hfields
    refine ⟨hop, haxis, fun a v => parsePayload_hex6 hfields, ?_, fun a v => parsePayload_digit hfields, ?_⟩
    · rintro a v rfl
      exact parsePayload_hex2 hfields
    · rintro a t sp d rfl
      obtain ⟨hmode, hdir⟩ := parsePayload_mode hfields
      exact ⟨parseMode_eq_some_iff.mp hmode, hdir⟩

/-- Settles O11: a stored byte is one write to the buffer, read back at its index alone; an admitted buffer has room for
the start marker. -/
theorem rxByteStores : Obligations.RxByteStores := by
  refine fun b s hc => ⟨?_, fun hstart hend hroom => ?_, fun hstart hend hfull => ?_⟩
  · rintro rfl
    have hcap := configOk_rxBufCap hc
    exact ⟨_, rxByte_colon (by omega), rfl, memRead_memWrite_self s.rxBuf 0 chColon,
      fun i hi => memRead_memWrite_of_ne hi s.rxBuf chColon, rfl⟩
  · rw [rxByte_of_append hstart hend]
    obtain ⟨hlen, hread, hothers, hframe⟩ := (rxAppendStoresOrDrops b { s with lastRxMs := s.nowMs }).1 hroom
    exact ⟨_, rfl, hlen, hread, hothers, hframe⟩
  · rw [rxByte_of_append hstart hend]
    exact congrArg _ (rxAppend_of_full (s := { s with lastRxMs := s.nowMs }) hfull b)

end Sys2Proof.Machine
end

section
/-! SUPPORT. The Empty and MOTOR_NOT_STOPPED replies as bytes of `tx` (R190, R196, R260), and a gated set command as a
whole next state in each of its two cases (R151, R263). -/

namespace Sys2Proof.Machine

theorem send_empty (s : State) : send .empty s = { s with tx := s.tx ++ [0x3D#8, 0x0D#8] } := rfl

theorem replyError_motorNotStopped (s : State) :
    replyError .motorNotStopped s = { s with tx := s.tx ++ [0x21#8, 0x32#8, 0x0D#8] } := rfl

/-- The Empty reply behind an effect on one motor. -/
theorem send_empty_setMotor (m : MotorId) (ax : AxisMotor) (s : State) :
    send .empty (setMotor m ax s) = { setMotor m ax s with tx := s.tx ++ [0x3D#8, 0x0D#8] } := by
  rw [send_empty, setMotor_tx]

section
variable {i : Instr} {a : Axis} {f : AxisMotor → AxisMotor} {s : State}

/-- A gated command of a moving motor answers `!2` and does nothing else (R263). -/
theorem exec_gated_of_moving (hi : exec i s = .next (whenStopped a f s)) (hm : (motor (motorOf a) s).moving = true) :
    exec i s = .next { s with tx := s.tx ++ [0x21#8, 0x32#8, 0x0D#8] } := by
  rw [hi, whenStopped, if_pos hm, replyError_motorNotStopped]

/-- A gated command of a still motor has its effect on that motor and answers `=` (R151). -/
theorem exec_gated_of_still (hi : exec i s = .next (whenStopped a f s)) (hm : (motor (motorOf a) s).moving = false) :
    exec i s = .next { setMotor (motorOf a) (f (motor (motorOf a) s)) s with tx := s.tx ++ [0x3D#8, 0x0D#8] } := by
  rw [hi, whenStopped, if_neg (Bool.eq_false_iff.mp hm), send_empty_setMotor]

end

/-! ## The gated commands -/

theorem exec_setPosition (a : Axis) (v : Nat) (s : State) :
    exec (.setPosition a v) s = .next (whenStopped a (fun ax => { ax with position := v }) s) := rfl

theorem exec_setGotoTarget (a : Axis) (v : Nat) (s : State) :
    exec (.setGotoTarget a v) s = .next (whenStopped a (fun ax => { ax with target := v }) s) := rfl

theorem exec_setMotionMode (a : Axis) (t : SlewType) (sp : SlewSpeed) (d : SlewDir) (s : State) :
    exec (.setMotionMode a t sp d) s =
      .next (whenStopped a
        (fun ax => setMs s.cfg (ustepOf s.cfg sp) { ax with slewType := t, slewSpeed := sp, slewDir := d }) s) := rfl

theorem exec_setGotoTargetIncrement (a : Axis) (v : Nat) (s : State) :
    exec (.setGotoTargetIncrement a v) s =
      .next (whenStopped a
        (fun ax => { ax with target := ax.position + dirValue (slewSign ax.slewDir) * v }) s) := rfl

/-- CCW subtracts; CW and NONE add (R144, D17, D32). -/
theorem add_dirValue_slewSign_mul (d : SlewDir) (p v : Int) :
    p + dirValue (slewSign d) * v = if d = .ccw then p - v else p + v := by
  cases d with
  | ccw => rw [if_pos rfl, slewSign, dirValue, neg_one_mul, sub_eq_add_neg]
  | cw => rw [if_neg SlewDir.noConfusion, slewSign, dirValue, one_mul]
  | unset => rw [if_neg SlewDir.noConfusion, slewSign, dirValue, one_mul]

end Sys2Proof.Machine
end

section
/-! The obligations of 41_set_commands.md: the gated commands E, S, G and H, and the ungated I, V and no-ops. -/

namespace Sys2Proof.Machine

/-- Settles O16: `E` is gated, and its effect writes the position. -/
theorem setPositionEffect : Obligations.SetPositionEffect :=
  fun a v s => ⟨exec_gated_of_moving (exec_setPosition a v s), exec_gated_of_still (exec_setPosition a v s)⟩

/-- Settles O17: `S` is gated, and its effect writes the target. -/
theorem setGotoTargetEffect : Obligations.SetGotoTargetEffect :=
  fun a v s => ⟨exec_gated_of_moving (exec_setGotoTarget a v s), exec_gated_of_still (exec_setGotoTarget a v s)⟩

/-- Settles O18: `G` is gated, and its effect writes the three mode registers and the pins of the speed's count. -/
theorem setMotionModeEffect : Obligations.SetMotionModeEffect :=
  fun a t sp d s =>
    ⟨exec_gated_of_moving (exec_setMotionMode a t sp d s), exec_gated_of_still (exec_setMotionMode a t sp d s)⟩

/-- Settles O19: `H` is gated, and its effect adds the increment with the sign of the direction register. -/
theorem setGotoTargetIncrementEffect : Obligations.SetGotoTargetIncrementEffect := by
  refine fun a v s => ⟨exec_gated_of_moving (exec_setGotoTargetIncrement a v s), fun hm => ?_⟩
  rw [← add_dirValue_slewSign_mul]
  exact exec_gated_of_still (exec_setGotoTargetIncrement a v s) hm

/-- Settles O20: `I` has no gate, and its effect writes the step period. -/
theorem setStepPeriodEffect : Obligations.SetStepPeriodEffect :=
  fun a v s =>
    congrArg Host.Outcome.next (send_empty_setMotor (motorOf a) { motor (motorOf a) s with stepPeriod := v } s)

/-- Settles O21: each of the five commands is the Empty reply alone. -/
theorem noOpCommandsReplyEmpty : Obligations.NoOpCommandsReplyEmpty := by
  intro a v s i hi
  simp only [List.mem_cons, List.not_mem_nil, or_false] at hi
  have hreply : exec i s = .next (send .empty s) := by rcases hi with rfl | rfl | rfl | rfl | rfl <;> rfl
  rw [hreply, send_empty]

/-- Settles O22: `V` writes the register and the port, then sends the Empty reply. -/
theorem setLedEffect : Obligations.SetLedEffect :=
  fun _ v s _ =>
    congrArg Host.Outcome.next (send_empty { s with led := BitVec.ofNat 8 v, ledPort := some (BitVec.ofNat 8 v) })

end Sys2Proof.Machine
end

section
/-! SUPPORT. The graceful stop in the form of the statement `statedStop` (R205, R236), and `K` as a whole next state in
each of its two cases (R161). -/

namespace Sys2Proof.Machine

theorem dirValue_eq_ite (d : StepDir) : dirValue d = if d = .pos then 1 else -1 := by
  cases d <;> rfl

theorem setTargetPosition_of_eq (c : Config) {t : Int} (ax : AxisMotor) (h : t = ax.g.target) :
    setTargetPosition c t ax = ax := if_neg (not_not.mpr h)

theorem setTargetPosition_of_ne (c : Config) {t : Int} (ax : AxisMotor) (h : t ≠ ax.g.target) :
    setTargetPosition c t ax = computeNewSpeed c { ax with g := { ax.g with target := t } } := if_pos h

/-- The statement's stop is the machine's: both aim the generator at the stop point, and recompute the ramp exactly when
the target changes. -/
theorem statedStop_eq_stopMotor (c : Config) (ax : AxisMotor) : statedStop c ax = stopMotor c ax := by
  rw [statedStop, stopMotor, ← dirValue_eq_ite]
  split_ifs with hgoal
  · exact (setTargetPosition_of_eq c { ax with stopping := true } hgoal).symm
  · exact (setTargetPosition_of_ne c { ax with stopping := true } hgoal).symm

/-- `K` on an axis at rest only replies (R161). -/
theorem exec_stopMotion_of_still {a : Axis} {s : State} (hm : (motor (motorOf a) s).moving = false) :
    exec (.stopMotion a) s = .next (send .empty s) := by
  rw [exec, execStopMotion, if_neg (Bool.eq_false_iff.mp hm)]

/-- `K` on a moving axis stops it gracefully and replies (R161). -/
theorem exec_stopMotion_of_moving {a : Axis} {s : State} (hm : (motor (motorOf a) s).moving = true) :
    exec (.stopMotion a) s =
      .next (send .empty (setMotor (motorOf a) (stopMotor s.cfg (motor (motorOf a) s)) s)) := by
  rw [exec, execStopMotion, if_pos hm]

end Sys2Proof.Machine
end

section
/-! The obligation of 42_motion_commands.md on `K`. -/

namespace Sys2Proof.Machine

/-- Settles O26: `K` is gated by `moving`, its stop is that of `statedStop`, and the frame of that stop is the one of
`stopMotor`. -/
theorem stopMotionEffect : Obligations.StopMotionEffect := by
  refine fun a s => ⟨fun hm => ?_, fun hm => ?_⟩
  · rw [exec_stopMotion_of_still hm, send_empty]
  · rw [statedStop_eq_stopMotor, ← dirValue_eq_ite]
    exact ⟨by rw [exec_stopMotion_of_moving hm, send_empty_setMotor], stopMotor_frame _ _⟩

end Sys2Proof.Machine
end

section
/-! SUPPORT. The Data, Position, Status, Version and ExtendedStatus replies as bytes of `tx` (R191 to R195), and the get
commands whose reply is computed from the state, as the reply they send (R176, R179, R181). -/

namespace Sys2Proof.Machine

theorem send_data (v : Int) (w : DataWidth) (s : State) :
    send (.data v w) s = { s with tx := s.tx ++ (0x3D#8 :: encodeHex v (dataHexWidth w) ++ [0x0D#8]) } := rfl

theorem send_position (v : Int) (s : State) :
    send (.position v) s = { s with tx := s.tx ++ (0x3D#8 :: encodeHex v .w6 ++ [0x0D#8]) } := rfl

theorem send_status (n0 n1 n2 : Nat) (s : State) :
    send (.status n0 n1 n2) s =
      { s with tx := s.tx ++ [0x3D#8, hexdigit n0, hexdigit n1, hexdigit n2, 0x0D#8] } := rfl

theorem send_version (n0 n1 n2 n3 : Nat) (s : State) :
    send (.version n0 n1 n2 n3) s =
      { s with tx := s.tx ++
        [0x3D#8, hexdigit n0, hexdigit n1, hexdigit n2, hexdigit n3, 0x30#8, 0x30#8, 0x0D#8] } := rfl

theorem send_extendedStatus (n0 n1 n2 : Nat) (s : State) :
    send (.extendedStatus n0 n1 n2) s =
      { s with tx := s.tx ++ [0x3D#8, hexdigit n0, hexdigit n1, hexdigit n2, 0x30#8, 0x30#8, 0x30#8, 0x0D#8] } := rfl

/-- The Data reply of the constant 0 is six zero digits (R86, R180). -/
theorem send_data_zero (s : State) :
    send (.data 0 .six) s =
      { s with tx := s.tx ++ [0x3D#8, 0x30#8, 0x30#8, 0x30#8, 0x30#8, 0x30#8, 0x30#8, 0x0D#8] } := by
  have hdigits : encodeHex 0 .w6 = [0x30#8, 0x30#8, 0x30#8, 0x30#8, 0x30#8, 0x30#8] := by decide
  rw [send_data, dataHexWidth, hdigits]
  rfl

theorem exec_getStatus (a : Axis) (s : State) :
    exec (.getStatus a) s =
      .next (send (.status (statusNibble0 (motor (motorOf a) s)) (statusNibble1 (motor (motorOf a) s))
        (statusNibble2 s.cfg)) s) := rfl

/-- `e` reads the four configured nibbles in index order (R179, D26). -/
theorem exec_getVersion (a : Axis) {s : State} {n0 n1 n2 n3 : Nat} (h : s.cfg.version = (n0, n1, n2, n3)) :
    exec (.getVersion a) s = .next (send (.version n0 n1 n2 n3) s) := by
  rw [exec, execGetVersion, h]

/-- `q` reads the three configured nibbles in index order (R181, D26). -/
theorem exec_getExtendedStatus (a : Axis) {s : State} {n0 n1 n2 : Nat} (h : s.cfg.extStatus = (n0, n1, n2)) :
    exec (.getExtendedStatus a) s = .next (send (.extendedStatus n0 n1 n2) s) := by
  rw [exec, execGetExtendedStatus, h]

end Sys2Proof.Machine
end

section
/-! The obligations of 43_get_commands.md: each get command is one reply and writes no register. -/

namespace Sys2Proof.Machine

/-- Settles O28: each of the five is the Data reply of its constant, at the width the spec gives it. -/
theorem constantGetters : Obligations.ConstantGetters :=
  fun _ s =>
    ⟨congrArg Host.Outcome.next (send_data s.cfg.rev .six s),
      congrArg Host.Outcome.next (send_data s.cfg.timerFreq .six s),
      congrArg Host.Outcome.next (send_data s.cfg.highSpeedRatio .two s),
      congrArg Host.Outcome.next (send_data s.cfg.siderealPeriod .six s),
      congrArg Host.Outcome.next (send_data_zero s)⟩

/-- Settles O29: `h` is the Position reply of the target; `j` and `d` are the same reply of the position. -/
theorem positionGetters : Obligations.PositionGetters :=
  fun a s =>
    ⟨congrArg Host.Outcome.next (send_position (motor (motorOf a) s).target s),
      congrArg Host.Outcome.next (send_position (motor (motorOf a) s).position s),
      congrArg Host.Outcome.next (send_position (motor (motorOf a) s).position s)⟩

/-- Settles O30: `i` is the Data reply of the register `stepPeriod`. -/
theorem stepPeriodGetter : Obligations.StepPeriodGetter :=
  fun a s => congrArg Host.Outcome.next (send_data (motor (motorOf a) s).stepPeriod .six s)

/-- Settles O31: `f` is the Status reply of the three nibbles, which the statement writes out. -/
theorem statusGetter : Obligations.StatusGetter := by
  intro a s
  rw [exec_getStatus, send_status, statusNibble0, statusNibble1, statusNibble2]

/-- Settles O32: `e` and `q` are the Version and ExtendedStatus replies of the configured nibbles. -/
theorem versionAndExtendedStatusGetters : Obligations.VersionAndExtendedStatusGetters := by
  refine fun a s v0 v1 v2 v3 e0 e1 e2 hversion hext => ⟨?_, ?_⟩
  · rw [exec_getVersion a hversion, send_version]
  · rw [exec_getExtendedStatus a hext, send_extendedStatus]

end Sys2Proof.Machine
end

section
/-! SUPPORT. Every operation of an axis motor keeps the axis invariant, and every operation of the machine keeps the
machine invariant: one rule each, for the registers it writes (R20 to R35, R197). -/

namespace Sys2Proof.Machine

/-! ## The axis invariant -/

section
variable {c : Config} {ax : AxisMotor}

/-- The part of the axis invariant that a ramp computation is about. -/
theorem AxisInv.rampOk (h : AxisInv c ax) : RampOk c ax.dirPin ax.g :=
  ⟨h.dirPin_level, h.speed_sign, h.speed_zero, h.speed_nonzero, h.fp_values⟩

/-- The generator and the direction pin can be replaced by those of a ramp that is in order, at a position between the
sentinels, and at zero and idle where the axis does not move. -/
theorem AxisInv.withGenerator (h : AxisInv c ax) {pin : Bool} {g : StepGen} (hramp : RampOk c pin g)
    (hrange : c.genNegInf < g.position ∧ g.position < c.genPosInf)
    (hidle : ax.moving = false → g.position = 0 ∧ g.target = 0 ∧ g.speed = 0) :
    AxisInv c { ax with dirPin := pin, g := g } :=
  { h with
    dirPin_level := hramp.pin_level
    speed_sign := hramp.sign
    speed_zero := hramp.zero
    speed_nonzero := hramp.nonzero
    fp_values := hramp.values
    position_range := hrange
    still_idle := hidle }

theorem setTargetPosition_g_position (c : Config) (t : Int) (ax : AxisMotor) :
    (setTargetPosition c t ax).g.position = ax.g.position := by
  obtain ⟨pin, g, hframe, hpos, -⟩ := setTargetPosition_frame c t ax
  rw [hframe, hpos]

/-- A start takes no physical step, and a GOTO zeroes the generator first (R233, R234). -/
theorem startMotor_g_position (c : Config) (ax : AxisMotor) :
    (startMotor c ax).g.position = if ax.slewType = .tracking then ax.g.position else 0 := by
  unfold startMotor
  simp only
  split_ifs <;> exact setTargetPosition_g_position _ _ _

/-- Starting a still axis whose mode is set keeps the invariant (R233, R234). -/
theorem AxisInv.startMotor (hc : configOk c = true) (h : AxisInv c ax) (hm : ax.moving = false)
    (hs : ax.slewSpeed ≠ .unset) : AxisInv c (startMotor c ax) := by
  have hramp := startMotor_ok hc h.rampOk
  have hzero := startMotor_g_position c ax
  rw [(h.still_idle hm).1, ite_self] at hzero
  obtain ⟨tgt, pin, g, hframe⟩ := startMotor_frame c ax
  rw [hframe] at hramp hzero ⊢
  have started : AxisInv c { ax with target := tgt, moving := true, stopping := false, tickCount := 0 } :=
    { h with
      moving_mode := fun _ => hs
      still_idle := fun hstill => absurd hstill (by simp) }
  exact started.withGenerator hramp (hzero.symm ▸ ⟨configOk_genNegInf hc, configOk_genPosInf hc⟩)
    fun hstill => absurd hstill (by simp)

/-- A graceful stop keeps the invariant; on a still axis it only sets `stopping` (R236, R270). -/
theorem AxisInv.stopMotor (hc : configOk c = true) (h : AxisInv c ax) : AxisInv c (stopMotor c ax) := by
  have stopped : AxisInv c { ax with stopping := true } := { h with }
  cases hm : ax.moving with
  | false =>
    obtain ⟨hpos, htgt, hspeed⟩ := h.still_idle hm
    rwa [stopMotor_of_idle c hpos htgt hspeed]
  | true =>
    have hramp := stopMotor_ok hc h.rampOk
    obtain ⟨pin, g, hframe, hpos, -⟩ := stopMotor_frame c ax
    rw [hframe] at hramp ⊢
    refine stopped.withGenerator hramp ?_ fun hstill => absurd (hm.symm.trans hstill) (by simp)
    rw [hpos]
    exact h.position_range

/-- The step of a tick that stays between the sentinels keeps the invariant (R240, R307). -/
theorem AxisInv.tickStep (hc : configOk c = true) (h : AxisInv c ax) (hm : ax.moving = true)
    (hrange : positionInRange c (ax.g.position + dirValue ax.g.dir) = true) : AxisInv c (tickStep c ax) := by
  have hramp := tickStep_ok hc h.rampOk
  obtain ⟨pin, g, hframe, hpos, -⟩ := tickStep_frame c ax
  rw [hframe] at hramp ⊢
  have stepped : AxisInv c { ax with
      position := wrapPosition c (ax.position + dirValue ax.g.dir * ratio c ax)
      tickCount := 0
      stepPin := false
      pulses := ax.pulses + 1 } := { h with stepPin_low := rfl }
  refine stepped.withGenerator hramp ?_ fun hstill => absurd (hm.symm.trans hstill) (by simp)
  rw [hpos]
  exact (positionInRange_iff c _).mp hrange

/-- A tick of the motor keeps the invariant: it does nothing, counts, or takes the step. -/
theorem AxisInv.tickMotor (hc : configOk c = true) (h : AxisInv c ax)
    (hrange : tickSteps ax = true → positionInRange c (ax.g.position + dirValue ax.g.dir) = true) :
    AxisInv c (tickMotor c ax) := by
  rcases tickMotor_cases c ax with ⟨-, hstill⟩ | ⟨-, -, hcount⟩ | ⟨hsteps, hstep⟩
  · rwa [hstill]
  · rw [hcount]
    exact { h with }
  · rw [hstep]
    exact h.tickStep hc ((tickSteps_iff ax).mp hsteps).1 (hrange hsteps)

/-- A long tick keeps the invariant: where it ends the motion it zeroes the generator (R245, R211). -/
theorem AxisInv.longTickMotor (hc : configOk c = true) (h : AxisInv c ax) : AxisInv c (longTickMotor ax) := by
  rcases longTickMotor_cases ax with ⟨-, hends⟩ | ⟨-, hsame⟩
  · rw [hends]
    have zeroed : AxisInv c { ax with g := resetZero ax.g } :=
      h.withGenerator (resetZero_ok h.rampOk) ⟨configOk_genNegInf hc, configOk_genPosInf hc⟩
        fun _ => ⟨rfl, rfl, rfl⟩
    exact { zeroed with
      moving_mode := fun hmoving => absurd hmoving (by simp)
      still_idle := fun _ => ⟨rfl, rfl, rfl⟩ }
  · rwa [hsame]

/-- What a decoded command leaves in its motor meets the invariant: decoding bounds the period of `I` and names the
whole mode of `G` (R125, R94, R95). -/
theorem MotorEffect.axisInv {i : Instr} {ax' : AxisMotor} {buf : List Byte} (he : MotorEffect c i ax ax')
    (hc : configOk c = true) (hd : decode c buf = .ok i) (h : AxisInv c ax) : AxisInv c ax' := by
  cases he with
  | none => exact h
  | position => exact { h with }
  | mode hi hm =>
    subst hi
    obtain ⟨htype, hspeed, hdir⟩ := decode_setMotionMode hd
    exact { h with
      msPin_speed := rfl
      mode_together := ⟨iff_of_false htype hspeed, iff_of_false hdir hspeed⟩
      moving_mode := fun _ => hspeed }
  | target => exact { h with }
  | period hi =>
    subst hi
    exact { h with stepPeriod_bound := decode_setStepPeriod hd }
  | start _ hm hs => exact h.startMotor hc hm hs
  | stop => exact h.stopMotor hc

end

/-! ## The bytes sent -/

/-- A hex digit is in the reply alphabet (R84, R197). -/
theorem hexdigit_mem_replyAlphabet {v : Nat} (h : v < 16) : hexdigit v ∈ replyAlphabet := by
  revert v
  decide

/-- A reply frame of an admitted configuration is of the reply alphabet (R197). -/
theorem replyBytes_subset_replyAlphabet {c : Config} (hc : configOk c = true) {r : Reply} (hr : ReplySent c r) :
    ∀ b ∈ replyBytes r, b ∈ replyAlphabet := by
  rcases replyBytes_form hc hr with hbusy | hmode | ⟨body, hframe, -, hdigits⟩
  · rw [hbusy]
    decide
  · rw [hmode]
    decide
  · intro b hb
    simp only [hframe, List.cons_append, List.mem_cons, List.mem_append, List.not_mem_nil, or_false] at hb
    rcases hb with rfl | hbody | rfl
    · decide
    · obtain ⟨v, hv, rfl⟩ := hdigits b hbody
      exact hexdigit_mem_replyAlphabet hv
    · decide

/-! ## The machine invariant -/

section
variable {s : State}

theorem Inv.motor_ok (h : Inv s) (m : MotorId) : AxisInv s.cfg (motor m s) := by
  cases m with
  | ra => exact h.ra_ok
  | dec => exact h.dec_ok

/-- A motor can be replaced by one that is in order. -/
theorem Inv.setMotor (h : Inv s) (m : MotorId) {ax : AxisMotor} (hax : AxisInv s.cfg ax) : Inv (setMotor m ax s) := by
  cases m with
  | ra => exact { h with ra_ok := hax }
  | dec => exact { h with dec_ok := hax }

theorem Inv.send (h : Inv s) {r : Reply} (hr : ReplySent s.cfg r) : Inv (send r s) :=
  { h with
    tx_alphabet := fun b hb => (List.mem_append.mp hb).elim (h.tx_alphabet b)
      (replyBytes_subset_replyAlphabet h.cfg_ok hr b) }

theorem Inv.clearFrame (h : Inv s) : Inv (clearFrame s) := { h with len_cap := Nat.zero_le _ }

/-- The buffer takes a byte below its capacity only (R61). -/
theorem Inv.rxAppend (h : Inv s) (b : Byte) : Inv (rxAppend b s) := by
  rcases Nat.lt_or_ge s.rxLen s.cfg.rxBufCap with hroom | hfull
  · rw [rxAppend_of_lt hroom]
    refine { h with buf_wf := memWrite_wf h.buf_wf _ _, buf_cap := fun p hp => ?_, len_cap := hroom }
    rcases mem_memWrite hp with rfl | hp
    · exact hroom
    · exact h.buf_cap p hp
  · rwa [rxAppend_of_full hfull]

/-- The timestamp of a byte is the present (R120). -/
theorem Inv.timestamp (h : Inv s) : Inv { s with lastRxMs := s.nowMs } := { h with last_past := le_rfl }

/-- Time only goes forward (R5, D41). -/
theorem Inv.arrive (h : Inv s) (a : Arrival) (rest : List Arrival) : Inv (arrive a rest s) :=
  { h with last_past := h.last_past.trans (Nat.le_add_right _ _) }

end

/-! ## Commands and events -/

section
variable {s t : State}

/-- A decoded command keeps the invariant. -/
theorem exec_inv {i : Instr} {buf : List Byte} (hd : decode s.cfg buf = .ok i) (h : Inv s)
    (he : exec i s = .next t) : Inv t := by
  obtain ⟨r, ax, hr, heffect, hmotor | ⟨a, v, -, -, hled⟩⟩ := exec_cases i s
  · obtain rfl := Host.Outcome.next.inj (hmotor.symm.trans he)
    exact (h.setMotor _ (heffect.axisInv h.cfg_ok hd (h.motor_ok _))).send (by simpa using hr)
  · obtain rfl := Host.Outcome.next.inj (hled.symm.trans he)
    have lit : Inv { s with led := BitVec.ofNat 8 v, ledPort := some (BitVec.ofNat 8 v) } :=
      { h with led_port := .inr rfl }
    exact lit.send hr

theorem finalize_inv (h : Inv s) (hf : finalize s = .next t) : Inv t := by
  rcases finalize_cases s with ⟨_, -, hdropped⟩ | ⟨i, hd, hexec⟩
  · obtain rfl := Host.Outcome.next.inj (hdropped.symm.trans hf)
    exact h.clearFrame
  · obtain ⟨u, hu, rfl⟩ := clearAfter_eq_next (hexec.symm.trans hf)
    exact (exec_inv hd h hu).clearFrame

theorem rxByte_inv {b : Byte} (h : Inv s) (hb : rxByte b s = .next t) : Inv t := by
  rcases rxByte_cases b s with ⟨-, hstart⟩ | ⟨-, -, hend⟩ | ⟨-, -, hstored⟩
  · obtain rfl := Host.Outcome.next.inj (hstart.symm.trans hb)
    exact h.timestamp.clearFrame.rxAppend _
  · exact finalize_inv h.timestamp (hend.symm.trans hb)
  · obtain rfl := Host.Outcome.next.inj (hstored.symm.trans hb)
    exact h.timestamp.rxAppend _

theorem pollTimeout_inv (h : Inv s) : Inv (pollTimeout s) := by
  unfold pollTimeout
  split_ifs
  · exact { h with ra_ok := h.ra_ok.stopMotor h.cfg_ok, dec_ok := h.dec_ok.stopMotor h.cfg_ok }
  · exact h

theorem longTick_inv (h : Inv s) (m : MotorId) : Inv (longTick m s) :=
  h.setMotor m ((h.motor_ok m).longTickMotor h.cfg_ok)

theorem tick_inv {m : MotorId} (h : Inv s) (ht : tick m s = .next t) : Inv t := by
  obtain ⟨hrange, rfl⟩ := (tick_eq_next_iff m s t).mp ht
  exact h.setMotor m ((h.motor_ok m).tickMotor h.cfg_ok hrange)

/-- Every event that goes on keeps the invariant. -/
theorem runEvent_inv {e : Event} (h : Inv s) (he : runEvent e s = .next t) : Inv t := by
  cases e with
  | rxByte b => exact rxByte_inv h he
  | pollTimeout =>
    obtain rfl := Host.Outcome.next.inj he
    exact pollTimeout_inv h
  | longTick m =>
    obtain rfl := Host.Outcome.next.inj he
    exact longTick_inv h m
  | tick m => exact tick_inv h he
  | reset =>
    obtain rfl := Host.Outcome.next.inj he
    exact powerOn_inv h.cfg_ok _ _

end

end Sys2Proof.Machine
end

section
/-! SUPPORT. What each event leaves of `tx`: the end of a frame can extend it, and of the other events only a reset
writes it (R71, R197). -/

namespace Sys2Proof.Machine

section
variable {s t : State}

/-- A stream that stays is one that keeps what was sent. -/
theorem exists_tx_append_of_tx_eq (h : t.tx = s.tx) : ∃ frame, t.tx = s.tx ++ frame :=
  ⟨[], by rw [h, List.append_nil]⟩

/-- The end of a frame keeps what was sent: a dropped frame sends nothing, a command one reply. -/
theorem finalize_tx (h : finalize s = .next t) : ∃ frame, t.tx = s.tx ++ frame := by
  rcases finalize_cases s with ⟨_, -, hdropped⟩ | ⟨i, -, hexec⟩
  · obtain rfl := Host.Outcome.next.inj (hdropped.symm.trans h)
    exact exists_tx_append_of_tx_eq (clearFrame_tx s)
  · obtain ⟨u, hu, rfl⟩ := clearAfter_eq_next (hexec.symm.trans h)
    obtain ⟨v, r, hv, -, htx⟩ := exec_sends_one_reply i s
    obtain rfl := Host.Outcome.next.inj (hv.symm.trans hu)
    exact ⟨replyBytes r, htx⟩

/-- A received byte keeps what was sent (R120). -/
theorem rxByte_tx {b : Byte} (h : rxByte b s = .next t) : ∃ frame, t.tx = s.tx ++ frame := by
  rcases rxByte_cases b s with ⟨-, hstart⟩ | ⟨-, -, hend⟩ | ⟨-, -, hstored⟩
  · obtain rfl := Host.Outcome.next.inj (hstart.symm.trans h)
    exact exists_tx_append_of_tx_eq (by simp)
  · exact finalize_tx (s := { s with lastRxMs := s.nowMs }) (hend.symm.trans h)
  · obtain rfl := Host.Outcome.next.inj (hstored.symm.trans h)
    exact exists_tx_append_of_tx_eq (by simp)

/-- A byte other than the carriage return sends nothing: it cannot end a frame (R120). -/
theorem rxByte_tx_of_ne_cr {b : Byte} (h : rxByte b s = .next t) (hb : b ≠ chCR) : t.tx = s.tx := by
  rcases rxByte_cases b s with ⟨-, hstart⟩ | ⟨hcr, -, -⟩ | ⟨-, -, hstored⟩
  · obtain rfl := Host.Outcome.next.inj (hstart.symm.trans h)
    simp
  · exact absurd hcr hb
  · obtain rfl := Host.Outcome.next.inj (hstored.symm.trans h)
    simp

@[simp] theorem pollTimeout_tx (s : State) : (pollTimeout s).tx = s.tx := by
  unfold pollTimeout
  split_ifs <;> rfl

@[simp] theorem longTick_tx (m : MotorId) (s : State) : (longTick m s).tx = s.tx := by simp [longTick]

theorem tick_tx {m : MotorId} (h : tick m s = .next t) : t.tx = s.tx := by
  obtain ⟨-, rfl⟩ := (tick_eq_next_iff m s t).mp h
  simp

/-- An event other than a reset and a carriage return sends nothing (R197, R270). -/
theorem runEvent_tx_of_ne_cr {e : Event} (h : runEvent e s = .next t) (hreset : e ≠ .reset)
    (hcr : e ≠ .rxByte chCR) : t.tx = s.tx := by
  cases e with
  | rxByte b => exact rxByte_tx_of_ne_cr h fun hb => hcr (congrArg Event.rxByte hb)
  | pollTimeout =>
    obtain rfl := Host.Outcome.next.inj h
    exact pollTimeout_tx s
  | longTick m =>
    obtain rfl := Host.Outcome.next.inj h
    exact longTick_tx m s
  | tick m => exact tick_tx h
  | reset => exact absurd rfl hreset

/-- An event other than a reset keeps what was sent. -/
theorem runEvent_tx {e : Event} (h : runEvent e s = .next t) (hreset : e ≠ .reset) :
    ∃ frame, t.tx = s.tx ++ frame := by
  by_cases hcr : e = .rxByte chCR
  · rw [hcr] at h
    exact rxByte_tx (b := chCR) h
  · exact exists_tx_append_of_tx_eq (runEvent_tx_of_ne_cr h hreset hcr)

end

end Sys2Proof.Machine
end

section
/-! The obligations of 44_replies.md: the machine invariant, and that nothing is sent unsolicited. -/

namespace Sys2Proof.Machine

/-- Settles O57: a step waits, or runs one event after an arrival, and both keep the invariant. -/
theorem stepKeepsInvariant : Obligations.StepKeepsInvariant := by
  intro s t h hstep
  obtain ⟨-, ⟨-, rfl⟩ | ⟨a, rest, -, hrun⟩⟩ := step_cases hstep
  · exact h
  · exact runEvent_inv (h.arrive a rest) hrun

/-- Settles O38: a step waits, or runs one event after an arrival that keeps `tx`; of the events that are no reset,
only a carriage return adds to it. -/
theorem nothingUnsolicited : Obligations.NothingUnsolicited := by
  intro s t hstep hreset
  obtain ⟨-, ⟨-, rfl⟩ | ⟨a, rest, hi, hrun⟩⟩ := step_cases hstep
  · exact ⟨exists_tx_append_of_tx_eq rfl, fun _ => rfl⟩
  · have hne : a.event ≠ .reset := hreset a rest hi
    refine ⟨?_, fun hcr => ?_⟩
    · simpa using runEvent_tx hrun hne
    · simpa using runEvent_tx_of_ne_cr hrun hne (hcr a rest hi)

end Sys2Proof.Machine
end

section
/-! SUPPORT. The two outcomes of a ramp computation as whole next states, and its phase decision in one form for both
directions (R206 to R209). -/

namespace Sys2Proof.Machine

/-! ## The conversions of FP in the terms of the statements -/

theorem fpOfInt_natCast (f : FpFormat) (n : Nat) : fpOfInt f n = fpRound f n := by
  rw [fpOfInt, Int.cast_natCast]

theorem ppsOf_eq (c : Config) (cn : Rat) :
    ppsOf c cn = max 1 ⌊fpRound c.fp (cn / fpRound c.fp c.tickUs)⌋.toNat := by
  rw [ppsOf, floorRat_eq, fpDiv, fpOfInt_natCast]

theorem speedOf_eq (f : FpFormat) (d : StepDir) (cn : Rat) :
    speedOf f d cn = (if d = .pos then 1 else -1) * fpRound f (fpRound f 1000000 / cn) := by
  cases d <;> simp [speedOf, dirValue, fpDiv, fpOfInt]

theorem nextInterval_eq (f : FpFormat) (cn : Rat) (n : Int) :
    nextInterval f cn n =
      fpRound f (cn - fpRound f (fpRound f (fpRound f 2 * cn) / fpRound f ((4 * n + 1 : Int) : Rat))) := by
  simp only [nextInterval, fpSub, fpDiv, fpMul, fpOfInt, Int.cast_ofNat]

/-- The clamp of the recurrence is a maximum. -/
theorem rampRecur_cn (c : Config) (g : StepGen) :
    (rampRecur c g).cn = max (fpRound c.fp c.cmin) (nextInterval c.fp g.cn g.n) := by
  rw [max_comm, max_def_lt]
  rfl

/-! ## The outcomes -/

/-- The direction that a ramp over the distance `d` starts in (R207). -/
def towards (d : Int) : StepDir := if 0 < d then .pos else .neg

theorem towards_of_pos {d : Int} (hd : 0 < d) : towards d = .pos := if_pos hd

theorem towards_of_neg {d : Int} (hd : d < 0) : towards d = .neg := if_neg hd.not_gt

theorem computeNewSpeed_of_stop {c : Config} {ax : AxisMotor} (hd : clampedDistanceToGo c ax.g = 0)
    (hs : stepsToStop c ax.g ≤ 1) : computeNewSpeed c ax = { ax with g := rampStop ax.g } :=
  if_pos ⟨hd, hs⟩

theorem computeNewSpeed_of_advance {c : Config} {ax : AxisMotor}
    (h : ¬ (clampedDistanceToGo c ax.g = 0 ∧ stepsToStop c ax.g ≤ 1)) :
    computeNewSpeed c ax = rampAdvance c (clampedDistanceToGo c ax.g) (stepsToStop c ax.g) ax :=
  if_neg h

section
variable (c : Config) {d : Int} {sts : Nat} {ax : AxisMotor}

/-- The counter grows by one after the phase decision (R209). -/
theorem rampAdvance_n (d : Int) (sts : Nat) (ax : AxisMotor) :
    (rampAdvance c d sts ax).g.n = rampPhase d sts ax.g + 1 := by
  simp only [rampAdvance, rampInterval, rampFinish_n]
  split_ifs <;> rfl

/-- A ramp starts at `C0`, towards the target (R207). -/
theorem rampAdvance_of_start (h : rampPhase d sts ax.g = 0) :
    rampAdvance c d sts ax = { ax with
      dirPin := dirLevel c (towards d)
      g := rampFinish c { ax.g with n := 0, cn := fpRound c.fp c.c0, dir := towards d } } := by
  simp only [rampAdvance, rampInterval, h]
  rfl

/-- A ramp goes on by the recurrence, with the counter of the phase decision (R208). -/
theorem rampAdvance_of_continue (h : rampPhase d sts ax.g ≠ 0) :
    rampAdvance c d sts ax = { ax with
      g := rampFinish c (rampRecur c { ax.g with n := rampPhase d sts ax.g }) } := by
  simp only [rampAdvance, rampInterval, h]
  rfl

end

/-! ## The phase decision -/

theorem ne_pos_iff {d : StepDir} : d ≠ .pos ↔ d = .neg := by cases d <;> decide

theorem ne_neg_iff {d : StepDir} : d ≠ .neg ↔ d = .pos := by cases d <;> decide

section
variable {d : Int} (sts : Nat) {g : StepGen}

theorem rampPhase_of_distance_zero : rampPhase 0 sts g = g.n := rfl

theorem rampPhase_of_counter_zero (d : Int) (hn : g.n = 0) : rampPhase d sts g = 0 := by
  simp [rampPhase, hn]

variable {sts}

/-- Step 4 for both signs of the distance: what counts is its magnitude, and whether the generator runs towards the
target (R206). -/
theorem rampPhase_of_distance_ne_zero (hd : d ≠ 0) :
    rampPhase d sts g =
      if 0 < g.n then (if |d| ≤ sts ∨ g.dir ≠ towards d then -(sts : Int) else g.n)
      else if g.n < 0 then (if (sts : Int) < |d| ∧ g.dir = towards d then -g.n else g.n)
      else g.n := by
  rcases hd.lt_or_gt with hneg | hpos
  · simp only [rampPhase, towards_of_neg hneg, abs_of_neg hneg, hneg, hneg.not_gt, if_true, if_false, ne_neg_iff]
  · simp only [rampPhase, towards_of_pos hpos, abs_of_pos hpos, hpos, if_true, ne_pos_iff]

/-- An accelerating generator begins to brake when the target is within the stopping distance or behind it. -/
theorem rampPhase_brake (hd : d ≠ 0) (hn : 0 < g.n) (h : |d| ≤ sts ∨ g.dir ≠ towards d) :
    rampPhase d sts g = -(sts : Int) := by
  rw [rampPhase_of_distance_ne_zero hd, if_pos hn, if_pos h]

theorem rampPhase_accelerate (hd : d ≠ 0) (hn : 0 < g.n) (hs : (sts : Int) < |d|) (hdir : g.dir = towards d) :
    rampPhase d sts g = g.n := by
  rw [rampPhase_of_distance_ne_zero hd, if_pos hn, if_neg (by simp [hs, hdir])]

/-- A braking generator accelerates again when the target is ahead, beyond the stopping distance. -/
theorem rampPhase_resume (hd : d ≠ 0) (hn : g.n < 0) (hs : (sts : Int) < |d|) (hdir : g.dir = towards d) :
    rampPhase d sts g = -g.n := by
  rw [rampPhase_of_distance_ne_zero hd, if_neg hn.not_gt, if_pos hn, if_pos ⟨hs, hdir⟩]

theorem rampPhase_keepBraking (hd : d ≠ 0) (hn : g.n < 0) (h : |d| ≤ sts ∨ g.dir ≠ towards d) :
    rampPhase d sts g = g.n := by
  rw [rampPhase_of_distance_ne_zero hd, if_neg hn.not_gt, if_pos hn, if_neg]
  rintro ⟨hs, hdir⟩
  exact h.elim hs.not_ge fun hne => hne hdir

end

/-! ## The counter after a computation -/

theorem computeNewSpeed_n {c : Config} {ax : AxisMotor}
    (h : ¬ (clampedDistanceToGo c ax.g = 0 ∧ stepsToStop c ax.g ≤ 1)) {p : Int}
    (hp : rampPhase (clampedDistanceToGo c ax.g) (stepsToStop c ax.g) ax.g = p) :
    (computeNewSpeed c ax).g.n = p + 1 := by
  rw [computeNewSpeed_of_advance h, rampAdvance_n, hp]

/-- The four decisions away from the target: to brake, to accelerate, to accelerate again and to brake on. The distance
has the magnitude `m` and the target lies in the direction `ahead`. -/
theorem computeNewSpeed_counter (c : Config) (ax : AxisMotor) {m : Int} {ahead back : StepDir}
    (hd : clampedDistanceToGo c ax.g ≠ 0) (hm : |clampedDistanceToGo c ax.g| = m)
    (hahead : towards (clampedDistanceToGo c ax.g) = ahead) (hback : ax.g.dir ≠ ahead ↔ ax.g.dir = back) :
    let sts := stepsToStop c ax.g
    let n' := (computeNewSpeed c ax).g.n
    (0 < ax.g.n → (m ≤ sts ∨ ax.g.dir = back) → n' = 1 - sts) ∧
    (0 < ax.g.n → sts < m → ax.g.dir = ahead → n' = ax.g.n + 1) ∧
    (ax.g.n < 0 → sts < m → ax.g.dir = ahead → n' = 1 - ax.g.n) ∧
    (ax.g.n < 0 → (m ≤ sts ∨ ax.g.dir = back) → n' = ax.g.n + 1) := by
  intro sts n'
  subst hm hahead
  rw [← hback]
  have counter {p : Int} : rampPhase (clampedDistanceToGo c ax.g) sts ax.g = p → n' = p + 1 :=
    computeNewSpeed_n fun h => hd h.1
  refine ⟨fun hn h => ?_, fun hn hs hdir => counter (rampPhase_accelerate hd hn hs hdir), fun hn hs hdir => ?_,
    fun hn h => counter (rampPhase_keepBraking hd hn h)⟩
  · rw [counter (rampPhase_brake hd hn h), neg_add_eq_sub]
  · rw [counter (rampPhase_resume hd hn hs hdir), neg_add_eq_sub]

end Sys2Proof.Machine
end

section
/-! The obligations of 45_step_generator.md on the distances, the target, one ramp computation and one step. -/

namespace Sys2Proof.Machine

/-- Settles O41: the target decides between the two. -/
theorem setTargetRecomputes : Obligations.SetTargetRecomputes :=
  fun c _ ax => ⟨setTargetPosition_of_eq c ax, setTargetPosition_of_ne c ax⟩

/-- Settles O44: a run is one advance in the generator's direction and one pulse. -/
theorem runTakesOneStep : Obligations.RunTakesOneStep := by
  intro ax
  rw [← dirValue_eq_ite]
  rfl

/-- Settles O39: the sentinels straddle zero, so no target meets both. -/
theorem clampedDistance : Obligations.ClampedDistance := by
  intro c g hc
  have hneg := configOk_genNegInf hc
  have hpos := configOk_genPosInf hc
  refine ⟨fun h => ⟨if_pos h, configOk_distInf_pos hc⟩, fun h => ?_, fun hlow hhigh => ?_⟩
  · rw [clampedDistanceToGo, if_neg (by omega), if_pos h]
  · rw [clampedDistanceToGo, if_neg hhigh.not_ge, if_neg hlow.not_ge]

/-- Settles O40: exact rationals leave the quotient of R203, which is not negative, so that truncation is the floor. -/
theorem stoppingDistance : Obligations.StoppingDistance := by
  intro c g hc hfp
  have ha := configOk_accel_pos hc
  have hquot : (0 : Rat) ≤ g.speed ^ 2 / (2 * c.accel) := by positivity
  have hsteps : stepsToStop c g = (truncRat (g.speed ^ 2 / (2 * c.accel))).toNat := by
    simp only [stepsToStop, fpDiv, fpMul, fpOfInt, fpOfRat, hfp, fpRound_exact, sq, Int.cast_ofNat]
  rw [hsteps, truncRat_of_nonneg hquot, Int.toNat_of_nonneg (Int.floor_nonneg.mpr hquot)]

/-- Settles O42: at distance 0 the counter goes on; at any other the two signs are the one case analysis of
`computeNewSpeed_counter`. -/
theorem rampPhaseDecision : Obligations.RampPhaseDecision := by
  intro c ax d sts n'
  have ahead (hd : 0 < d) := computeNewSpeed_counter c ax hd.ne' (abs_of_pos hd) (towards_of_pos hd) ne_pos_iff
  have behind (hd : d < 0) := computeNewSpeed_counter c ax hd.ne (abs_of_neg hd) (towards_of_neg hd) ne_neg_iff
  refine ⟨computeNewSpeed_of_stop, fun hd hs => ?_, fun hd hn => ?_,
    fun hd => have ⟨brake, _, _, _⟩ := ahead hd; brake,
    fun hd => have ⟨_, accelerate, _, _⟩ := ahead hd; accelerate,
    fun hd => have ⟨_, _, resume, _⟩ := ahead hd; resume,
    fun hd => have ⟨_, _, _, keepBraking⟩ := ahead hd; keepBraking,
    fun hd => have ⟨brake, _, _, _⟩ := behind hd; brake,
    fun hd => have ⟨_, accelerate, _, _⟩ := behind hd; accelerate,
    fun hd => have ⟨_, _, resume, _⟩ := behind hd; resume,
    fun hd => have ⟨_, _, _, keepBraking⟩ := behind hd; keepBraking⟩
  · have hphase : rampPhase d sts ax.g = ax.g.n := by rw [hd, rampPhase_of_distance_zero]
    exact computeNewSpeed_n (fun h => hs.not_ge h.2) hphase
  · exact computeNewSpeed_n (fun h => hd h.1) (rampPhase_of_counter_zero sts d hn)

/-- Settles O43: the counter after the computation is 1 exactly when the phase decision is 0, and then the ramp starts;
otherwise the recurrence uses that decision. -/
theorem rampIntervalAndSpeed : Obligations.RampIntervalAndSpeed := by
  intro c ax hgo
  rw [computeNewSpeed_of_advance hgo]
  by_cases hp : rampPhase (clampedDistanceToGo c ax.g) (stepsToStop c ax.g) ax.g = 0
  · rw [rampAdvance_of_start c hp]
    refine ⟨_, _, rfl, rfl, rfl, fun _ => ⟨rfl, rfl, ?_⟩, fun h => absurd rfl h, speedOf_eq _ _ _, ppsOf_eq _ _⟩
    rw [towards]
    split_ifs <;> rfl
  · rw [rampAdvance_of_continue c hp]
    refine ⟨_, _, rfl, rfl, rfl, fun h => absurd (add_eq_right.mp h) hp, fun _ => ⟨rfl, rfl, ?_⟩,
      speedOf_eq _ _ _, ppsOf_eq _ _⟩
    rw [rampFinish_cn, rampRecur_cn, nextInterval_eq, rampFinish_n, rampRecur_n, add_sub_cancel_right]

end Sys2Proof.Machine
end

section
/-! SUPPORT. Ramps under TC, from rest to any target between the sentinels (R206 to R212). The stopping distance grows
by at most one with each accelerating step, so that it is the way left or one more when the generator begins to brake;
from then on each step lowers both by exactly one. -/

namespace Sys2Proof.Machine

/-! ## The stopping distance of an interval -/

/-- The stopping distance under TC at the interval `cn`. -/
def stopOf (cn : Rat) : Nat := stepsToStop Config.tc { StepGen.reset with speed := speedOf .exact .pos cn }

/-- The sign of the speed does not matter to the stopping distance (R203). -/
theorem stepsToStop_eq_stopOf {g : StepGen} (h : g.speed = speedOf .exact g.dir g.cn) :
    stepsToStop Config.tc g = stopOf g.cn := by
  simp only [stopOf, stepsToStop, h]
  cases g.dir with
  | pos => rfl
  | neg => simp [speedOf, dirValue, fpMul]

/-- The stopping distance is the floor of `(1000000 / cn)^2 / (2 ACCEL)`, with `ACCEL` that of TC. -/
theorem stopOf_eq_iff {cn : Rat} (hcn : 0 < cn) (j : Nat) :
    stopOf cn = j ↔ j * cn ^ 2 ≤ 25000000 ∧ 25000000 < (j + 1) * cn ^ 2 := by
  have hsq : 0 < cn ^ 2 := pow_pos hcn 2
  have hquot : (speedOf .exact .pos cn) ^ 2 / (2 * Config.tc.accel) = 25000000 / cn ^ 2 := by
    simp only [speedOf, dirValue, fpDiv, fpOfInt, fpRound_exact, Config.tc]
    field_simp
    norm_num
  have hfloor : (stopOf cn : Int) = ⌊25000000 / cn ^ 2⌋ := by
    rw [stopOf, stoppingDistance Config.tc _ (by decide) rfl, hquot]
  rw [← Int.natCast_inj, hfloor, Int.floor_eq_iff, le_div_iff₀ hsq, div_lt_iff₀ hsq, Int.cast_natCast]

/-! ## Braking -/

/-- The recurrence on a negative counter makes the interval longer. -/
theorem nextInterval_exact_neg (cn : Rat) (j : Nat) :
    nextInterval .exact cn (-((j + 1 : Nat) : Int)) = cn * (4 * j + 5) / (4 * j + 3) := by
  have hden : (4 * (j : Rat) + 3) ≠ 0 := by positivity
  have hneg : (4 * -((j : Rat) + 1) + 1) = -(4 * j + 3) := by ring
  simp only [nextInterval, fpSub, fpDiv, fpMul, fpOfInt, fpRound_exact]
  push_cast
  rw [hneg]
  field_simp
  ring

/-- The bounds that make the stopping distance `j + 1` at the interval `x` make it `j` at the next one. -/
theorem stop_bounds_of_brake {x v : Rat} (j : Nat) (hle : (j + 1) * x ^ 2 ≤ v) (hlt : v < (j + 1 + 1) * x ^ 2) :
    j * (x * (4 * j + 5) / (4 * j + 3)) ^ 2 ≤ v ∧ v < (j + 1) * (x * (4 * j + 5) / (4 * j + 3)) ^ 2 := by
  have hden : (0 : Rat) < (4 * j + 3) ^ 2 := by positivity
  have hlow : (j : Rat) * (4 * j + 5) ^ 2 ≤ (j + 1) * (4 * j + 3) ^ 2 := by nlinarith
  have hhigh : ((j : Rat) + 1 + 1) * (4 * j + 3) ^ 2 ≤ (j + 1) * (4 * j + 5) ^ 2 := by nlinarith
  rw [div_pow, mul_pow, ← mul_div_assoc, ← mul_div_assoc, div_le_iff₀ hden, lt_div_iff₀ hden]
  constructor
  · calc j * (x ^ 2 * (4 * j + 5) ^ 2) = x ^ 2 * (j * (4 * j + 5) ^ 2) := by ring
      _ ≤ x ^ 2 * ((j + 1) * (4 * j + 3) ^ 2) := mul_le_mul_of_nonneg_left hlow (sq_nonneg x)
      _ = (j + 1) * x ^ 2 * (4 * j + 3) ^ 2 := by ring
      _ ≤ v * (4 * j + 3) ^ 2 := mul_le_mul_of_nonneg_right hle hden.le
  · calc v * (4 * j + 3) ^ 2 < (j + 1 + 1) * x ^ 2 * (4 * j + 3) ^ 2 := mul_lt_mul_of_pos_right hlt hden
      _ = x ^ 2 * ((j + 1 + 1) * (4 * j + 3) ^ 2) := by ring
      _ ≤ x ^ 2 * ((j + 1) * (4 * j + 5) ^ 2) := mul_le_mul_of_nonneg_left hhigh (sq_nonneg x)
      _ = (j + 1) * (x ^ 2 * (4 * j + 5) ^ 2) := by ring

/-- A braking step whose counter is the stopping distance lowers that distance by exactly one. -/
theorem stopOf_of_brake {cn : Rat} {j : Nat} (hmin : Config.tc.cmin ≤ cn) (hstop : stopOf cn = j + 1) :
    stopOf (max Config.tc.cmin (nextInterval .exact cn (-((j + 1 : Nat) : Int)))) = j := by
  have hcn : 0 < cn := lt_of_lt_of_le (by decide) hmin
  have hlonger : cn ≤ cn * (4 * j + 5) / (4 * j + 3) := by
    rw [le_div_iff₀ (by positivity)]
    exact mul_le_mul_of_nonneg_left (by linarith) hcn.le
  obtain ⟨hle, hlt⟩ := (stopOf_eq_iff hcn (j + 1)).mp hstop
  push_cast at hle hlt
  rw [nextInterval_exact_neg, max_eq_right (hmin.trans hlonger), stopOf_eq_iff (hcn.trans_le hlonger)]
  exact stop_bounds_of_brake j hle hlt

/-! ## Accelerating -/

/-- The interval after `k` accelerating steps under TC. -/
def rampUp : Nat → Rat
  | 0 => Config.tc.c0
  | k + 1 => max Config.tc.cmin (nextInterval .exact (rampUp k) (k + 1))

/-- From the 25th step on the generator cruises at `CMIN`. -/
theorem rampUp_cruise (k : Nat) : rampUp (25 + k) = Config.tc.cmin := by
  induction k with
  | zero => decide +kernel
  | succ k ih =>
    have hshorter : nextInterval .exact Config.tc.cmin ((25 + k : Nat) + 1) ≤ Config.tc.cmin := by
      have hcmin : (0 : Rat) ≤ Config.tc.cmin := by decide
      simp only [nextInterval, fpSub, fpDiv, fpMul, fpOfInt, fpRound_exact]
      exact sub_le_self _ (by positivity)
    rw [← add_assoc, rampUp, ih, max_eq_left hshorter]

/-- The stopping distance grows by one with each step, up to that of the cruise. -/
theorem stopOf_rampUp (k : Nat) : stopOf (rampUp k) = min k 25 := by
  rcases le_total k 25 with hk | hk
  · have htable : ∀ k ≤ 25, stopOf (rampUp k) = k := by decide +kernel
    rw [htable k hk, min_eq_left hk]
  · obtain ⟨k, rfl⟩ := Nat.exists_eq_add_of_le hk
    have hcruise : stopOf Config.tc.cmin = 25 := by decide +kernel
    rw [rampUp_cruise, hcruise, min_eq_right hk]

/-! ## A step of the ramp -/

/-- A generator on a ramp under TC, with `r` steps to go in its direction: it accelerates, or brakes with the stopping
distance as its counter; it can stop within the way, and once it brakes, at most one step before its end. -/
structure OnRamp (r : Nat) (g : StepGen) : Prop where
  target_low : Config.tc.genNegInf < g.target
  target_high : g.target < Config.tc.genPosInf
  distance : g.target = g.position + dirValue g.dir * r
  speed_eq : g.speed = speedOf .exact g.dir g.cn
  cmin_le : Config.tc.cmin ≤ g.cn
  in_time : stopOf g.cn ≤ r
  phase : (∃ k : Nat, g.n = k + 1 ∧ g.cn = rampUp k) ∨ (g.n = -(stopOf g.cn : Int) ∧ r ≤ stopOf g.cn + 1)

/-- One physical step and the computation that follows it. -/
def rampStep (ax : AxisMotor) : AxisMotor := computeNewSpeed Config.tc (run ax)

section
variable {r : Nat} {ax : AxisMotor}

theorem OnRamp.run_distance (h : OnRamp (r + 1) ax.g) :
    clampedDistanceToGo Config.tc (run ax).g = dirValue ax.g.dir * r := by
  have hto : clampedDistanceToGo Config.tc (run ax).g = (run ax).g.target - (run ax).g.position := by
    obtain ⟨-, -, hbetween⟩ := clampedDistance Config.tc (run ax).g (by decide)
    exact hbetween h.target_low h.target_high
  rw [hto, run_g_target, run_g_position, h.distance]
  push_cast
  ring

theorem OnRamp.run_steps (h : OnRamp r ax.g) : stepsToStop Config.tc (run ax).g = stopOf ax.g.cn :=
  stepsToStop_eq_stopOf (g := (run ax).g) h.speed_eq

theorem towards_dirValue_mul (d : StepDir) (hr : 0 < r) : towards (dirValue d * r) = d := by
  cases d with
  | pos => exact towards_of_pos (by simpa [dirValue] using hr)
  | neg => exact towards_of_neg (by simpa [dirValue] using hr)

theorem abs_dirValue_mul (d : StepDir) (r : Nat) : |dirValue d * (r : Int)| = r := by
  cases d <;> simp [dirValue]

theorem dirValue_mul_ne_zero (d : StepDir) (hr : 0 < r) : dirValue d * (r : Int) ≠ 0 := by
  rw [← abs_pos, abs_dirValue_mul]
  exact_mod_cast hr

/-- With no step left to go the generator stops: it needs at most one step to do so. -/
theorem OnRamp.rampStep_last (h : OnRamp 1 ax.g) : rampStep ax = { run ax with g := rampStop (run ax).g } := by
  refine computeNewSpeed_of_stop ?_ ?_
  · simpa using h.run_distance (r := 0)
  · rw [h.run_steps]
    exact h.in_time

/-- Before the target the recurrence goes on, with the counter `p` of the phase decision. -/
theorem OnRamp.rampStep_g (h : OnRamp (r + 1) ax.g) (hr : 0 < r) {p : Int} (hp : p ≠ 0)
    (hphase : rampPhase (dirValue ax.g.dir * r) (stopOf ax.g.cn) (run ax).g = p) :
    (rampStep ax).g = rampFinish Config.tc (rampRecur Config.tc { (run ax).g with n := p }) := by
  have hd := h.run_distance.trans_ne (dirValue_mul_ne_zero ax.g.dir hr)
  rw [rampStep, computeNewSpeed_of_advance fun hstop => hd hstop.1, h.run_distance, h.run_steps,
    rampAdvance_of_continue Config.tc (hphase.trans_ne hp), hphase]

/-- The registers that every step on the way keeps in order, whatever its phase. -/
theorem OnRamp.rampStep_of_phase (h : OnRamp (r + 1) ax.g) (hr : 0 < r) {p : Int} {cn : Rat} (hp : p ≠ 0)
    (hphase : rampPhase (dirValue ax.g.dir * r) (stopOf ax.g.cn) (run ax).g = p)
    (hcn : max Config.tc.cmin (nextInterval .exact ax.g.cn p) = cn) (hstop : stopOf cn ≤ r)
    (hnext : (∃ k : Nat, p = k ∧ cn = rampUp k) ∨ (p + 1 = -(stopOf cn : Int) ∧ r ≤ stopOf cn + 1)) :
    OnRamp r (rampStep ax).g := by
  have hrecur : (rampRecur Config.tc { (run ax).g with n := p }).cn = cn := (rampRecur_cn _ _).trans hcn
  rw [h.rampStep_g hr hp hphase]
  refine ⟨h.target_low, h.target_high, ?_, rfl, rampRecur_cn_ge _ _, ?_, ?_⟩
  · have hdistance := h.distance
    simp only [rampFinish_target, rampFinish_position, rampFinish_dir, rampRecur_target, rampRecur_position,
      rampRecur_dir, run_g_target, run_g_position, run_g_dir]
    rw [hdistance]
    push_cast
    ring
  · rwa [rampFinish_cn, hrecur]
  · simpa only [rampFinish_cn, rampFinish_n, rampRecur_n, hrecur, add_left_inj] using hnext

/-- A step that brakes: the phase decision makes the stopping distance the counter, as the way is no longer than it. -/
theorem OnRamp.rampStep_of_brake (h : OnRamp (r + 1) ax.g) (hr : 0 < r) (hlate : r ≤ stopOf ax.g.cn)
    (hphase : rampPhase (dirValue ax.g.dir * r) (stopOf ax.g.cn) (run ax).g = -(stopOf ax.g.cn : Int)) :
    OnRamp r (rampStep ax).g := by
  have hin := h.in_time
  obtain ⟨j, hj⟩ : ∃ j, stopOf ax.g.cn = j + 1 := Nat.exists_eq_add_one.mpr (hr.trans_le hlate)
  have hnext := stopOf_of_brake h.cmin_le hj
  refine h.rampStep_of_phase hr (p := -((j + 1 : Nat) : Int)) (by omega) (hphase.trans (by rw [hj])) rfl
    (hnext.trans_le (by omega)) (.inr ?_)
  rw [hnext]
  omega

/-- Before the target every step leaves the generator on its ramp, one step nearer. -/
theorem OnRamp.rampStep_before (h : OnRamp (r + 1) ax.g) (hr : 0 < r) : OnRamp r (rampStep ax).g := by
  have hd := dirValue_mul_ne_zero ax.g.dir hr
  have habs := abs_dirValue_mul ax.g.dir r
  rcases h.phase with ⟨k, hn, hk⟩ | ⟨hn, hlate⟩
  · have hcounter : 0 < (run ax).g.n := by rw [run_g_n, hn]; omega
    rcases lt_or_ge (stopOf ax.g.cn) r with hfar | hnear
    · have hphase : rampPhase (dirValue ax.g.dir * r) (stopOf ax.g.cn) (run ax).g = (run ax).g.n :=
        rampPhase_accelerate hd hcounter (by omega) (towards_dirValue_mul ax.g.dir hr).symm
      have hin_time : stopOf (rampUp (k + 1)) ≤ r := by
        rw [hk, stopOf_rampUp] at hfar
        rw [stopOf_rampUp]
        omega
      exact h.rampStep_of_phase hr hcounter.ne' hphase (by rw [run_g_n, hn, hk, rampUp]) hin_time
        (.inl ⟨k + 1, by rw [run_g_n, hn, Nat.cast_succ], rfl⟩)
    · exact h.rampStep_of_brake hr hnear (rampPhase_brake hd hcounter (.inl (by omega)))
  · have hcounter : (run ax).g.n < 0 := by rw [run_g_n, hn]; omega
    have hphase : rampPhase (dirValue ax.g.dir * r) (stopOf ax.g.cn) (run ax).g = (run ax).g.n :=
      rampPhase_keepBraking hd hcounter (.inl (by omega))
    exact h.rampStep_of_brake hr (by omega) (hphase.trans hn)

/-! ## The whole ramp -/

/-- A generator that stands on its target `t`. -/
structure StoppedAt (t : Int) (g : StepGen) : Prop where
  position : g.position = t
  target : g.target = t
  speed : g.speed = 0
  n : g.n = 0
  pps : g.pps = 0

theorem rampStep_target (ax : AxisMotor) : (rampStep ax).g.target = ax.g.target := by
  obtain ⟨pin, g, hframe, -, htarget⟩ := computeNewSpeed_frame Config.tc (run ax)
  rw [rampStep, hframe, htarget, run_g_target]

/-- The last step of a ramp stops the generator on its target. -/
theorem OnRamp.stoppedAt (h : OnRamp 1 ax.g) : StoppedAt ax.g.target (rampStep ax).g := by
  have hdistance := h.distance
  rw [h.rampStep_last]
  exact ⟨by simpa using hdistance.symm, rfl, rfl, rfl, rfl⟩

/-- On a ramp with `r + 1` steps to go, as many steps stop the generator on its target (R212). -/
theorem OnRamp.iterate_stoppedAt (h : OnRamp (r + 1) ax.g) : StoppedAt ax.g.target (rampStep^[r + 1] ax).g := by
  induction r generalizing ax with
  | zero => exact h.stoppedAt
  | succ r ih =>
    rw [Function.iterate_succ_apply, ← rampStep_target]
    exact ih (h.rampStep_before r.succ_pos)

/-- A computation with the counter at 0 and the target away starts a ramp (R207). -/
theorem computeNewSpeed_onRamp (hn : ax.g.n = 0) (hd : ax.g.target - ax.g.position ≠ 0)
    (hlow : Config.tc.genNegInf < ax.g.target) (hhigh : ax.g.target < Config.tc.genPosInf) :
    OnRamp (ax.g.target - ax.g.position).natAbs (computeNewSpeed Config.tc ax).g := by
  obtain ⟨-, -, hbetween⟩ := clampedDistance Config.tc ax.g (by decide)
  have hto := hbetween hlow hhigh
  have hgo := computeNewSpeed_of_advance fun h => hd (hto.symm.trans h.1)
  rw [hgo, hto, rampAdvance_of_start _ (rampPhase_of_counter_zero _ _ hn)]
  refine ⟨hlow, hhigh, ?_, rfl, configOk_cmin_le_c0 (by decide), (stopOf_rampUp 0).trans_le (Nat.zero_le _),
    .inl ⟨0, rfl, rfl⟩⟩
  rcases hd.lt_or_gt with hneg | hpos
  · simp only [rampFinish_target, rampFinish_position, rampFinish_dir, towards_of_neg hneg, dirValue]
    omega
  · simp only [rampFinish_target, rampFinish_position, rampFinish_dir, towards_of_pos hpos, dirValue]
    omega

/-- Under TC every ramp from rest to a target between the sentinels ends on its target, stopped, after as many steps as
the target is away (R212). -/
theorem ramp_stoppedAt {d : Int} (hd : d ≠ 0) (hlow : Config.tc.genNegInf < d) (hhigh : d < Config.tc.genPosInf)
    (hpos : ax.g.position = 0) (htarget : ax.g.target = 0) (hn : ax.g.n = 0) :
    StoppedAt d (rampStep^[d.natAbs] (setTargetPosition Config.tc d ax)).g := by
  have hset : (setTargetPosition Config.tc d ax).g.target = d := by
    obtain ⟨pin, g, hframe, -, ht⟩ := setTargetPosition_frame Config.tc d ax
    rw [hframe, ht]
  have haway : d - ax.g.position = d := by rw [hpos, sub_zero]
  have hstart : OnRamp (d - ax.g.position).natAbs (setTargetPosition Config.tc d ax).g := by
    rw [setTargetPosition_of_ne _ _ (htarget ▸ hd)]
    exact computeNewSpeed_onRamp (ax := { ax with g := { ax.g with target := d } }) hn (haway.trans_ne hd) hlow hhigh
  obtain ⟨r, hr⟩ : ∃ r, d.natAbs = r + 1 := Nat.exists_eq_add_one.mpr (Int.natAbs_pos.mpr hd)
  rw [haway, hr] at hstart
  have hstopped := hstart.iterate_stoppedAt
  rwa [hset, ← hr] at hstopped

end

end Sys2Proof.Machine
end

section
/-! The obligation of 45_step_generator.md on whole ramps. -/

namespace Sys2Proof.Machine

/-- Settles O45: sixty steps are far from the sentinels, and the bound plays no other part. -/
theorem shortRampsTerminate : Obligations.ShortRampsTerminate := by
  intro d ax hd hbound hpos htarget _ hn
  have hrange := abs_le.mp hbound
  have hlow : Config.tc.genNegInf < d := lt_of_lt_of_le (by decide) hrange.1
  have hhigh : d < Config.tc.genPosInf := lt_of_le_of_lt hrange.2 (by decide)
  obtain ⟨position, target, speed, n, pps⟩ := ramp_stoppedAt (abs_pos.mp hd) hlow hhigh hpos htarget hn
  exact ⟨position, target, speed, n, pps⟩

end Sys2Proof.Machine
end

section
/-! SUPPORT. A ramp that starts from rest as a whole next state of the axis (R205, R207, R209), and `J` as the start of
its motor (R160, R233, R234). -/

namespace Sys2Proof.Machine

/-! ## The start of a ramp -/

/-- Between the sentinels the clamped distance has the sign of the way to the target: saturation changes only its
magnitude (R202). -/
theorem sign_clampedDistanceToGo {c : Config} (hc : configOk c = true) {g : StepGen} (hlow : c.genNegInf < g.position)
    (hhigh : g.position < c.genPosInf) :
    (clampedDistanceToGo c g).sign = (g.target - g.position).sign := by
  have hinf := configOk_distInf_pos hc
  unfold clampedDistanceToGo
  split_ifs with hpos hneg
  · rw [Int.sign_eq_one_of_pos hinf, Int.sign_eq_one_of_pos (by omega)]
  · rw [Int.sign_eq_neg_one_of_neg (by omega), Int.sign_eq_neg_one_of_neg (by omega)]
  · rfl

theorem clampedDistanceToGo_eq_zero_iff {c : Config} (hc : configOk c = true) {g : StepGen}
    (hlow : c.genNegInf < g.position) (hhigh : g.position < c.genPosInf) :
    clampedDistanceToGo c g = 0 ↔ g.target = g.position := by
  rw [← Int.sign_eq_zero_iff_zero, sign_clampedDistanceToGo hc hlow hhigh, Int.sign_eq_zero_iff_zero, sub_eq_zero]

/-- The direction of a ramp depends only on the sign of the way. -/
theorem towards_congr {d e : Int} (h : d.sign = e.sign) : towards d = towards e := by
  simp only [towards, ← Int.sign_eq_one_iff_pos, h]

/-- A generator that has started from zero towards the target `t`: the registers after the first computation (R207,
R209). -/
def startedGen (c : Config) (t : Int) : StepGen where
  position := 0
  target := t
  speed := if towards t = .pos then startSpeed c else -startSpeed c
  cn := startInterval c
  n := 1
  pps := startPps c
  dir := towards t

/-- An axis whose generator has started from zero towards the target `t`, its direction pin at that direction. -/
def started (c : Config) (t : Int) (ax : AxisMotor) : AxisMotor :=
  { ax with dirPin := dirLevel c (towards t), g := startedGen c t }

/-- The first computation after a generator at rest at zero got a target away from it (R207, R209). -/
theorem computeNewSpeed_of_rest {c : Config} (hc : configOk c = true) {ax : AxisMotor} (hpos : ax.g.position = 0)
    (hn : ax.g.n = 0) (ht : ax.g.target ≠ 0) : computeNewSpeed c ax = started c ax.g.target ax := by
  have hlow : c.genNegInf < ax.g.position := hpos ▸ configOk_genNegInf hc
  have hhigh : ax.g.position < c.genPosInf := hpos ▸ configOk_genPosInf hc
  have hd : clampedDistanceToGo c ax.g ≠ 0 := by rwa [Ne, clampedDistanceToGo_eq_zero_iff hc hlow hhigh, hpos]
  have hdir : towards (clampedDistanceToGo c ax.g) = towards ax.g.target :=
    towards_congr (by rw [sign_clampedDistanceToGo hc hlow hhigh, hpos, sub_zero])
  have hspeed : speedOf c.fp (towards ax.g.target) (startInterval c) =
      if towards ax.g.target = .pos then startSpeed c else -startSpeed c := by
    rw [speedOf_eq, ite_mul, one_mul, neg_one_mul]
    rfl
  rw [computeNewSpeed_of_advance fun h => hd h.1, rampAdvance_of_start c (rampPhase_of_counter_zero _ _ hn), hdir,
    started, startedGen, startPps, ← ppsOf_eq, ← hspeed]
  simp only [rampFinish, hpos]
  rfl

/-- From rest at zero another target starts a ramp towards it, sentinel or not (R205). -/
theorem setTargetPosition_of_rest {c : Config} (hc : configOk c = true) {ax : AxisMotor} (hpos : ax.g.position = 0)
    (htgt : ax.g.target = 0) (hn : ax.g.n = 0) {t : Int} (ht : t ≠ 0) :
    setTargetPosition c t ax = started c t ax :=
  (setTargetPosition_of_ne c ax (htgt ▸ ht)).trans (computeNewSpeed_of_rest hc hpos hn ht)

/-! ## The start of a motor -/

section
variable {c : Config} {ax : AxisMotor}

theorem startMotor_of_tracking_ccw (hc : configOk c = true) (htype : ax.slewType = .tracking)
    (hdir : ax.slewDir = .ccw) (hpos : ax.g.position = 0) (htgt : ax.g.target = 0) (hn : ax.g.n = 0) :
    startMotor c ax = started c c.genNegInf
      { ax with stopping := false, tickCount := 0, target := axisNinf, moving := true } := by
  simp only [startMotor, htype, hdir, if_true]
  refine setTargetPosition_of_rest hc ?_ ?_ ?_ (configOk_genNegInf hc).ne
  exacts [hpos, htgt, hn]

/-- Tracking clockwise, and with no direction set (D32). -/
theorem startMotor_of_tracking_cw (hc : configOk c = true) (htype : ax.slewType = .tracking)
    (hdir : ax.slewDir ≠ .ccw) (hpos : ax.g.position = 0) (htgt : ax.g.target = 0) (hn : ax.g.n = 0) :
    startMotor c ax = started c c.genPosInf
      { ax with stopping := false, tickCount := 0, target := axisInf, moving := true } := by
  simp only [startMotor, htype, hdir, if_true, if_false]
  refine setTargetPosition_of_rest hc ?_ ?_ ?_ (configOk_genPosInf hc).ne'
  exacts [hpos, htgt, hn]

/-- A GOTO zeroes the generator and aims it at the step count (R234). -/
theorem startMotor_of_goto (c : Config) (htype : ax.slewType = .goto) :
    startMotor c ax = setTargetPosition c (gotoSteps c ax)
      { ax with stopping := false, tickCount := 0, g := resetZero ax.g, moving := true } := by
  simp [startMotor, htype]

end

/-- The steps of a GOTO in the form of the statement (R234). -/
theorem gotoSteps_eq_statedGotoSteps (c : Config) (ax : AxisMotor) : gotoSteps c ax = statedGotoSteps c ax := by
  have hk : (c.kFast : Int) = (c.ustepSlow : Int) / c.ustepFast := Int.natCast_div _ _
  have hwhole : gotoDistance c ax =
      if ax.slewDir = .ccw then
        (if ax.target - ax.position ≤ 0 then ax.target - ax.position else ax.target - ax.position - c.rev)
      else (if 0 ≤ ax.target - ax.position then ax.target - ax.position else ax.target - ax.position + c.rev) := by
    unfold gotoDistance
    cases ax.slewDir <;> rfl
  rw [gotoSteps, hwhole, hk]
  rfl

/-- `J` with a mode set is gated, and its effect starts the motor (R160). -/
theorem exec_startMotion_of_mode {a : Axis} {s : State} (hs : (motor (motorOf a) s).slewSpeed ≠ .unset) :
    exec (.startMotion a) s = .next (whenStopped a (startMotor s.cfg) s) := by
  rw [exec, execStartMotion, if_neg hs]

/-- `J` on an axis at rest with a mode set, whole. -/
theorem exec_startMotion_of_still {a : Axis} {s : State} (hs : (motor (motorOf a) s).slewSpeed ≠ .unset)
    (hm : (motor (motorOf a) s).moving = false) :
    exec (.startMotion a) s = .next { setMotor (motorOf a) (startMotor s.cfg (motor (motorOf a) s)) s with
      tx := s.tx ++ [0x3D#8, 0x0D#8] } :=
  exec_gated_of_still (exec_startMotion_of_mode hs) hm

end Sys2Proof.Machine
end

section
/-! SUPPORT. What clears `moving`: of the operations of a motor only the long tick, and of the events only the long tick
of that motor and a reset (R27, R245). -/

namespace Sys2Proof.Machine

@[simp] theorem startMotor_moving (c : Config) (ax : AxisMotor) : (startMotor c ax).moving = true := by
  obtain ⟨tgt, pin, g, hframe⟩ := startMotor_frame c ax
  rw [hframe]

@[simp] theorem stopMotor_moving (c : Config) (ax : AxisMotor) : (stopMotor c ax).moving = ax.moving := by
  obtain ⟨pin, g, hframe, -, -⟩ := stopMotor_frame c ax
  rw [hframe]

@[simp] theorem tickMotor_moving (c : Config) (ax : AxisMotor) : (tickMotor c ax).moving = ax.moving := by
  rcases tickMotor_cases c ax with ⟨-, hstill⟩ | ⟨-, -, hcount⟩ | ⟨-, hstep⟩
  · rw [hstill]
  · rw [hcount]
  · obtain ⟨pin, g, hframe, -, -⟩ := tickStep_frame c ax
    rw [hstep, hframe]

/-- No command stops a moving axis: the stop of `K` leaves `moving` (R161, R236). -/
theorem MotorEffect.moving {c : Config} {i : Instr} {ax ax' : AxisMotor} (he : MotorEffect c i ax ax')
    (hm : ax.moving = true) : ax'.moving = true := by
  cases he with
  | none => exact hm
  | position => exact hm
  | mode => exact hm
  | target => exact hm
  | period => exact hm
  | start => exact startMotor_moving c ax
  | stop => exact (stopMotor_moving c ax).trans hm

section
variable {s t : State} {m : MotorId}

/-- A write of any motor that leaves a moving one moving. -/
theorem moving_setMotor {k : MotorId} {ax : AxisMotor} (hax : (motor k s).moving = true → ax.moving = true)
    (hm : (motor m s).moving = true) : (motor m (setMotor k ax s)).moving = true := by
  by_cases hk : m = k
  · subst hk
    rw [motor_setMotor_self]
    exact hax hm
  · rwa [motor_setMotor_of_ne hk]

theorem exec_moving {i : Instr} (h : exec i s = .next t) (hm : (motor m s).moving = true) :
    (motor m t).moving = true := by
  obtain ⟨r, ax, -, heffect, hmotor | ⟨a, v, -, -, hled⟩⟩ := exec_cases i s
  · obtain rfl := Host.Outcome.next.inj (hmotor.symm.trans h)
    rw [motor_send]
    exact moving_setMotor heffect.moving hm
  · obtain rfl := Host.Outcome.next.inj (hled.symm.trans h)
    cases m <;> exact hm

theorem finalize_moving (h : finalize s = .next t) (hm : (motor m s).moving = true) : (motor m t).moving = true := by
  rcases finalize_cases s with ⟨_, -, hdropped⟩ | ⟨i, -, hexec⟩
  · obtain rfl := Host.Outcome.next.inj (hdropped.symm.trans h)
    rwa [motor_clearFrame]
  · obtain ⟨u, hu, rfl⟩ := clearAfter_eq_next (hexec.symm.trans h)
    rw [motor_clearFrame]
    exact exec_moving hu hm

/-- The timestamp of a byte is no register of a motor. -/
@[simp] theorem motor_timestamp (m : MotorId) (s : State) (n : Nat) : motor m { s with lastRxMs := n } = motor m s := by
  cases m <;> rfl

theorem rxByte_moving {b : Byte} (h : rxByte b s = .next t) (hm : (motor m s).moving = true) :
    (motor m t).moving = true := by
  rcases rxByte_cases b s with ⟨-, hstart⟩ | ⟨-, -, hend⟩ | ⟨-, -, hstored⟩
  · obtain rfl := Host.Outcome.next.inj (hstart.symm.trans h)
    simpa using hm
  · exact finalize_moving (hend.symm.trans h) (by simpa using hm)
  · obtain rfl := Host.Outcome.next.inj (hstored.symm.trans h)
    simpa using hm

/-- The watchdog's stop is graceful: the axis still counts as moving (R270, R236). -/
@[simp] theorem pollTimeout_moving (m : MotorId) (s : State) :
    (motor m (pollTimeout s)).moving = (motor m s).moving := by
  unfold pollTimeout
  split_ifs
  · cases m <;> exact stopMotor_moving _ _
  · rfl

theorem tick_moving {k : MotorId} (h : tick k s = .next t) (hm : (motor m s).moving = true) :
    (motor m t).moving = true := by
  obtain ⟨-, rfl⟩ := (tick_eq_next_iff k s t).mp h
  exact moving_setMotor (tickMotor_moving _ _).trans hm

/-- Every event but the long tick of the axis and a reset leaves a moving axis moving. -/
theorem runEvent_moving {e : Event} (h : runEvent e s = .next t) (hlong : e ≠ .longTick m) (hreset : e ≠ .reset)
    (hm : (motor m s).moving = true) : (motor m t).moving = true := by
  cases e with
  | rxByte b => exact rxByte_moving h hm
  | pollTimeout =>
    obtain rfl := Host.Outcome.next.inj h
    rwa [pollTimeout_moving]
  | longTick k =>
    obtain rfl := Host.Outcome.next.inj h
    rwa [longTick, motor_setMotor_of_ne fun hk => hlong (congrArg Event.longTick hk.symm)]
  | tick k => exact tick_moving h hm
  | reset => exact absurd rfl hreset

end

end Sys2Proof.Machine
end

section
/-! SUPPORT. The tick in the terms of the statements: its period, its ratio, the step it takes and the revolutions of
wrap (R230, R231, R240, R242), and the condition of the long tick (R245). -/

namespace Sys2Proof.Machine

section
variable (c : Config) (ax : AxisMotor)

theorem useAccel_iff : useAccel ax = true ↔ ax.slewType = .goto ∨ ax.slewSpeed = .fast := by
  simp [useAccel]

theorem tickPeriod_eq :
    tickPeriod ax = if ax.slewType = .goto ∨ ax.slewSpeed = .fast then ax.g.pps else ax.stepPeriod := by
  simp only [tickPeriod, useAccel_iff]

theorem ratio_eq : ratio c ax = if ax.slewSpeed = .fast then c.ustepSlow / c.ustepFast else 1 := by
  unfold ratio
  cases ax.slewSpeed <;> rfl

/-- A step with the test of `useAccel` written out (R240, R230). -/
theorem tickStep_eq :
    tickStep c ax =
      { (if ax.slewType = .goto ∨ ax.slewSpeed = .fast then computeNewSpeed c (run { ax with tickCount := 0 })
          else run { ax with tickCount := 0 }) with
        position := wrapPosition c (ax.position + dirValue ax.g.dir * ratio c ax) } := by
  simp only [tickStep, useAccel_iff]

theorem isRunning_eq_false_iff : isRunning ax.g = false ↔ ax.g.speed = 0 ∧ ax.g.position = ax.g.target := by
  simp [isRunning]

theorem motionEnds_iff :
    motionEnds ax = true ↔
      (ax.stopping = true ∧ ax.slewType ≠ .goto ∧ ax.slewSpeed ≠ .fast) ∨
        (ax.g.speed = 0 ∧ ax.g.position = ax.g.target) := by
  simp only [motionEnds, Bool.or_eq_true, Bool.and_eq_true, Bool.not_eq_true', ← Bool.not_eq_true (useAccel ax),
    useAccel_iff, not_or, isRunning_eq_false_iff, ne_eq]

/-- Wrap moves by a whole number of revolutions (R242). -/
theorem rev_dvd_wrapPosition_sub (p : Int) : (c.rev : Int) ∣ wrapPosition c p - p := by
  unfold wrapPosition
  split_ifs <;> simp

/-- A tick of a motor moves the reference position by the ratio times its raw steps, modulo a revolution, and emits one
pulse for each (R251). -/
theorem tickMotor_position_follows_pulses :
    (c.rev : Int) ∣ ((tickMotor c ax).position - ax.position) -
        ratio c ax * ((tickMotor c ax).g.position - ax.g.position) ∧
      ((tickMotor c ax).pulses : Int) - ax.pulses = |(tickMotor c ax).g.position - ax.g.position| := by
  rcases tickMotor_cases c ax with ⟨-, hstill⟩ | ⟨-, -, hcount⟩ | ⟨-, hstep⟩
  · simp [hstill]
  · simp [hcount]
  · obtain ⟨pin, g, hframe, hpos, -⟩ := tickStep_frame c ax
    simp only [hstep, hframe, hpos, add_sub_cancel_left]
    constructor
    · rw [mul_comm (ratio c ax : Int), sub_sub]
      exact rev_dvd_wrapPosition_sub c _
    · simpa using (abs_dirValue_mul ax.g.dir 1).symm

end

section
variable {m : MotorId} {s : State}

/-- A tick that takes no step is the motor's tick, whatever the position. -/
theorem tick_of_no_step (h : tickSteps (motor m s) = false) :
    tick m s = .next (setMotor m (tickMotor s.cfg (motor m s)) s) :=
  (tick_eq_next_iff m s _).mpr ⟨fun hs => absurd (h.symm.trans hs) (by simp), rfl⟩

/-- A tick of a still axis changes nothing (R240). -/
theorem tick_of_still (hm : (motor m s).moving = false) : tick m s = .next s := by
  have hsteps : tickSteps (motor m s) = false := by simp [tickSteps, hm]
  rw [tick_of_no_step hsteps, tickMotor, if_neg (Bool.eq_false_iff.mp hsteps), if_neg (Bool.eq_false_iff.mp hm),
    setMotor_motor]

/-- A tick of a moving axis that takes no step counts (R240). -/
theorem tick_of_count (hm : (motor m s).moving = true) (hsteps : tickSteps (motor m s) = false) :
    tick m s = .next (setMotor m { motor m s with tickCount := (motor m s).tickCount + 1 } s) := by
  rw [tick_of_no_step hsteps, tickMotor, if_neg (Bool.eq_false_iff.mp hsteps), if_pos hm]

/-- A step that stays between the sentinels is taken (R240, R307). -/
theorem tick_of_step (hsteps : tickSteps (motor m s) = true)
    (hrange : positionInRange s.cfg ((motor m s).g.position + dirValue (motor m s).g.dir) = true) :
    tick m s = .next (setMotor m (tickStep s.cfg (motor m s)) s) := by
  rw [(tick_eq_next_iff m s _).mpr ⟨fun _ => hrange, rfl⟩, tickMotor, if_pos hsteps]

/-- A step onto a sentinel is refused (R307, U6). -/
theorem tick_of_sentinel (hsteps : tickSteps (motor m s) = true)
    (hrange : positionInRange s.cfg ((motor m s).g.position + dirValue (motor m s).g.dir) = false) :
    tick m s = .refused .positionRange :=
  if_pos ⟨hsteps, hrange⟩

end

end Sys2Proof.Machine
end

section
/-! The obligations of 46_axis_motor.md: starts and stops, the tick, the long tick, wrap and the microstep patterns. -/

namespace Sys2Proof.Machine

/-- Settles O24: each direction has its sentinel, which the generator at rest starts a ramp towards. -/
theorem startTrackingEffect : Obligations.StartTrackingEffect := by
  intro a s hc htype hmode hm hpos htgt _ hn
  rw [exec_startMotion_of_still hmode hm]
  by_cases hdir : (motor (motorOf a) s).slewDir = .ccw
  · rw [startMotor_of_tracking_ccw hc htype hdir hpos htgt hn, started, startedGen,
      towards_of_neg (configOk_genNegInf hc)]
    simp only [hdir, if_true]
    rfl
  · rw [startMotor_of_tracking_cw hc htype hdir hpos htgt hn, started, startedGen,
      towards_of_pos (configOk_genPosInf hc)]
    simp only [hdir, if_false]
    rfl

/-- Settles O25: the generator is zeroed first, so the step count is a new target exactly when it is not 0, and then its
sign is the direction of the ramp. -/
theorem startGotoEffect : Obligations.StartGotoEffect := by
  intro a s hc htype hmode hm
  rw [exec_startMotion_of_still hmode hm, startMotor_of_goto _ htype, gotoSteps_eq_statedGotoSteps]
  refine ⟨fun hzero => ?_, fun hsteps => ?_⟩
  · rw [setTargetPosition_of_eq _ _ hzero]
    rfl
  · rw [setTargetPosition_of_rest hc rfl rfl rfl hsteps, started, startedGen]
    rcases hsteps.lt_or_gt with hneg | hpos
    · simp only [towards_of_neg hneg, hneg.not_gt, if_false]
      rfl
    · simp only [towards_of_pos hpos, hpos, if_true]
      rfl

/-- Settles O27: the stop point is the position itself, at distance 0 between the sentinels, and there the generator
stops. -/
theorem stopOfSlowGeneratorIdlesIt : Obligations.StopOfSlowGeneratorIdlesIt := by
  intro c ax hc hsts htgt hlow hhigh
  have hgoal : ax.g.position + dirValue ax.g.dir * (stepsToStop c ax.g : Int) = ax.g.position := by simp [hsts]
  have hd : clampedDistanceToGo c { ax.g with target := ax.g.position } = 0 :=
    (clampedDistanceToGo_eq_zero_iff hc (g := { ax.g with target := ax.g.position }) hlow hhigh).mpr rfl
  rw [stopMotor, hgoal]
  exact (setTargetPosition_of_ne c { ax with stopping := true } htgt.symm).trans
    (computeNewSpeed_of_stop hd (hsts.trans_le zero_le_one))

/-- Settles O37: a step that waits changes nothing, and every event but the two leaves a moving axis moving. -/
theorem onlyLongTickEndsMotion : Obligations.OnlyLongTickEndsMotion := by
  intro s t m hstep hmoving hstill
  obtain ⟨-, ⟨-, rfl⟩ | ⟨a, rest, hi, hrun⟩⟩ := step_cases hstep
  · exact absurd (hmoving.symm.trans hstill) (by simp)
  · refine ⟨a, rest, hi, ?_⟩
    by_contra hother
    obtain ⟨hlong, hreset⟩ := not_or.mp hother
    have hkept := runEvent_moving hrun hlong hreset (m := m) (by simpa using hmoving)
    exact absurd (hkept.symm.trans hstill) (by simp)

/-- Settles O46: the window ends are the two bounds of wrap. -/
theorem wrapOneRevolution : Obligations.WrapOneRevolution := by
  intro c p hc
  have hrev : windowLow c ≤ windowHigh c := by
    simp only [windowLow, windowHigh]
    omega
  refine ⟨fun hhigh => if_pos hhigh, fun hlow => ?_, fun ⟨hlow, hhigh⟩ => ?_, inWindow_wrapPosition hc⟩
  · exact (if_neg (hlow.trans_le hrev).not_ge).trans (if_pos hlow)
  · exact (if_neg hhigh.not_ge).trans (if_neg hlow.not_gt)

/-- Settles O47: the levels of the six counts are the table, which R7 requires to be without duplicates. -/
theorem microstepPatterns : Obligations.MicrostepPatterns := by
  intro c hc
  have hnodup : (List.map (ustepLevels c.ustepPattern) [1, 2, 4, 8, 16, 32]).Nodup :=
    of_decide_eq_true (configOk_ustep hc)
  refine ⟨fun m k hm hk => List.inj_on_of_nodup_map hnodup hm hk, fun m hm => ?_⟩
  simp only [List.mem_cons, List.not_mem_nil, or_false, not_or] at hm
  obtain ⟨h1, h2, h4, h8, h16, h32⟩ := hm
  rw [ustepLevels, if_neg h1, if_neg h2, if_neg h4, if_neg h8, if_neg h16, if_neg h32]

/-- Settles O48: an axis that is not moving, or whose period is 0 or not reached, takes no step. -/
theorem tickWithoutStep : Obligations.TickWithoutStep := by
  intro m s period hperiod
  rw [← tickPeriod_eq] at hperiod
  subst hperiod
  refine ⟨tick_of_still, fun hm hwait => tick_of_count hm ?_⟩
  rw [← Bool.not_eq_true, tickSteps_iff]
  rintro ⟨-, hpos, hreached⟩
  omega

/-- Settles O49: the tick takes the step of the motor when the next raw position lies between the sentinels, and else is
refused. -/
theorem tickWithStep : Obligations.TickWithStep := by
  intro m s period hperiod hm hpos hreached ax sign k stepped ramped
  rw [← tickPeriod_eq] at hperiod
  subst hperiod
  have hsteps : tickSteps ax = true := (tickSteps_iff ax).mpr ⟨hm, hpos, hreached⟩
  have hsign : dirValue ax.g.dir = sign := dirValue_eq_ite _
  have hstepped : run { ax with tickCount := 0 } = stepped := runTakesOneStep _
  refine ⟨fun hlow hhigh => ?_, fun hout => ?_⟩
  · have hrange : positionInRange s.cfg (ax.g.position + dirValue ax.g.dir) = true := by
      rw [hsign]
      exact (positionInRange_iff s.cfg _).mpr ⟨hlow, hhigh⟩
    rw [tick_of_step hsteps hrange, tickStep_eq, ratio_eq, hsign, hstepped]
  · have hrange : positionInRange s.cfg (ax.g.position + dirValue ax.g.dir) = false := by
      rw [hsign, ← Bool.not_eq_true, positionInRange_iff]
      omega
    exact tick_of_sentinel hsteps hrange

/-- Settles O51: a tick that goes on is a tick of the motor. -/
theorem positionFollowsPulses : Obligations.PositionFollowsPulses := by
  intro m s t ht
  obtain ⟨-, rfl⟩ := (tick_eq_next_iff m s t).mp ht
  rw [motor_setMotor_self]
  exact tickMotor_position_follows_pulses s.cfg (motor m s)

/-- Settles O52: the statement's condition is that of the long tick. -/
theorem longTickEndsFinishedMotion : Obligations.LongTickEndsFinishedMotion := by
  intro m s ax
  rw [← motionEnds_iff]
  refine ⟨fun hends => ?_, fun hgoes => ?_⟩
  · exact congrArg (setMotor m · s) (if_pos hends)
  · rw [longTick, longTickMotor, if_neg hgoes, setMotor_motor]

end Sys2Proof.Machine
end

section
/-! SUPPORT. The digits of an encoded value one by one (R86), the fields of an encoded frame read back (R81, R91, R94,
R95, R125 to R127), and the range of every decoded field. -/

namespace Sys2Proof

/-! ## The digits of an encoded value -/

/-- Byte `j` of the value stands at digits `2j` and `2j+1`, high nibble first (R86). -/
theorem encodeBytes_getElem? {k j : Nat} (hj : j < k) (n : Nat) :
    (encodeBytes k n)[2 * j]? = some (hexdigit (n / 256 ^ j % 256 / 16)) ∧
      (encodeBytes k n)[2 * j + 1]? = some (hexdigit (n / 256 ^ j % 256 % 16)) := by
  induction k generalizing j n with
  | zero => exact absurd hj j.not_lt_zero
  | succ k ih =>
    cases j with
    | zero => simp [encodeBytes]
    | succ j =>
      have hbyte : n / 256 ^ (j + 1) = n / 256 / 256 ^ j := by rw [Nat.div_div_eq_div_mul, pow_succ']
      rw [hbyte]
      exact ih (Nat.lt_of_succ_lt_succ hj) (n / 256)

/-! ## The fields of an encoded frame -/

/-- A hex field is read from its own digits, whatever stands behind them. -/
theorem decodeHex_append (lower : Bool) {s : List Byte} {n : Nat} (h : n ≤ s.length) (rest : List Byte) :
    decodeHex lower (s ++ rest) n = decodeHex lower s n := by
  have digit : ∀ i < n, (s ++ rest).getD i 0 = s.getD i 0 := fun i hi =>
    List.getD_append s rest 0 i (hi.trans_le h)
  unfold decodeHex
  split <;> simp (disch := omega) only [digit]

/-- A representable value reads back from its digits, whatever stands behind them (R87). -/
theorem decodeHex_encodeHex_append (lower : Bool) (w : HexWidth) {v : Nat} (h : v < 16 ^ w.len) (rest : List Byte) :
    decodeHex lower (encodeHex v w ++ rest) w.len = v := by
  rw [decodeHex_append lower (encodeHex_length v w).ge]
  exact Machine.hexRoundTrip lower w v h

@[simp] theorem parseAxis_encodeAxis (a : Axis) : parseAxis (encodeAxis a) = a := by cases a <;> rfl

/-- A mode that is no NONE reads back from its digit (R94). -/
theorem parseMode_encodeMode {t : SlewType} {sp : SlewSpeed} (ht : t ≠ .unset) (hsp : sp ≠ .unset) :
    parseMode (encodeMode t sp) = some (t, sp) := by
  revert ht hsp
  cases t <;> cases sp <;> decide

/-- A direction that is no NONE reads back from its byte (R95). -/
theorem parseDir_encodeDir (lower : Bool) {d : SlewDir} (hd : d ≠ .unset) : parseDir lower (encodeDir d) = d := by
  revert hd lower
  cases d <;> decide

/-- The fields of a well-formed command, encoded, parse to the command, whatever the first two bytes are and whatever
stands behind the payload. -/
theorem parsePayload_encodePayload (lower : Bool) {i : Instr} (hwf : i.wf = true) (start op : Byte) (pad : List Byte) :
    parsePayload lower i.opcode (start :: op :: encodeAxis i.axis :: (encodePayload i ++ pad)) = .ok i := by
  cases i
  case setPosition a v | setGotoTarget a v | setGotoTargetIncrement a v | setBreakpointIncrement a v |
      setStepPeriod a v =>
    have hfield : decodeHex lower (encodeHex v .w6 ++ pad) 6 = v :=
      decodeHex_encodeHex_append lower .w6 (of_decide_eq_true hwf) pad
    simp [parsePayload, Instr.opcode, Instr.axis, encodePayload, hfield]
  case setPolarLEDBrightness a b =>
    have hfield : decodeHex lower (encodeHex b .w2 ++ pad) 2 = b :=
      decodeHex_encodeHex_append lower .w2 (of_decide_eq_true hwf) pad
    simp [parsePayload, Instr.opcode, Instr.axis, encodePayload, hfield]
  case setSwitch a d | setAutoguideSpeed a d =>
    have hdigit : d < 16 := of_decide_eq_true hwf
    simp [parsePayload, Instr.opcode, Instr.axis, encodePayload, decodeHex_one, hdigit]
  case setMotionMode a t sp d =>
    simp only [Instr.wf, Bool.and_eq_true, decide_eq_true_eq] at hwf
    obtain ⟨⟨ht, hsp⟩, hd⟩ := hwf
    simp [parsePayload, Instr.opcode, Instr.axis, encodePayload, parseMode_encodeMode ht hsp,
      parseDir_encodeDir lower hd]
  all_goals simp [parsePayload, Instr.opcode, Instr.axis]

/-! ## The frame of a command -/

/-- The fields of every command fill its default length (R81, R92). -/
theorem encodePayload_length (i : Instr) : 3 + (encodePayload i).length = i.opcode.defaultLen := by
  cases i with
  | setPosition a v => exact Laws.PayloadLength.setPosition a v
  | initializationDone a => exact Laws.PayloadLength.initializationDone a
  | setMotionMode a t sp d => exact Laws.PayloadLength.setMotionMode a t sp d
  | setGotoTarget a v => exact Laws.PayloadLength.setGotoTarget a v
  | setGotoTargetIncrement a v => exact Laws.PayloadLength.setGotoTargetIncrement a v
  | setBreakpointIncrement a v => exact Laws.PayloadLength.setBreakpointIncrement a v
  | setStepPeriod a v => exact Laws.PayloadLength.setStepPeriod a v
  | startMotion a => exact Laws.PayloadLength.startMotion a
  | stopMotion a => exact Laws.PayloadLength.stopMotion a
  | instantStop a => exact Laws.PayloadLength.instantStop a
  | setSwitch a d => exact Laws.PayloadLength.setSwitch a d
  | setAutoguideSpeed a d => exact Laws.PayloadLength.setAutoguideSpeed a d
  | setPolarLEDBrightness a b => exact Laws.PayloadLength.setPolarLEDBrightness a b
  | getCountsPerRev a => exact Laws.PayloadLength.getCountsPerRev a
  | getTimerFreq a => exact Laws.PayloadLength.getTimerFreq a
  | getGotoTarget a => exact Laws.PayloadLength.getGotoTarget a
  | getStepPeriod a => exact Laws.PayloadLength.getStepPeriod a
  | getPosition a => exact Laws.PayloadLength.getPosition a
  | getStatus a => exact Laws.PayloadLength.getStatus a
  | getHighSpeedRatio a => exact Laws.PayloadLength.getHighSpeedRatio a
  | getSiderealPeriod a => exact Laws.PayloadLength.getSiderealPeriod a
  | getAxisPosition a => exact Laws.PayloadLength.getAxisPosition a
  | getVersion a => exact Laws.PayloadLength.getVersion a
  | getPECPeriod a => exact Laws.PayloadLength.getPECPeriod a
  | getExtendedStatus a => exact Laws.PayloadLength.getExtendedStatus a

/-- What stands behind the payload of a frame: `'0'` up to the required length (log 15). -/
def framePad (c : Config) (i : Instr) : List Byte :=
  List.replicate (requiredLen c i.opcode - (3 + (encodePayload i).length)) chZero

theorem encode_eq_cons (c : Config) (i : Instr) :
    encode c i = chColon :: i.opcode.byte :: encodeAxis i.axis :: (encodePayload i ++ framePad c i) := rfl

/-- A frame has the required length: the fields never exceed it in an admitted configuration (log 8). -/
theorem encode_length {c : Config} (hc : Machine.configOk c = true) (i : Instr) :
    (encode c i).length = requiredLen c i.opcode := by
  have hfields := encodePayload_length i
  have hfit := (Machine.configOk_reqLen hc i.opcode).1
  simp only [encode_eq_cons, framePad, List.length_cons, List.length_append, List.length_replicate]
  omega

/-- The frame of a well-formed command passes the common checks, and its fields are the command's. -/
theorem decode_encode {c : Config} (hc : Machine.configOk c = true) {i : Instr} (hwf : i.wf = true) :
    decode c (encode c i) = .ok i := by
  have hlen := encode_length hc i
  rw [encode_eq_cons] at hlen ⊢
  have hop : identify (chColon :: i.opcode.byte :: encodeAxis i.axis :: (encodePayload i ++ framePad c i)) =
      some i.opcode := (identify_of_le (by simp)).trans (opcodeOfByte_byte i.opcode)
  rw [decode, hop]
  exact (parse_of_checks hlen rfl rfl (by simp)).trans (parsePayload_encodePayload _ hwf _ _ _)

/-! ## The range of every decoded field -/

/-- Parsed fields are in their ranges: a digit is a nibble, six carry 24 bits, and a mode digit and a direction byte
name no NONE (R125 to R127). -/
theorem parsePayload_wf {lower : Bool} {op : Opcode} {buf : List Byte} {i : Instr}
    (h : parsePayload lower op buf = .ok i) : i.wf = true := by
  cases i
  case setPosition a v | setGotoTarget a v | setGotoTargetIncrement a v | setBreakpointIncrement a v |
      setStepPeriod a v =>
    have hv : v < 0x1000000 := (parsePayload_hex6 (a := a) h (by simp)).trans_lt (decodeHex_six_lt lower _)
    exact decide_eq_true hv
  case setPolarLEDBrightness a b =>
    have hb : b < 256 := (parsePayload_hex2 h).trans_lt (decodeHex_two_lt lower _)
    exact decide_eq_true hb
  case setSwitch a d | setAutoguideSpeed a d =>
    have hd : d < 16 := (parsePayload_digit (a := a) h (by simp)).trans_lt (hexDigitToValue_lt lower _)
    exact decide_eq_true hd
  case setMotionMode a t sp d =>
    obtain ⟨hmode, rfl⟩ := parsePayload_mode h
    obtain ⟨ht, hsp⟩ := parseMode_set hmode
    simp [Instr.wf, ht, hsp, parseDir_set]
  all_goals rfl

end Sys2Proof
end

section
/-! The obligations of 30_encoding.md and 40_framer.md on the encoder and on the range of what is decoded. -/

namespace Sys2Proof.Machine

/-- Settles O4: the frame has the required length, and the fields read back one by one. -/
theorem decodeOfEncode : Obligations.DecodeOfEncode :=
  fun _ i hc hwf => ⟨decode_encode hc hwf, encode_length hc i⟩

/-- Settles O2: the digits are those of the reduced value's bytes. -/
theorem encodedDigitOrder : Obligations.EncodedDigitOrder := by
  refine fun v w => ⟨encodeHex_length v w, fun k hk => encodeBytes_getElem? ?_ _⟩
  cases w <;> simp only [HexWidth.len] at hk ⊢ <;> omega

/-- Settles O8: a decoded frame has parsed fields, and these are in their ranges. -/
theorem decodedIsWellFormed : Obligations.DecodedIsWellFormed := by
  intro c buf i h
  obtain ⟨-, -, -, -, hfields⟩ := parse_ok (decode_ok h).2.2
  exact parsePayload_wf hfields

end Sys2Proof.Machine
end

section
/-! SUPPORT. The end of a frame: which frames decode, and what a carriage return does with one that does and with one
that does not (R97, R120, R121). -/

namespace Sys2Proof

/-- What a decoded frame has passed: the byte at index 1 is the variant's, the length is the required one, the start
marker stands at index 0, and `G` has a mode digit (R97, R124). -/
theorem decode_ok_checks {c : Config} {buf : List Byte} {i : Instr} (h : decode c buf = .ok i) :
    i.opcode.byte = buf.getD 1 0 ∧ buf.length = requiredLen c i.opcode ∧ buf.getD 0 0 = chColon ∧
      (i.opcode = .setMotionMode → buf.getD 3 0 ∈ [0x30#8, 0x31#8, 0x32#8, 0x33#8]) := by
  obtain ⟨-, -, hparse⟩ := decode_ok h
  obtain ⟨hlen, hstart, hop, -, hfields⟩ := parse_ok hparse
  exact ⟨hop.symm, hlen, hstart, exists_parsePayload_iff.mp ⟨i, hfields⟩⟩

end Sys2Proof

namespace Sys2Proof.Machine

section
variable {s t : State} {i : Instr}

/-- A carriage return behind three bytes or more ends the frame (R120). -/
theorem rxByte_cr (h : 2 < s.rxLen) : rxByte chCR s = finalize { s with lastRxMs := s.nowMs } := by
  have hstart : chCR ≠ chColon := by decide
  rw [rxByte, if_neg hstart]
  exact if_pos ⟨rfl, h⟩

/-- A frame that decodes is executed, and the buffer cleared (R121). -/
theorem finalize_of_decode (hd : decode s.cfg (heldFrame s) = .ok i) (he : exec i s = .next t) :
    finalize s = .next (clearFrame t) := by
  rw [finalize, hd]
  exact congrArg clearAfter he

/-- A frame that decodes to no command is dropped, and the buffer cleared (R97, R262). -/
theorem finalize_of_reject (h : ∀ i, decode s.cfg (heldFrame s) ≠ .ok i) : finalize s = .next (clearFrame s) := by
  rcases finalize_cases s with ⟨_, -, hdropped⟩ | ⟨i, hd, -⟩
  · exact hdropped
  · exact absurd hd (h i)

end

end Sys2Proof.Machine
end

section
/-! The obligations of 40_framer.md and 60_exceptions.md on the end of a frame. -/

namespace Sys2Proof.Machine

/-- Settles O13: the carriage return ends the frame, which the arrival and the timestamp leave as it was held. -/
theorem stepRunsDecodedCommand : Obligations.StepRunsDecodedCommand := by
  intro s a rest i t hc hi ha hlen hd he
  rw [step_of_event hc hi, ha]
  exact (rxByte_cr (s := arrive a rest s) hlen).trans (finalize_of_decode hd he)

/-- Settles O12: each of the four faults contradicts a check that a decoded frame has passed. -/
theorem badFrameIsSilent : Obligations.BadFrameIsSilent := by
  intro s hlen buf hbad
  rw [show (0x0D#8 : Byte) = chCR from rfl, rxByte_cr hlen]
  refine finalize_of_reject fun i (hd : decode s.cfg buf = .ok i) => ?_
  obtain ⟨hop, hreq, hstart, hmode⟩ := decode_ok_checks hd
  rw [heldFrame_length] at hreq
  rcases hbad with hunknown | ⟨op, hop', hfault⟩
  · exact hunknown i.opcode hop
  · obtain rfl : op = i.opcode := opcode_byte_injective (hop'.trans hop.symm)
    rcases hfault with hlength | hmarker | ⟨hG, hdigit⟩
    · exact hlength hreq
    · exact hmarker hstart
    · exact hdigit (hmode hG)

end Sys2Proof.Machine
end

section
/-! SUPPORT. The bytes of a frame arriving one after another: the start marker empties the buffer, and every byte behind
it is stored, so that the buffer holds the frame when the carriage return comes (R80, R120, R124). -/

namespace Sys2Proof.Machine

/-! ## A stored string -/

theorem memLoad_append_singleton (m : Memory) (i : Nat) (bs : List Byte) (b : Byte) :
    memLoad m i (bs ++ [b]) = memWrite (memLoad m i bs) (i + bs.length) b := by
  induction bs generalizing m i with
  | nil => rfl
  | cons c bs ih =>
    rw [List.cons_append, memLoad, ih, memLoad, List.length_cons, Nat.succ_add_eq_add_succ]

/-- Below its first index a stored string changes nothing. -/
theorem memRead_memLoad_of_lt {i j : Nat} (h : j < i) (m : Memory) (bs : List Byte) :
    memRead (memLoad m i bs) j = memRead m j := by
  induction bs generalizing m i with
  | nil => rfl
  | cons b bs ih => rw [memLoad, ih (h.trans i.lt_succ_self), memRead_memWrite_of_ne h.ne]

/-- A stored string is read back byte by byte. -/
theorem memRead_memLoad {bs : List Byte} {k : Nat} (h : k < bs.length) (m : Memory) (i : Nat) :
    memRead (memLoad m i bs) (i + k) = bs[k] := by
  induction bs generalizing m i k with
  | nil => exact absurd h k.not_lt_zero
  | cons b bs ih =>
    cases k with
    | zero => exact (memRead_memLoad_of_lt i.lt_succ_self _ bs).trans (memRead_memWrite_self m i b)
    | succ k =>
      rw [← Nat.succ_add_eq_add_succ]
      exact ih (Nat.lt_of_succ_lt_succ h) _ _

/-! ## SSC while a frame arrives -/

/-- A byte that can stand inside a frame: it neither starts one nor ends one (R80, R120). -/
abbrev Interior (b : Byte) : Prop := b ≠ chColon ∧ b ≠ chCR

/-- SSC that has just stored the string `bs` from index 0 on, with the events `rest` to come. -/
def holding (bs : List Byte) (rest : List Arrival) (s : State) : State :=
  { s with inputs := rest, rxBuf := memLoad s.rxBuf 0 bs, rxLen := bs.length, lastRxMs := s.nowMs }

/-- The arrival of a byte with no time before it. -/
def byteNow (b : Byte) : Arrival := ⟨0, .rxByte b⟩

theorem heldFrame_holding (bs : List Byte) (rest : List Arrival) (s : State) : heldFrame (holding bs rest s) = bs := by
  refine List.ext_getElem (heldFrame_length _) fun k _ hk => ?_
  have hread := memRead_memLoad hk s.rxBuf 0
  rw [Nat.zero_add] at hread
  simpa [heldFrame, rxRead, holding] using hread

section
variable {s : State} {bs : List Byte} {b : Byte}

/-- The start marker is the first byte held, whatever was held before (R120, D4). -/
theorem step_of_start (hc : configOk s.cfg = true) (rest : List Arrival) :
    step { s with inputs := byteNow chColon :: rest } = .next (holding [chColon] rest s) := by
  have hcap := configOk_rxBufCap hc
  rw [step_of_event (s := { s with inputs := byteNow chColon :: rest }) hc rfl]
  exact rxByte_colon (s := arrive (byteNow chColon) rest s) (by simp only [arrive_cfg]; omega)

/-- An interior byte is held behind the others, while there is room (R120, R61). -/
theorem step_holding (hc : configOk s.cfg = true) (hb : Interior b) (hroom : bs.length < s.cfg.rxBufCap)
    (rest : List Arrival) :
    step (holding bs (byteNow b :: rest) s) = .next (holding (bs ++ [b]) rest s) := by
  rw [step_of_event (s := holding bs (byteNow b :: rest) s) hc rfl]
  obtain ⟨hstart, hcr⟩ := hb
  refine (rxByte_of_append hstart fun hend => hcr hend.1).trans ?_
  rw [rxAppend_of_lt hroom]
  simp [holding, memLoad_append_singleton, arrive, byteNow]

/-- A whole string of interior bytes is held, in as many steps. -/
theorem run_holding {more : List Byte} (hc : configOk s.cfg = true) (hmore : ∀ b ∈ more, Interior b)
    (hroom : (bs ++ more).length ≤ s.cfg.rxBufCap) (rest : List Arrival) (k : Nat) :
    core.run (more.length + k) (holding bs (more.map byteNow ++ rest) s) =
      core.run k (holding (bs ++ more) rest s) := by
  induction more generalizing bs with
  | nil => simp
  | cons b more ih =>
    obtain ⟨hb, hmore⟩ := List.forall_mem_cons.mp hmore
    rw [List.length_append, List.length_cons] at hroom
    have hstep := step_holding hc hb (bs := bs) (by omega) (more.map byteNow ++ rest)
    have htail := ih hmore (bs := bs ++ [b]) (by simp; omega)
    calc core.run ((b :: more).length + k) (holding bs ((b :: more).map byteNow ++ rest) s)
        = core.run (more.length + k + 1) (holding bs (byteNow b :: (more.map byteNow ++ rest)) s) := by
          rw [List.length_cons, Nat.succ_add]; rfl
      _ = core.run (more.length + k) (holding (bs ++ [b]) (more.map byteNow ++ rest) s) := run_succ hstep _
      _ = core.run k (holding (bs ++ b :: more) rest s) := by rw [htail, List.append_assoc]; rfl

/-- A start marker and interior bytes behind it are held as they came. -/
theorem run_frame {more : List Byte} (hc : configOk s.cfg = true) (hmore : ∀ b ∈ more, Interior b)
    (hroom : (chColon :: more).length ≤ s.cfg.rxBufCap) (rest : List Arrival) (k : Nat) :
    core.run ((chColon :: more).length + k) { s with inputs := (chColon :: more).map byteNow ++ rest } =
      core.run k (holding (chColon :: more) rest s) := by
  rw [List.length_cons, Nat.succ_add]
  exact (run_succ (step_of_start hc (more.map byteNow ++ rest)) _).trans
    (run_holding (bs := [chColon]) hc hmore hroom rest k)

end

/-! ## The bytes of a frame -/

theorem hexdigit_interior {v : Nat} (h : v < 16) : Interior (hexdigit v) := by
  revert v
  decide

theorem encodeHex_interior {v : Int} {w : HexWidth} {b : Byte} (hb : b ∈ encodeHex v w) : Interior b := by
  obtain ⟨n, hn, rfl⟩ := mem_encodeBytes hb
  exact hexdigit_interior hn

theorem opcode_byte_interior (op : Opcode) : Interior op.byte := by cases op <;> decide

theorem encodeAxis_interior (a : Axis) : Interior (encodeAxis a) := by cases a <;> decide

theorem encodePayload_interior {i : Instr} (hwf : i.wf = true) {b : Byte} (hb : b ∈ encodePayload i) :
    Interior b := by
  cases i
  case setPosition a v | setGotoTarget a v | setGotoTargetIncrement a v | setBreakpointIncrement a v |
      setStepPeriod a v | setPolarLEDBrightness a v => exact encodeHex_interior hb
  case setSwitch a d | setAutoguideSpeed a d =>
    obtain rfl := List.mem_singleton.mp hb
    exact hexdigit_interior (of_decide_eq_true hwf)
  case setMotionMode a t sp d =>
    simp only [encodePayload, List.mem_cons, List.not_mem_nil, or_false] at hb
    rcases hb with rfl | rfl
    · cases t <;> cases sp <;> decide
    · cases d <;> decide
  all_goals exact absurd hb List.not_mem_nil

/-- Every byte of a well-formed command's frame but its start marker is an interior byte (R80, R81). -/
theorem encode_tail_interior (c : Config) {i : Instr} (hwf : i.wf = true) : ∀ b ∈ (encode c i).tail, Interior b := by
  intro b hb
  simp only [encode_eq_cons, List.tail_cons, List.mem_cons, List.mem_append] at hb
  rcases hb with rfl | rfl | hpayload | hpad
  · exact opcode_byte_interior i.opcode
  · exact encodeAxis_interior i.axis
  · exact encodePayload_interior hwf hpayload
  · rw [List.eq_of_mem_replicate hpad]
    decide

end Sys2Proof.Machine
end

section
/-! The obligation of 40_framer.md on whole frames. -/

namespace Sys2Proof.Machine

/-- Settles O15: the start marker and then every byte behind it is held, which leaves the whole frame for the carriage
return to execute. -/
theorem wireCommandExecutes : Obligations.WireCommandExecutes := by
  intro s i hc hwf
  obtain ⟨t, -, hexec, -, -⟩ := exec_sends_one_reply i (holding (encode s.cfg i) [] s)
  refine ⟨_, t, hexec, ?_⟩
  have hlen := encode_length hc i
  have hfields := encodePayload_length i
  obtain ⟨hdefault, hcap⟩ := configOk_reqLen hc i.opcode
  have hheld : core.run ((encode s.cfg i).length + 1)
      { s with inputs := (encode s.cfg i).map byteNow ++ [byteNow chCR] } =
        core.run 1 (holding (encode s.cfg i) [byteNow chCR] s) :=
    run_frame hc (encode_tail_interior s.cfg hwf) (hlen.trans_lt hcap).le _ _
  have hcr : step (holding (encode s.cfg i) [byteNow chCR] s) = .next { t with rxLen := 0 } := by
    refine stepRunsDecodedCommand _ _ _ i t hc rfl rfl (show 2 < (encode s.cfg i).length by omega) ?_ hexec
    rw [heldFrame_holding]
    exact decode_encode hc hwf
  rw [List.map_append]
  exact hheld.trans (run_succ hcr 0)

end Sys2Proof.Machine
end

section
/-! SUPPORT. Refused commands as whole next states (R151, R160, R263), and the watchdog in each of its two cases
(R270). -/

namespace Sys2Proof.Machine

/-! ## Refused commands -/

/-- The commands that are gated by "motor not moving": E, G, S and H, and `J` once a mode is set (R151, R160). -/
theorem exec_gated {i : Instr} {s : State}
    (h : i.opcode ∈ [.setPosition, .setMotionMode, .setGotoTarget, .setGotoTargetIncrement] ∨
      (i.opcode = .startMotion ∧ (motor (motorOf i.axis) s).slewSpeed ≠ .unset)) :
    ∃ f, exec i s = .next (whenStopped i.axis f s) := by
  cases i
  case setPosition a v => exact ⟨_, exec_setPosition a v s⟩
  case setMotionMode a t sp d => exact ⟨_, exec_setMotionMode a t sp d s⟩
  case setGotoTarget a v => exact ⟨_, exec_setGotoTarget a v s⟩
  case setGotoTargetIncrement a v => exact ⟨_, exec_setGotoTargetIncrement a v s⟩
  case startMotion a =>
    obtain ⟨-, hmode⟩ := h.resolve_left (show Opcode.startMotion ∉ _ by decide)
    exact ⟨_, exec_startMotion_of_mode hmode⟩
  all_goals simp [Instr.opcode] at h

/-- `J` before any mode answers `!4` and does nothing else (R160, D38). -/
theorem exec_startMotion_of_no_mode {a : Axis} {s : State} (h : (motor (motorOf a) s).slewSpeed = .unset) :
    exec (.startMotion a) s = .next { s with tx := s.tx ++ [0x21#8, 0x34#8, 0x0D#8] } := by
  rw [exec, execStartMotion, if_pos h]
  rfl

/-! ## The watchdog -/

section
variable {s : State}

theorem lineSilent_iff : lineSilent s = true ↔ s.lastRxMs + s.cfg.serialTimeoutMs < s.nowMs := by
  rw [lineSilent, decide_eq_true_iff]
  omega

theorem pollTimeout_of_heard (h : s.nowMs ≤ s.lastRxMs + s.cfg.serialTimeoutMs) : pollTimeout s = s :=
  if_neg fun hsilent => h.not_gt (lineSilent_iff.mp hsilent)

theorem pollTimeout_of_silent (h : s.lastRxMs + s.cfg.serialTimeoutMs < s.nowMs) :
    pollTimeout s = { s with ra := stopMotor s.cfg s.ra, dec := stopMotor s.cfg s.dec } :=
  if_pos (lineSilent_iff.mpr h)

/-- The watchdog's stop is that of `K`, on either axis (R270, R236). -/
theorem motor_pollTimeout_of_silent (h : s.lastRxMs + s.cfg.serialTimeoutMs < s.nowMs) (m : MotorId) :
    motor m (pollTimeout s) = stopMotor s.cfg (motor m s) := by
  rw [pollTimeout_of_silent h]
  cases m <;> rfl

end

end Sys2Proof.Machine
end

section
/-! The obligations of 60_exceptions.md: refused commands, the reach of a command, and the watchdog. -/

namespace Sys2Proof.Machine

/-- Settles O23: a gated command of a moving axis and `J` without a mode are their error replies alone. -/
theorem preconditionErrorsHaveNoEffect : Obligations.PreconditionErrorsHaveNoEffect := by
  refine fun i s => ⟨fun hm hgated => ?_, fun hmode hJ => ?_⟩
  · obtain ⟨f, hf⟩ := exec_gated hgated
    exact exec_gated_of_moving hf hm
  · cases i
    case startMotion a => exact exec_startMotion_of_no_mode hmode
    all_goals exact Opcode.noConfusion hJ

/-- Settles O34: a command writes its own motor or, `V` alone, the LED, and sends. -/
theorem commandIsLocal : Obligations.CommandIsLocal := by
  intro i s t h
  obtain ⟨r, ax, -, -, hmotor | ⟨a, v, hV, -, hled⟩⟩ := exec_cases i s
  · obtain rfl := Host.Outcome.next.inj (hmotor.symm.trans h)
    refine ⟨fun m hm => ?_, by simp, by simp [rxRead], by simp⟩
    rw [motor_send, motor_setMotor_of_ne hm]
  · obtain rfl := Host.Outcome.next.inj (hled.symm.trans h)
    refine ⟨fun m _ => ?_, fun hne => absurd (congrArg Instr.opcode hV) hne, fun k => rfl, by simp⟩
    cases m <;> rfl

/-- Settles O54: beyond the timeout both axes get `stopMotor`, which is the statement's stop, and up to it the state
stays. -/
theorem watchdogStopsBothAxes : Obligations.WatchdogStopsBothAxes := by
  refine fun s => ⟨pollTimeout_of_heard, fun hsilent => ⟨?_, fun m => ?_⟩⟩
  · rw [statedStop_eq_stopMotor, statedStop_eq_stopMotor]
    exact pollTimeout_of_silent hsilent
  · rw [motor_pollTimeout_of_silent hsilent, ← dirValue_eq_ite]
    exact stopMotor_frame _ _

/-- Settles O55: an axis at rest has its generator at zero and idle, where a stop changes no target. -/
theorem watchdogOnIdleAxis : Obligations.WatchdogOnIdleAxis := by
  intro m s hinv hm hsilent
  obtain ⟨hpos, htgt, hspeed⟩ := hinv.still_idle hm
  rw [motor_pollTimeout_of_silent hsilent, stopMotor_of_idle s.cfg hpos htgt hspeed]

end Sys2Proof.Machine
end

section
/-! SUPPORT. What keeps the mode and the target of a moving axis: every operation of its motor but a start, which a
moving axis refuses, and every event but a reset (R310); and which events go on in every state (60_exceptions.md sections
1, 2). -/

namespace Sys2Proof.Machine

/-! ## What a byte does to a motor -/

section
variable {s t : State}

/-- What the command did to its motor is a `MotorEffect`, and the other motor stays. -/
theorem exec_motorEffect {i : Instr} (h : exec i s = .next t) (m : MotorId) :
    MotorEffect s.cfg i (motor m s) (motor m t) := by
  obtain ⟨r, ax, -, heffect, hmotor | ⟨a, v, -, -, hled⟩⟩ := exec_cases i s
  · obtain rfl := Host.Outcome.next.inj (hmotor.symm.trans h)
    rw [motor_send]
    by_cases hm : m = motorOf i.axis
    · subst hm
      rwa [motor_setMotor_self]
    · rw [motor_setMotor_of_ne hm]
      exact .none
  · obtain rfl := Host.Outcome.next.inj (hled.symm.trans h)
    cases m <;> exact .none

/-- What the end of a frame did to a motor is that of some command, if anything. -/
theorem finalize_motor (h : finalize s = .next t) (m : MotorId) :
    motor m t = motor m s ∨ ∃ i, MotorEffect s.cfg i (motor m s) (motor m t) := by
  rcases finalize_cases s with ⟨_, -, hdropped⟩ | ⟨i, -, hexec⟩
  · obtain rfl := Host.Outcome.next.inj (hdropped.symm.trans h)
    exact .inl (motor_clearFrame m s)
  · obtain ⟨u, hu, rfl⟩ := clearAfter_eq_next (hexec.symm.trans h)
    rw [motor_clearFrame]
    exact .inr ⟨i, exec_motorEffect hu m⟩

theorem rxByte_motor {b : Byte} (h : rxByte b s = .next t) (m : MotorId) :
    motor m t = motor m s ∨ ∃ i, MotorEffect s.cfg i (motor m s) (motor m t) := by
  rcases rxByte_cases b s with ⟨-, hstart⟩ | ⟨-, -, hend⟩ | ⟨-, -, hstored⟩
  · obtain rfl := Host.Outcome.next.inj (hstart.symm.trans h)
    simp
  · simpa using finalize_motor (hend.symm.trans h) m
  · obtain rfl := Host.Outcome.next.inj (hstored.symm.trans h)
    simp

end

/-! ## The mode of a motion -/

/-- The registers that describe the motion of an axis, and the pins that show its speed (R26, R28, R142). -/
def motionMode (ax : AxisMotor) : SlewType × SlewSpeed × SlewDir × Int × MsPins :=
  (ax.slewType, ax.slewSpeed, ax.slewDir, ax.target, ax.msPin)

@[simp] theorem stopMotor_motionMode (c : Config) (ax : AxisMotor) : motionMode (stopMotor c ax) = motionMode ax := by
  obtain ⟨pin, g, hframe, -, -⟩ := stopMotor_frame c ax
  rw [hframe]
  rfl

@[simp] theorem tickMotor_motionMode (c : Config) (ax : AxisMotor) : motionMode (tickMotor c ax) = motionMode ax := by
  rcases tickMotor_cases c ax with ⟨-, hstill⟩ | ⟨-, -, hcount⟩ | ⟨-, hstep⟩
  · rw [hstill]
  · rw [hcount]
    rfl
  · obtain ⟨pin, g, hframe, -, -⟩ := tickStep_frame c ax
    rw [hstep, hframe]
    rfl

@[simp] theorem longTickMotor_motionMode (ax : AxisMotor) : motionMode (longTickMotor ax) = motionMode ax := by
  rcases longTickMotor_cases ax with ⟨-, hends⟩ | ⟨-, hgoes⟩
  · rw [hends]
    rfl
  · rw [hgoes]

/-- The commands that write the mode or the target, and `J`, have no effect on a moving axis (R151, R160). -/
theorem MotorEffect.motionMode {c : Config} {i : Instr} {ax ax' : AxisMotor} (he : MotorEffect c i ax ax')
    (hm : ax.moving = true) : motionMode ax' = motionMode ax := by
  cases he with
  | none => rfl
  | period => rfl
  | stop => exact stopMotor_motionMode c ax
  | position _ hstill | mode _ hstill | target _ hstill | start _ hstill =>
    exact absurd (hm.symm.trans hstill) (by simp)

section
variable {s t : State} {m : MotorId}

/-- A motor written with the mode it had keeps its mode, and so does the other motor. -/
theorem motionMode_setMotor {k : MotorId} {ax : AxisMotor} (hax : motionMode ax = motionMode (motor k s)) :
    motionMode (motor m (setMotor k ax s)) = motionMode (motor m s) := by
  by_cases hk : m = k
  · subst hk
    rw [motor_setMotor_self, hax]
  · rw [motor_setMotor_of_ne hk]

@[simp] theorem pollTimeout_motionMode (m : MotorId) (s : State) :
    motionMode (motor m (pollTimeout s)) = motionMode (motor m s) := by
  rcases le_or_gt s.nowMs (s.lastRxMs + s.cfg.serialTimeoutMs) with hheard | hsilent
  · rw [pollTimeout_of_heard hheard]
  · rw [motor_pollTimeout_of_silent hsilent, stopMotor_motionMode]

/-- Every event but a reset keeps the mode and the target of a moving axis. -/
theorem runEvent_motionMode {e : Event} (h : runEvent e s = .next t) (hreset : e ≠ .reset)
    (hm : (motor m s).moving = true) : motionMode (motor m t) = motionMode (motor m s) := by
  cases e with
  | rxByte b =>
    rcases rxByte_motor h m with hsame | ⟨i, heffect⟩
    · rw [hsame]
    · exact heffect.motionMode hm
  | pollTimeout =>
    obtain rfl := Host.Outcome.next.inj h
    exact pollTimeout_motionMode m s
  | longTick k =>
    obtain rfl := Host.Outcome.next.inj h
    exact motionMode_setMotor (longTickMotor_motionMode _)
  | tick k =>
    obtain ⟨-, rfl⟩ := (tick_eq_next_iff k s t).mp h
    exact motionMode_setMotor (tickMotor_motionMode _ _)
  | reset => exact absurd rfl hreset

/-! ## Events that go on -/

theorem goesOn_next (t : State) : GoesOn (.next t) := ⟨t, rfl⟩

/-- The end of a frame goes on: a dropped frame stops nothing, and no command stops (R121, R262). -/
theorem finalize_goesOn (s : State) : GoesOn (finalize s) := by
  rcases finalize_cases s with ⟨_, -, hdropped⟩ | ⟨i, hd, -⟩
  · exact ⟨_, hdropped⟩
  · obtain ⟨t, -, hexec, -, -⟩ := exec_sends_one_reply i s
    exact ⟨_, finalize_of_decode hd hexec⟩

theorem rxByte_goesOn (b : Byte) (s : State) : GoesOn (rxByte b s) := by
  rcases rxByte_cases b s with ⟨-, hstart⟩ | ⟨-, -, hend⟩ | ⟨-, -, hstored⟩
  · exact ⟨_, hstart⟩
  · exact hend ▸ finalize_goesOn _
  · exact ⟨_, hstored⟩

/-- One raw step from a position that is not next to a sentinel stays between the sentinels (R307). -/
theorem tick_goesOn (hlow : s.cfg.genNegInf + 1 < (motor m s).g.position)
    (hhigh : (motor m s).g.position + 1 < s.cfg.genPosInf) : GoesOn (tick m s) := by
  refine ⟨_, (tick_eq_next_iff m s _).mpr ⟨fun _ => (positionInRange_iff _ _).mpr ?_, rfl⟩⟩
  rw [dirValue_eq_ite]
  split_ifs <;> omega

/-- Every event goes on but a tick next to a sentinel. -/
theorem runEvent_goesOn {e : Event} (htick : ∀ m, e = .tick m →
    s.cfg.genNegInf + 1 < (motor m s).g.position ∧ (motor m s).g.position + 1 < s.cfg.genPosInf) :
    GoesOn (runEvent e s) := by
  cases e with
  | rxByte b => exact rxByte_goesOn b s
  | pollTimeout => exact goesOn_next _
  | longTick m => exact goesOn_next _
  | tick m =>
    obtain ⟨hlow, hhigh⟩ := htick m rfl
    exact tick_goesOn hlow hhigh
  | reset => exact goesOn_next _

end

end Sys2Proof.Machine
end

section
/-! The obligations of 70_reset_and_hazards.md and 60_exceptions.md on every step. -/

namespace Sys2Proof.Machine

/-- Settles O36: a step waits, or runs one event after an arrival that keeps both motors. -/
theorem modeFixedWhileMoving : Obligations.ModeFixedWhileMoving := by
  intro s t m hstep hm hreset
  have hmode : motionMode (motor m t) = motionMode (motor m s) := by
    obtain ⟨-, ⟨-, rfl⟩ | ⟨a, rest, hi, hrun⟩⟩ := step_cases hstep
    · rfl
    · simpa using runEvent_motionMode (m := m) hrun (hreset a rest hi) (by simpa using hm)
  simpa only [motionMode, Prod.mk.injEq] using hmode

/-- Settles O59: with no event SSC waits, and an event goes on unless it is a tick next to a sentinel. -/
theorem stepNeverStops : Obligations.StepNeverStops := by
  intro s hc htick
  cases hi : s.inputs with
  | nil => exact ⟨s, step_of_no_event hc hi⟩
  | cons a rest =>
    rw [step_of_event hc hi]
    exact runEvent_goesOn fun m ha => by simpa using htick a rest m hi ha

end Sys2Proof.Machine
end
